-- ==== Sys2Proof/Word.lean ====
section
/-! DEFINITION. The word type of the SCP core: every command word, response word, buffer word and register is 32 bits
(spec/00_scope.md R5 `WORD`, R6). -/

namespace Sys2Proof

/-- A word of 32 bits; bit 0 is the least significant (spec/00_scope.md R6). -/
abbrev Word := BitVec 32

/-- A byte of the memory's cells (log entry 3). -/
abbrev Byte := BitVec 8

end Sys2Proof
end

