-- ==== Sys2Proof/Syntax.lean ====
section
/-! DEFINITION. The commands of SCP-CS version 1 as syntax: channels, stages, the coefficient tuple, and `Instr`, one
constructor per row of spec/opcode_table.json (spec/30_encoding.md R97). -/

namespace Sys2Proof

/-- The two channels, 0 = left and 1 = right (spec/10_state.md R20). -/
inductive Chan where
  | left
  | right
deriving DecidableEq, Repr

/-- The three stages of type `GAIN`: 1 input gain, 7 volume, 9 output gain (spec/10_state.md R21, R22). -/
inductive GainStage where
  | input
  | vol
  | out
deriving DecidableEq, Repr

/-- The four stages of type `FILT`: 2 and 4 highpass, 5 high-shelf, 6 tone stack (spec/10_state.md R21, R25). -/
inductive FiltStage where
  | hp1
  | hp2
  | shelf
  | tone
deriving DecidableEq, Repr

/-- The nine stages, by their `stage_type` (spec/10_state.md R21). -/
inductive Stage where
  | gain (g : GainStage)
  | filt (f : FiltStage)
  | shaper
  | cab
deriving DecidableEq, Repr

/-- The source's FilterCoefficients, `K[c][s][0..7]` in their order B0..B3, A0..A3 (spec/10_state.md R25). -/
structure Coeffs where
  b0 : Word
  b1 : Word
  b2 : Word
  b3 : Word
  a0 : Word
  a1 : Word
  a2 : Word
  a3 : Word
deriving DecidableEq, Repr

/-- The four error causes (spec/60_exceptions.md R291). -/
inductive Cause where
  | opcode
  | rsvd
  | stage
  | range
deriving DecidableEq, Repr

/-- The fourteen assigned opcodes (spec/30_encoding.md R97). -/
inductive Op where
  | nop
  | prep
  | rsta
  | rsts
  | clre
  | ldg
  | ldd
  | ldc
  | byp
  | wrs
  | rds
  | proc
  | rdr
  | rdp
deriving DecidableEq, Repr

/-- The six head word formats (spec/30_encoding.md R95). -/
inductive Format where
  | z
  | s
  | sv
  | ci
  | r
  | cs
deriving DecidableEq, Repr

/-- A command with its operand words. A stage field `st` is the 4-bit number the head word holds, meaningful or not
(a bad one is a run-time `E_STAGE`, spec/30_encoding.md R103); `i`, `n` and `r` are the 16-bit immediate (R91, R99). -/
inductive Instr where
  | nop
  | prep (sr bs : Word)
  | rsta
  | rsts (st : Nat)
  | clre
  | ldg (st : Nat) (g : Word)
  | ldd (st : Nat) (d : Word)
  | ldc (st : Nat) (k : Coeffs)
  | byp (st : Nat) (v : Bool)
  | wrs (c : Chan) (i : Nat) (v : Word)
  | rds (c : Chan) (i : Nat)
  | proc (c : Chan) (n : Nat)
  | rdr (r : Nat)
  | rdp (c : Chan) (st : Nat)
deriving DecidableEq, Repr

end Sys2Proof
end

