-- ==== Sys2Proof/Config.lean ====
section
/-! DEFINITION. What an implementation fixes and what the spec leaves open (spec/00_scope.md R5;
spec/92_eei_decisions.md, "Open parameters, gathered"). The free values are opaque constants with no body: nothing in
Lean can evaluate one, so a theorem holds whatever they are. -/

namespace Sys2Proof

/-- `ID_VALUE`, the value of the read-only `ID` register (spec/00_scope.md R5, spec/10_state.md R31). -/
def Config.idValue : Word := 0x53435031

/-- `BLKMAX` - 1, any number from 0 to 65534 (spec/20_memory.md R61; log entry 9). -/
opaque Config.blkmaxPred : Fin 65535

/-- `BLKMAX`, the words in each channel's sample buffer, 1 ≤ `BLKMAX` ≤ 65535 (spec/20_memory.md R61). -/
def Config.blkmax : Nat := Config.blkmaxPred.val + 1

/-- The operations that can generate a NaN (spec/40_numerics.md R136). -/
inductive FOp where
  | add
  | sub
  | mul
  | div
  | atan
deriving DecidableEq, Repr

/-- The free part of `NANGEN`: the sign and payload of a generated NaN may depend on the operation and the operand
patterns and on nothing else (spec/40_numerics.md R136; log entry 5). -/
opaque Config.nangenRaw : FOp → Word → Word → Word

/-- The value the `k`-th read of a never written buffer word returns (spec/20_memory.md R66; log entry 4). -/
opaque Config.freeWord : Nat → Word

/-- The `k`-th sample of the `CABRDY` input (spec/10_state.md R36; log entry 7). -/
opaque Config.cabrdy : Nat → Bool

/-- A call the core makes to the external cabinet unit (spec/42_stages.md R197): `cabPrepare` with the sample rate and
block size, `cabReset` of a channel, `cabProcess` of a channel's block. -/
inductive CabCall where
  | prepare (sr bs : Word)
  | reset (c : Chan)
  | process (c : Chan) (xs : List Word)
deriving DecidableEq, Repr

/-- Word `i` of the block that `cabProcess` returns for channel `c` and the block `xs`, after the calls `h` since
`cabInit` (spec/42_stages.md R197, R198; log entry 8). -/
opaque Config.cabWord : (h : List CabCall) → (c : Chan) → (xs : List Word) → (i : Nat) → Word

end Sys2Proof
end

