-- ==== Sys2Proof/Machine/State.lean ====
section
/-! DEFINITION. The state of the SCP core as plain data (spec/10_state.md), its value after hardware reset (R42), and
the reasons a step could stop (there are none: spec/60_exceptions.md R299). -/

namespace Sys2Proof.Machine

/-- Why a step could end in a fault. No constructor: the machine is total and keeps going
(spec/60_exceptions.md R290, R299), a malformed command is a NEXT state with the error latch set. Safe: nothing stops
a run that the spec lets go on. -/
inductive Fault where
deriving DecidableEq, Repr

/-- Why a step could refuse an instruction. -/
inductive Refusal where
  /-- the instruction has no meaning in the model yet; raised by an arm of `exec` only, and no arm raises it. Safe: a
  refused instruction has no next state about which anything could be proved. -/
  | notModelled (mnemonic : String)
deriving DecidableEq, Repr

/-- One copy for each of the two channels (spec/10_state.md R20, R24). -/
structure PerChan (α : Type) where
  left : α
  right : α
deriving DecidableEq, Repr

/-- One item for each gain stage, 1, 7 and 9 (spec/10_state.md R22). -/
structure PerGain (α : Type) where
  input : α
  vol : α
  out : α
deriving DecidableEq, Repr

/-- One item for each filter stage, 2, 4, 5 and 6 (spec/10_state.md R25, R26). -/
structure PerFilt (α : Type) where
  hp1 : α
  hp2 : α
  shelf : α
  tone : α
deriving DecidableEq, Repr

/-- One item for each of the nine stages (spec/10_state.md R27). -/
structure PerStage (α : Type) where
  gain : PerGain α
  filt : PerFilt α
  shaper : α
  cab : α
deriving DecidableEq, Repr

/-- The history of one filter cell: `XH[1..3]`, the last three inputs, and `YH[1..3]`, the last three outputs
(spec/10_state.md R26). -/
structure Hist where
  x1 : Word
  x2 : Word
  x3 : Word
  y1 : Word
  y2 : Word
  y3 : Word
deriving DecidableEq, Repr

/-- The sample buffers as (address, byte) cells, addresses strictly rising, a byte that nothing has written not listed
(spec/20_memory.md R60, R66; Machine/Memory.lean says where a word lies, log entry 3). -/
abbrev Memory := List Host.Cell

/-- Everything the spec gives the machine (spec/10_state.md), and three fields of the model's own. -/
structure State where
  /-- `G[c][s]`, the linear gain factors (R22) -/
  gain : PerChan (PerGain Word)
  /-- `DRV[c]`, the waveshaper's drive (R23) -/
  drive : PerChan Word
  /-- `K[c][s][0..7]`, the coefficient tuples (R25) -/
  coef : PerChan (PerFilt Coeffs)
  /-- `XH[c][s][1..3]`, `YH[c][s][1..3]`, the filter histories (R26) -/
  hist : PerChan (PerFilt Hist)
  /-- `BYP[c][s]`, the bypass flags (R27) -/
  byp : PerChan (PerStage Bool)
  /-- `BUF[0]` and `BUF[1]`, the sample buffers (R39) -/
  mem : Memory
  /-- `SRATE` (R34) -/
  srate : Word
  /-- `BLKSZ`, an unsigned integer (R35) -/
  blksz : Word
  /-- `ERR` (R32) -/
  err : Bool
  /-- `ECODE` (R32; spec/60_exceptions.md R291) -/
  ecode : BitVec 4
  /-- `EWORD` (R33) -/
  eword : Word
  /-- `cp`, the command words consumed since reset, an unbounded natural number (R28) -/
  cp : Nat
  /-- `CABST`, the external cabinet unit's state, as the calls made to it since `cabInit`, oldest first (R40;
  log entry 8) -/
  cabst : List CabCall
  /-- the response stream, oldest word first (spec/30_encoding.md R94) -/
  responses : List Word
  /-- the words held of an incomplete command, head word first (R40 (b); spec/30_encoding.md R96) -/
  held : List Word
  /-- MODEL'S OWN: the words the host has delivered and the sequencer has not consumed (log entry 1) -/
  input : List Word
  /-- MODEL'S OWN: how many reads have drawn a free value for a never written buffer word (log entry 4) -/
  draws : Nat
  /-- MODEL'S OWN: how many times `CABRDY` has been sampled (log entry 7) -/
  rdySamples : Nat
deriving DecidableEq, Repr

/-- The same value for both channels (spec/10_state.md R24). -/
abbrev PerChan.both {α : Type} (v : α) : PerChan α := { left := v, right := v }

/-- The tuple every filter stage holds after reset, H(z) = 1 (spec/10_state.md R42). -/
def resetCoeffs : Coeffs :=
  { b0 := 0x3F800000, b1 := 0, b2 := 0, b3 := 0, a0 := 0x3F800000, a1 := 0, a2 := 0, a3 := 0 }

/-- A history of +0.0 words (spec/10_state.md R42). -/
def resetHist : Hist := { x1 := 0, x2 := 0, x3 := 0, y1 := 0, y2 := 0, y3 := 0 }

/-- The four cells' histories, all +0.0 (spec/10_state.md R42). -/
def resetHists : PerFilt Hist := { hp1 := resetHist, hp2 := resetHist, shelf := resetHist, tone := resetHist }

/-- The bypass flags after reset: 1 for stages 5 and 8, 0 for the rest (spec/10_state.md R42). -/
def resetByp : PerStage Bool :=
  { gain := { input := false, vol := false, out := false }
    filt := { hp1 := false, hp2 := false, shelf := true, tone := false }
    shaper := false
    cab := true }

/-- The state right after hardware reset (spec/10_state.md R42; spec/70_reset_and_hazards.md R320, R321). No buffer
word is written; no command word is there yet. -/
def State.reset : State :=
  { gain := PerChan.both { input := 0x3F800000, vol := 0x3F800000, out := 0x3F800000 }
    drive := PerChan.both 0
    coef := PerChan.both { hp1 := resetCoeffs, hp2 := resetCoeffs, shelf := resetCoeffs, tone := resetCoeffs }
    hist := PerChan.both resetHists
    byp := PerChan.both resetByp
    mem := []
    srate := 0
    blksz := 0
    err := false
    ecode := 0
    eword := 0
    cp := 0
    cabst := []
    responses := []
    held := []
    input := []
    draws := 0
    rdySamples := 0 }

end Sys2Proof.Machine
end

