-- ==== Sys2Proof/Machine/Memory.lean ====
section
/-! DEFINITION. The sample buffers: one address space of pairs (channel, word index), every access one whole 32-bit word
(spec/20_memory.md R60, R64, R65, R69). A word is kept as four byte cells in one canonical list; the order of the four
cannot be observed (R67; log entry 3). -/

namespace Sys2Proof.Machine

/-- The canonical form: addresses strictly rising. What an unlisted address reads as is no value (a byte nothing has
written, spec/20_memory.md R66), so no listed entry equals it. -/
abbrev Memory.wf (m : Memory) : Prop := m.Pairwise fun x y => x.1 < y.1

/-- The byte at an address; none where nothing has written it since reset (spec/20_memory.md R66). -/
def Memory.byte : Memory → Nat → Option Byte
  | [], _ => none
  | (k, v) :: m, a => if k = a then some v else Memory.byte m a

/-- One byte written; the canonical form is kept. -/
def Memory.setByte : Memory → Nat → Byte → Memory
  | [], a, b => [(a, b)]
  | (k, v) :: m, a, b =>
    if a < k then (a, b) :: (k, v) :: m
    else if a = k then (a, b) :: m
    else (k, v) :: Memory.setByte m a b

/-- A channel's number, 0 = left, 1 = right (spec/10_state.md R20). -/
def chanNum : Chan → Nat
  | .left => 0
  | .right => 1

/-- The address of the first of the four bytes of `BUF[c][i]`: planar, one buffer of up to 65536 words per channel
(spec/20_memory.md R60 to R62). -/
def wordAddr (c : Chan) (i : Nat) : Nat := 4 * (65536 * chanNum c + i)

/-- Four bytes as a word, the first (lowest address) in bits 7:0 (spec/20_memory.md R67). -/
def wordOfBytes (b0 b1 b2 b3 : Byte) : Word := b3 ++ b2 ++ b1 ++ b0

/-- Byte `k` of a word, byte 0 in bits 7:0. -/
def byteOfWord (w : Word) (k : Nat) : Byte := w.extractLsb' (8 * k) 8

/-- `BUF[c][i]`, none where the word has not been written since reset (spec/20_memory.md R64, R66). -/
def Memory.word (m : Memory) (c : Chan) (i : Nat) : Option Word :=
  match m.byte (wordAddr c i), m.byte (wordAddr c i + 1), m.byte (wordAddr c i + 2), m.byte (wordAddr c i + 3) with
  | some b0, some b1, some b2, some b3 => some (wordOfBytes b0 b1 b2 b3)
  | _, _, _, _ => none

/-- `BUF[c][i] <- v` (spec/20_memory.md R65). -/
def Memory.setWord (m : Memory) (c : Chan) (i : Nat) (v : Word) : Memory :=
  (((m.setByte (wordAddr c i) (byteOfWord v 0)).setByte (wordAddr c i + 1) (byteOfWord v 1)).setByte
    (wordAddr c i + 2) (byteOfWord v 2)).setByte (wordAddr c i + 3) (byteOfWord v 3)

end Sys2Proof.Machine
end

