-- ==== Sys2Proof/WellFormed.lean ====
section
/-! DEFINITION. Which terms of `Instr` a head word can hold: each numeric field fits the width of its field
(spec/30_encoding.md R91). Whether the value is one the command can use is checked when it runs (R103). -/

namespace Sys2Proof

/-- A stage number fits the field `s`, bits 23:20 (spec/30_encoding.md R91). -/
def stageFits (st : Nat) : Bool := decide (st < 16)

/-- An index, count or register number fits the field `imm`, bits 15:0 (spec/30_encoding.md R91). -/
def immFits (n : Nat) : Bool := decide (n < 65536)

/-- The term is one that some head word encodes. Channels, flag values and operand words always fit. -/
def Instr.wf : Instr → Bool
  | .nop => true
  | .prep _ _ => true
  | .rsta => true
  | .rsts st => stageFits st
  | .clre => true
  | .ldg st _ => stageFits st
  | .ldd st _ => stageFits st
  | .ldc st _ => stageFits st
  | .byp st _ => stageFits st
  | .wrs _ i _ => immFits i
  | .rds _ i => immFits i
  | .proc _ n => immFits n
  | .rdr r => immFits r
  | .rdp _ st => stageFits st

end Sys2Proof
end

