-- ==== Sys2Proof/Decode.lean ====
section
/-! DEFINITION. From command words to an instruction and back. The decoder is total: it answers an instruction, one of
the two decoding errors by name (`E_OPCODE`, `E_RSVD`), or that the stream ends inside the command
(spec/30_encoding.md R91 to R104). -/

namespace Sys2Proof

/-! ### The opcode map (spec/30_encoding.md R97) -/

/-- The opcode byte of a command (spec/30_encoding.md R97). -/
def Op.code : Op → BitVec 8
  | .nop => 0x00
  | .prep => 0x01
  | .rsta => 0x02
  | .rsts => 0x03
  | .clre => 0x04
  | .ldg => 0x10
  | .ldd => 0x11
  | .ldc => 0x12
  | .byp => 0x13
  | .wrs => 0x20
  | .rds => 0x21
  | .proc => 0x22
  | .rdr => 0x30
  | .rdp => 0x31

/-- The fourteen assigned opcodes, in the order of spec/30_encoding.md R97. -/
def opTable : List Op :=
  [.nop, .prep, .rsta, .rsts, .clre, .ldg, .ldd, .ldc, .byp, .wrs, .rds, .proc, .rdr, .rdp]

/-- The command an opcode byte selects; none where it is unassigned (spec/30_encoding.md R97, R102). -/
def Op.ofCode? (b : BitVec 8) : Option Op := opTable.find? fun op => op.code == b

/-- The format of each command's head word (spec/30_encoding.md R97). -/
def Op.format : Op → Format
  | .nop => .z
  | .prep => .z
  | .rsta => .z
  | .rsts => .s
  | .clre => .z
  | .ldg => .s
  | .ldd => .s
  | .ldc => .s
  | .byp => .sv
  | .wrs => .ci
  | .rds => .ci
  | .proc => .ci
  | .rdr => .r
  | .rdp => .cs

/-- The bits of the head word that must be zero (spec/30_encoding.md R95). -/
def Format.mbz : Format → Word
  | .z => 0x00FFFFFF
  | .s => 0x000FFFFF
  | .sv => 0x000FFFFE
  | .ci => 0x00FE0000
  | .r => 0x00FF0000
  | .cs => 0x000EFFFF

/-- The length of a command in words, head word included: a function of the opcode only (spec/30_encoding.md R93). -/
def Op.length : Op → Nat
  | .prep => 3
  | .ldg => 2
  | .ldd => 2
  | .wrs => 2
  | .ldc => 9
  | .nop => 1
  | .rsta => 1
  | .rsts => 1
  | .clre => 1
  | .byp => 1
  | .rds => 1
  | .proc => 1
  | .rdr => 1
  | .rdp => 1

/-! ### Head word fields (spec/30_encoding.md R91, R99) -/

/-- Field `op`, bits 31:24. -/
def fieldOp (w : Word) : BitVec 8 := w.extractLsb' 24 8

/-- Field `s`, bits 23:20, a stage number. -/
def fieldStage (w : Word) : Nat := (w.extractLsb' 20 4).toNat

/-- Field `c`, bit 16, a channel. -/
def fieldChan (w : Word) : Chan := if w.getLsbD 16 then .right else .left

/-- Field `imm`, bits 15:0, an index, a count or a register number. -/
def fieldImm (w : Word) : Nat := (w.extractLsb' 0 16).toNat

/-- Field `v`, bit 0, the flag value of format SV. -/
def fieldFlag (w : Word) : Bool := w.getLsbD 0

/-! ### The decoder (spec/30_encoding.md R100) -/

/-- What the sequencer finds at the front of the command stream. -/
inductive Decoded where
  /-- the stream ends before the command's last word (spec/30_encoding.md R96) -/
  | incomplete
  /-- the command is illegal: its cause, its head word, and how many words it consumes (spec/30_encoding.md R93,
  R101, R102) -/
  | illegal (e : Cause) (w : Word) (len : Nat)
  /-- a legal command of `len` words -/
  | ok (i : Instr) (len : Nat)
deriving DecidableEq, Repr

/-- Operand word `opnd[k]`, `k` from 1, out of the words after the head word (spec/30_encoding.md R98, R100). -/
def opnd (rest : List Word) (k : Nat) : Word := rest.getD (k - 1) 0

/-- The eight operand words of `LDC` as a tuple, numerator first (spec/41_install.md R163). -/
def opndCoeffs (rest : List Word) : Coeffs :=
  { b0 := opnd rest 1, b1 := opnd rest 2, b2 := opnd rest 3, b3 := opnd rest 4
    a0 := opnd rest 5, a1 := opnd rest 6, a2 := opnd rest 7, a3 := opnd rest 8 }

/-- The command an assigned opcode, a head word and its operand words stand for (spec/30_encoding.md R97 to R99). -/
def Op.build (op : Op) (w : Word) (rest : List Word) : Instr :=
  match op with
  | .nop => .nop
  | .prep => .prep (opnd rest 1) (opnd rest 2)
  | .rsta => .rsta
  | .rsts => .rsts (fieldStage w)
  | .clre => .clre
  | .ldg => .ldg (fieldStage w) (opnd rest 1)
  | .ldd => .ldd (fieldStage w) (opnd rest 1)
  | .ldc => .ldc (fieldStage w) (opndCoeffs rest)
  | .byp => .byp (fieldStage w) (fieldFlag w)
  | .wrs => .wrs (fieldChan w) (fieldImm w) (opnd rest 1)
  | .rds => .rds (fieldChan w) (fieldImm w)
  | .proc => .proc (fieldChan w) (fieldImm w)
  | .rdr => .rdr (fieldImm w)
  | .rdp => .rdp (fieldChan w) (fieldStage w)

/-- Decoding one command from the words at the front of the stream, in the order of checks of
spec/30_encoding.md R100: the opcode, then that all operand words are there, then the reserved bits. -/
def decode : List Word → Decoded
  | [] => .incomplete
  | w :: rest =>
    match Op.ofCode? (fieldOp w) with
    | none => .illegal .opcode w 1
    | some op =>
      if rest.length + 1 < op.length then .incomplete
      else if w &&& op.format.mbz = 0 then .ok (op.build w rest) op.length
      else .illegal .rsvd w op.length

/-! ### The encoder (spec/30_encoding.md R91, R97) -/

/-- The opcode of an instruction. -/
def Instr.op : Instr → Op
  | .nop => .nop
  | .prep _ _ => .prep
  | .rsta => .rsta
  | .rsts _ => .rsts
  | .clre => .clre
  | .ldg _ _ => .ldg
  | .ldd _ _ => .ldd
  | .ldc _ _ => .ldc
  | .byp _ _ => .byp
  | .wrs _ _ _ => .wrs
  | .rds _ _ => .rds
  | .proc _ _ => .proc
  | .rdr _ => .rdr
  | .rdp _ _ => .rdp

/-- The channel bit, 0 = left, 1 = right (spec/30_encoding.md R91). -/
def Chan.bit : Chan → BitVec 1
  | .left => 0
  | .right => 1

/-- A head word put together from its five fields, the reserved field `z` zero (spec/30_encoding.md R91). -/
def headWord (op : BitVec 8) (s : BitVec 4) (c : BitVec 1) (imm : BitVec 16) : Word :=
  op ++ s ++ (0 : BitVec 3) ++ c ++ imm

/-- The head word of an instruction, every field it does not use zero (spec/30_encoding.md R95, R97). -/
def Instr.head (i : Instr) : Word :=
  match i with
  | .nop => headWord i.op.code 0 0 0
  | .prep _ _ => headWord i.op.code 0 0 0
  | .rsta => headWord i.op.code 0 0 0
  | .rsts st => headWord i.op.code (BitVec.ofNat 4 st) 0 0
  | .clre => headWord i.op.code 0 0 0
  | .ldg st _ => headWord i.op.code (BitVec.ofNat 4 st) 0 0
  | .ldd st _ => headWord i.op.code (BitVec.ofNat 4 st) 0 0
  | .ldc st _ => headWord i.op.code (BitVec.ofNat 4 st) 0 0
  | .byp st v => headWord i.op.code (BitVec.ofNat 4 st) 0 (if v then 1 else 0)
  | .wrs c n _ => headWord i.op.code 0 c.bit (BitVec.ofNat 16 n)
  | .rds c n => headWord i.op.code 0 c.bit (BitVec.ofNat 16 n)
  | .proc c n => headWord i.op.code 0 c.bit (BitVec.ofNat 16 n)
  | .rdr r => headWord i.op.code 0 0 (BitVec.ofNat 16 r)
  | .rdp c st => headWord i.op.code (BitVec.ofNat 4 st) c.bit 0

/-- The eight words of a coefficient tuple in the order B0..B3, A0..A3 (spec/10_state.md R25). -/
def Coeffs.words (k : Coeffs) : List Word := [k.b0, k.b1, k.b2, k.b3, k.a0, k.a1, k.a2, k.a3]

/-- The operand words of an instruction, in stream order (spec/30_encoding.md R97). -/
def Instr.operands : Instr → List Word
  | .nop => []
  | .prep sr bs => [sr, bs]
  | .rsta => []
  | .rsts _ => []
  | .clre => []
  | .ldg _ g => [g]
  | .ldd _ d => [d]
  | .ldc _ k => k.words
  | .byp _ _ => []
  | .wrs _ _ v => [v]
  | .rds _ _ => []
  | .proc _ _ => []
  | .rdr _ => []
  | .rdp _ _ => []

/-- The words of an instruction, head word first (spec/30_encoding.md R90, R97). -/
def encode (i : Instr) : List Word := i.head :: i.operands

/-! ### The opcode table's numbering of an instruction's bits -/

/-- The nine words (the longest command) of an instruction whose bits are `w`, bit 0 the least significant bit of the
first word, every bit from `nbits` on zero. -/
def tableWords (nbits w : Nat) : List Word :=
  (List.range 9).map fun k => BitVec.ofNat 32 ((w % 2 ^ nbits) >>> (32 * k))

/-- The instruction the decoder reads from an instruction whose bits are `w` (spec/opcode_table.json's numbering). -/
def decodeTableWord (nbits w : Nat) : Option Instr :=
  match decode (tableWords nbits w) with
  | .ok i _ => some i
  | .illegal _ _ _ => none
  | .incomplete => none

/-- The words of the first command among `ws`: the head word and as many words as its opcode takes
(spec/30_encoding.md R93; an unassigned opcode takes one). -/
def firstCommand (ws : List Word) : List Word :=
  match ws with
  | [] => []
  | w :: _ =>
    match Op.ofCode? (fieldOp w) with
    | none => [w]
    | some op => ws.take op.length

end Sys2Proof
end

