-- ==== Sys2Proof/Machine/Operands.lean ====
section
/-! DEFINITION. The operand forms of the commands: stage numbers and their types, and the ranges of indices, counts and
register numbers (spec/10_state.md R21; spec/40_numerics.md R142; spec/60_exceptions.md R291). -/

namespace Sys2Proof.Machine

/-- The stage a number names, none for 0 and for 10 and above (spec/10_state.md R21). -/
def stageOf? : Nat → Option Stage
  | 1 => some (.gain .input)
  | 2 => some (.filt .hp1)
  | 3 => some .shaper
  | 4 => some (.filt .hp2)
  | 5 => some (.filt .shelf)
  | 6 => some (.filt .tone)
  | 7 => some (.gain .vol)
  | 8 => some .cab
  | 9 => some (.gain .out)
  | _ => none

/-- The nine stages in processing order, 1 to 9: the order is fixed (spec/10_state.md R21). -/
def chain : List Stage :=
  [.gain .input, .filt .hp1, .shaper, .filt .hp2, .filt .shelf, .filt .tone, .gain .vol, .cab, .gain .out]

/-- The stage number as an operand of `LDG`: a stage of type `GAIN` (spec/41_install.md R161). -/
def gainOperand? (st : Nat) : Option GainStage :=
  match stageOf? st with
  | some (.gain g) => some g
  | some (.filt _) => none
  | some .shaper => none
  | some .cab => none
  | none => none

/-- The stage number as an operand of `LDC`: a stage of type `FILT` (spec/41_install.md R163). -/
def filtOperand? (st : Nat) : Option FiltStage :=
  match stageOf? st with
  | some (.filt f) => some f
  | some (.gain _) => none
  | some .shaper => none
  | some .cab => none
  | none => none

/-- The stage number as an operand of `LDD`: the one stage of type `SHAPER` (spec/41_install.md R162). -/
def isShaperOperand (st : Nat) : Bool := stageOf? st == some .shaper

/-- An index names a buffer word: `i` < `BLKMAX` (spec/43_process.md R211, R212; spec/40_numerics.md R142). -/
def inBuffer (i : Nat) : Bool := decide (i < Config.blkmax)

/-- A block size `PREP` accepts: 1 ≤ `bs` ≤ `BLKMAX`, over the full 32 bits, unsigned (spec/44_system.md R232;
spec/40_numerics.md R142). -/
def blockSizeOk (bs : Word) : Bool := decide (1 ≤ bs.toNat ∧ bs.toNat ≤ Config.blkmax)

/-- A sample count `PROC` accepts: `n` ≤ `BLKSZ`, unsigned (spec/43_process.md R213; spec/40_numerics.md R142). -/
def countOk (n : Nat) (s : State) : Bool := decide (n ≤ s.blksz.toNat)

end Sys2Proof.Machine
end

