-- ==== Sys2Proof/Machine/Ops.lean ====
section
/-! DEFINITION. The named operations over the state: stage registers, history, buffers, the two streams, the cabinet
unit's port, and the error latch, which is this machine's taking of an exception (spec/60_exceptions.md R293). -/

namespace Sys2Proof.Machine

/-! ### Per-channel and per-stage copies -/

def PerChan.get {α : Type} (p : PerChan α) : Chan → α
  | .left => p.left
  | .right => p.right

def PerChan.set {α : Type} (p : PerChan α) (c : Chan) (v : α) : PerChan α :=
  match c with
  | .left => { p with left := v }
  | .right => { p with right := v }

/-- The same change made to both channels' copies (spec/10_state.md R24). -/
def PerChan.map {α : Type} (p : PerChan α) (f : α → α) : PerChan α := { left := f p.left, right := f p.right }

def PerGain.get {α : Type} (p : PerGain α) : GainStage → α
  | .input => p.input
  | .vol => p.vol
  | .out => p.out

def PerGain.set {α : Type} (p : PerGain α) (g : GainStage) (v : α) : PerGain α :=
  match g with
  | .input => { p with input := v }
  | .vol => { p with vol := v }
  | .out => { p with out := v }

def PerFilt.get {α : Type} (p : PerFilt α) : FiltStage → α
  | .hp1 => p.hp1
  | .hp2 => p.hp2
  | .shelf => p.shelf
  | .tone => p.tone

def PerFilt.set {α : Type} (p : PerFilt α) (f : FiltStage) (v : α) : PerFilt α :=
  match f with
  | .hp1 => { p with hp1 := v }
  | .hp2 => { p with hp2 := v }
  | .shelf => { p with shelf := v }
  | .tone => { p with tone := v }

def PerStage.get {α : Type} (p : PerStage α) : Stage → α
  | .gain g => p.gain.get g
  | .filt f => p.filt.get f
  | .shaper => p.shaper
  | .cab => p.cab

def PerStage.set {α : Type} (p : PerStage α) (st : Stage) (v : α) : PerStage α :=
  match st with
  | .gain g => { p with gain := p.gain.set g v }
  | .filt f => { p with filt := p.filt.set f v }
  | .shaper => { p with shaper := v }
  | .cab => { p with cab := v }

/-! ### Stage registers (spec/10_state.md R22 to R27): a read of one channel's copy, a write of both copies (R24) -/

/-- `G[c][s]`. -/
def State.gainOf (s : State) (c : Chan) (g : GainStage) : Word := (s.gain.get c).get g

/-- `G[0][s] <- v; G[1][s] <- v`. -/
def State.installGain (s : State) (g : GainStage) (v : Word) : State :=
  { s with gain := s.gain.map fun p => p.set g v }

/-- `DRV[c]`. -/
def State.driveOf (s : State) (c : Chan) : Word := s.drive.get c

/-- `DRV[0] <- v; DRV[1] <- v`. -/
def State.installDrive (s : State) (v : Word) : State := { s with drive := PerChan.both v }

/-- `K[c][s][0..7]`. -/
def State.coefOf (s : State) (c : Chan) (f : FiltStage) : Coeffs := (s.coef.get c).get f

/-- All eight registers of both channels' copies replaced together (spec/41_install.md R163). -/
def State.installCoeffs (s : State) (f : FiltStage) (k : Coeffs) : State :=
  { s with coef := s.coef.map fun p => p.set f k }

/-- `BYP[c][s]`. -/
def State.bypOf (s : State) (c : Chan) (st : Stage) : Bool := (s.byp.get c).get st

/-- `BYP[0][s] <- v; BYP[1][s] <- v`. -/
def State.installBypass (s : State) (st : Stage) (v : Bool) : State :=
  { s with byp := s.byp.map fun p => p.set st v }

/-! ### Filter history (spec/10_state.md R26) -/

/-- `XH[c][s][1..3]`, `YH[c][s][1..3]`. -/
def State.histOf (s : State) (c : Chan) (f : FiltStage) : Hist := (s.hist.get c).get f

/-- One cell's history written, of one channel only (spec/10_state.md R24). -/
def State.setHist (s : State) (c : Chan) (f : FiltStage) (h : Hist) : State :=
  { s with hist := s.hist.set c ((s.hist.get c).set f h) }

/-- Every history register of both channels to +0.0 (spec/44_system.md R232, R233). -/
def State.clearHists (s : State) : State := { s with hist := PerChan.both resetHists }

/-- The history registers of one stage, of both channels, to +0.0 (spec/44_system.md R234). -/
def State.clearHistsOf (s : State) (f : FiltStage) : State :=
  { s with hist := s.hist.map fun p => p.set f resetHist }

/-! ### Sample buffers (spec/20_memory.md R64 to R66) -/

/-- `MemRead(c, i)`. A word never written since reset gives a free value, a new one on each read
(spec/20_memory.md R66; log entry 4). -/
def State.memRead (s : State) (c : Chan) (i : Nat) : Word × State :=
  match s.mem.word c i with
  | some v => (v, s)
  | none => (Config.freeWord s.draws, { s with draws := s.draws + 1 })

/-- `MemWrite(c, i, v)`. -/
def State.memWrite (s : State) (c : Chan) (i : Nat) (v : Word) : State :=
  { s with mem := s.mem.setWord c i v }

/-- Words `i`, `i+1`, ... of a channel read in order, `n` of them (spec/42_stages.md R199). -/
def State.readFrom (s : State) (c : Chan) (i : Nat) : Nat → List Word × State
  | 0 => ([], s)
  | n + 1 =>
    let (x, s1) := s.memRead c i
    let (xs, s2) := s1.readFrom c (i + 1) n
    (x :: xs, s2)

/-- A list of words written to words `i`, `i+1`, ... of a channel (spec/42_stages.md R199). -/
def State.writeFrom (s : State) (c : Chan) (i : Nat) : List Word → State
  | [] => s
  | v :: vs => (s.memWrite c i v).writeFrom c (i + 1) vs

/-! ### The two streams (spec/30_encoding.md R90 to R96) -/

/-- `emit(v)` (spec/30_encoding.md R94). -/
def State.emit (s : State) (v : Word) : State := { s with responses := s.responses ++ [v] }

/-- Several words emitted in order. -/
def State.emitAll (s : State) (vs : List Word) : State := { s with responses := s.responses ++ vs }

/-- The words not yet used by a command: those held of an incomplete command, then those not yet consumed
(spec/30_encoding.md R92, R96). -/
def State.stream (s : State) : List Word := s.held ++ s.input

/-- A whole command of `len` words consumed, those already held among them: `cp` counts every word once
(spec/30_encoding.md R92, R93, R96; spec/10_state.md R28). -/
def State.consume (s : State) (len : Nat) : State :=
  { s with cp := s.cp + (len - s.held.length), held := [], input := s.stream.drop len }

/-- The stream pauses inside a command: the words there are, are consumed and held (spec/30_encoding.md R96). With no
word there this changes nothing: the sequencer waits (spec/60_exceptions.md R305). -/
def State.hold (s : State) : State :=
  { s with cp := s.cp + s.input.length, held := s.stream, input := [] }

/-! ### The cabinet unit's port (spec/42_stages.md R197; log entry 8) -/

/-- `CABST <- cabPrepare(CABST, sr, bs)`. -/
def State.cabPrepare (s : State) (sr bs : Word) : State := { s with cabst := s.cabst ++ [.prepare sr bs] }

/-- `CABST <- cabReset(cabReset(CABST, 0), 1)`. -/
def State.cabResetBoth (s : State) : State := { s with cabst := s.cabst ++ [.reset .left, .reset .right] }

/-- The block `cabProcess` returns: exactly as many words as it was handed (`cab_len`, spec/42_stages.md R198), each one
free. -/
def cabBlock (h : List CabCall) (c : Chan) (xs : List Word) : List Word :=
  (List.range xs.length).map (Config.cabWord h c xs)

/-- `(CABST, ys) <- cabProcess(CABST, c, xs)`. -/
def State.cabProcess (s : State) (c : Chan) (xs : List Word) : List Word × State :=
  (cabBlock s.cabst c xs, { s with cabst := s.cabst ++ [.process c xs] })

/-- One sample of the `CABRDY` input, a free bit each time (spec/10_state.md R36; log entry 7). -/
def State.sampleCabrdy (s : State) : Bool × State :=
  (Config.cabrdy s.rdySamples, { s with rdySamples := s.rdySamples + 1 })

/-! ### The error latch: raising an error and clearing it (spec/60_exceptions.md R290 to R295) -/

/-- The cause code `ECODE` takes (spec/60_exceptions.md R291). -/
def Cause.code : Cause → BitVec 4
  | .opcode => 1
  | .rsvd => 2
  | .stage => 3
  | .range => 4

/-- `raise E_x(w)`: the first error wins, and nothing else changes (spec/60_exceptions.md R293, R294). -/
def State.raise (s : State) (e : Cause) (w : Word) : State :=
  if s.err then s else { s with err := true, ecode := Cause.code e, eword := w }

/-- `ERR <- 0; ECODE <- 0; EWORD <- 0` (spec/44_system.md R235; spec/60_exceptions.md R295). -/
def State.clearLatch (s : State) : State := { s with err := false, ecode := 0, eword := 0 }

/-- A command that errs when it is executed: its head word is recorded and it does nothing else. The reserved bits of
its head word were zero, so the head word is the one its fields encode (spec/60_exceptions.md R291, R292). -/
def State.reject (s : State) (e : Cause) (i : Instr) : State := s.raise e i.head

end Sys2Proof.Machine
end

