-- ==== Sys2Proof/Machine/Install.lean ====
section
/-! DEFINITION. The installer commands LDG, LDD, LDC, BYP (spec/41_install.md). Values are not checked (R168) and
nothing but the named registers is written (R165). -/

namespace Sys2Proof.Machine

/-- `LDG s : g` (spec/41_install.md R161). -/
def execLdg (n : Nat) (g : Word) (s : State) : Host.Outcome State Fault Refusal :=
  match gainOperand? n with
  | some st => .next (s.installGain st g)
  | none => .next (s.reject .stage (.ldg n g))

/-- `LDD s : d` (spec/41_install.md R162). -/
def execLdd (n : Nat) (d : Word) (s : State) : Host.Outcome State Fault Refusal :=
  if isShaperOperand n then .next (s.installDrive d) else .next (s.reject .stage (.ldd n d))

/-- `LDC s : B0, ..., A3` (spec/41_install.md R163). -/
def execLdc (n : Nat) (k : Coeffs) (s : State) : Host.Outcome State Fault Refusal :=
  match filtOperand? n with
  | some st => .next (s.installCoeffs st k)
  | none => .next (s.reject .stage (.ldc n k))

/-- `BYP s, v` (spec/41_install.md R164). -/
def execByp (n : Nat) (v : Bool) (s : State) : Host.Outcome State Fault Refusal :=
  match stageOf? n with
  | some st => .next (s.installBypass st v)
  | none => .next (s.reject .stage (.byp n v))

end Sys2Proof.Machine
end

