-- ==== Sys2Proof/Machine/Float.lean ====
section
/-! DEFINITION. IEEE 754 binary32 arithmetic on 32-bit patterns (spec/40_numerics.md R130 to R141). Operands are read as
exact integers, in units of the least subnormal 2^-149; the exact result is a ratio of integers in that unit; it is
rounded once, at the end. Every operation is separate, none is fused (R139), none sets a flag (R137). -/

namespace Sys2Proof.Machine

/-! ### The format (spec/40_numerics.md R131) -/

/-- The sign bit `S`. -/
def fsign (w : Word) : Bool := w.msb

/-- The biased exponent `E`, bits 30:23. -/
def fexp (w : Word) : Nat := w.toNat / 2 ^ 23 % 256

/-- The fraction `F`, bits 22:0. -/
def ffrac (w : Word) : Nat := w.toNat % 2 ^ 23

/-- The magnitude bits 30:0. -/
def fmag (w : Word) : Nat := w.toNat % 2 ^ 31

/-- `E` = 255 and `F` ≠ 0. -/
def isNaN (w : Word) : Bool := fexp w == 255 && ffrac w != 0

/-- `E` = 255 and `F` = 0. -/
def isInf (w : Word) : Bool := fexp w == 255 && ffrac w == 0

/-- `E` = 0 and `F` = 0, of either sign. -/
def isZero (w : Word) : Bool := fexp w == 0 && ffrac w == 0

/-- Zero, subnormal or normal. -/
def isFinite (w : Word) : Bool := fexp w != 255

/-- A NaN whose `F[22]` is 1. -/
def isQuietNaN (w : Word) : Bool := isNaN w && w.getLsbD 22

/-- `neg(a)`: bit 31 inverted. -/
def fneg (w : Word) : Word := w ^^^ 0x80000000

/-- `abs(a)`: bit 31 cleared. -/
def fabs (w : Word) : Word := w &&& 0x7FFFFFFF

/-- The magnitude of a finite value in units of 2^-149: `F` for a zero or subnormal, (2^23 + `F`) × 2^(`E` - 1) for a
normal. (An infinity's pattern would stand at 2^277, above every finite value.) -/
def funits (w : Word) : Nat :=
  if fexp w = 0 then ffrac w else (2 ^ 23 + ffrac w) * 2 ^ (fexp w - 1)

/-- The value of a finite pattern in units of 2^-149, with its sign. -/
def fnum (w : Word) : Int := if fsign w then -(funits w : Int) else funits w

/-- A pattern from a sign and magnitude bits. -/
def fpack (s : Bool) (m : Nat) : Word := BitVec.ofNat 32 (m + if s then 2 ^ 31 else 0)

/-- The magnitude bits of an infinity. -/
def infMag : Nat := 0x7F800000

/-! ### Rounding to nearest, ties to even (spec/40_numerics.md R132) -/

/-- `n / d` rounded to the nearest integer, a tie to the even one. -/
def roundHalfEven (n d : Nat) : Nat :=
  let q := n / d
  let r := n % d
  if 2 * r < d then q else if 2 * r = d then q + q % 2 else q + 1

/-- The magnitude bits of `f32(r)` for `r` = (`n` / `d`) × 2^-149. The result has 24 significant bits at an exponent
that depends on the size of `r` (below 2^24 units every integer is a magnitude of its own), a carry out of the 24 bits
moves into the exponent field by itself, and at or beyond the midpoint above the largest finite value it is the
infinity. -/
def roundMag (n d : Nat) : Nat :=
  let sh := (n / d).log2 - 23
  min (sh * 2 ^ 23 + roundHalfEven n (d * 2 ^ sh)) infMag

/-! ### NaNs (spec/40_numerics.md R136) -/

/-- `NANGEN`: some quiet NaN, its sign bit and its other fraction bits free (log entry 5). -/
def nangen (op : FOp) (a b : Word) : Word := Config.nangenRaw op a b ||| 0x7FC00000

/-! ### The four operations (spec/40_numerics.md R133 to R135) -/

/-- `fadd(a, b)` (spec/40_numerics.md R133). -/
def fadd (a b : Word) : Word :=
  if isNaN a || isNaN b then nangen .add a b
  else if isInf a then
    if isInf b && fsign a != fsign b then nangen .add a b else a
  else if isInf b then b
  else if isZero a && isZero b then
    if fsign a == fsign b then a else 0
  else
    let t := fnum a + fnum b
    if t = 0 then 0 else fpack (decide (t < 0)) (roundMag t.natAbs 1)

/-- `fsub(a, b)` (spec/40_numerics.md R133): the sum with `neg(b)`, and a NaN when `b` is one. -/
def fsub (a b : Word) : Word :=
  if isNaN b then nangen .sub a b else fadd a (fneg b)

/-- `fmul(a, b)` (spec/40_numerics.md R134). -/
def fmul (a b : Word) : Word :=
  let s := fsign a != fsign b
  if isNaN a || isNaN b then nangen .mul a b
  else if (isZero a && isInf b) || (isInf a && isZero b) then nangen .mul a b
  else if isInf a || isInf b then fpack s infMag
  else if isZero a || isZero b then fpack s 0
  else fpack s (roundMag (funits a * funits b) (2 ^ 149))

/-- `fdiv(a, b)` (spec/40_numerics.md R135). -/
def fdiv (a b : Word) : Word :=
  let s := fsign a != fsign b
  if isNaN a || isNaN b then nangen .div a b
  else if (isZero a && isZero b) || (isInf a && isInf b) then nangen .div a b
  else if isInf a then fpack s infMag
  else if isZero b then fpack s infMag
  else if isZero a then fpack s 0
  else if isInf b then fpack s 0
  else fpack s (roundMag (funits a * 2 ^ 149) (funits b))

/-! ### A constant of the waveshaper (spec/40_numerics.md R141) -/

/-- `TWO_OVER_PI` = `f32(2/π)` (spec/40_numerics.md R141). -/
def twoOverPi : Word := 0x3F22F983

end Sys2Proof.Machine
end

