-- ==== Sys2Proof/Machine/Arctan.lean ====
section
/-! DEFINITION. `ATAN32` (spec/40_numerics.md R140): the arctangent the waveshaper uses, an open parameter with nine
named properties and nothing else known of it. The model's is made from a free member of `ArctanMag`, which holds every
admissible one and no other (log entry 6). -/

namespace Sys2Proof.Machine

/-! ### Magnitudes in units of 2^-149 -/

/-- The units of a magnitude, bits 30:0 of a pattern (spec/40_numerics.md R131). -/
def magUnits (m : Nat) : Nat := if m / 2 ^ 23 = 0 then m else (2 ^ 23 + m % 2 ^ 23) * 2 ^ (m / 2 ^ 23 - 1)

/-- One magnitude up is more units. -/
theorem magUnits_lt_succ (m : Nat) : magUnits m < magUnits (m + 1) := by
  unfold magUnits
  by_cases h : (m + 1) % 2 ^ 23 = 0
  · -- a carry into the exponent
    obtain ⟨q, hq⟩ : ∃ q, m + 1 = 2 ^ 23 * (q + 1) := ⟨(m + 1) / 2 ^ 23 - 1, by omega⟩
    have h1 : m / 2 ^ 23 = q := by omega
    have h2 : (m + 1) / 2 ^ 23 = q + 1 := by omega
    have h3 : m % 2 ^ 23 = 2 ^ 23 - 1 := by omega
    rw [h1, h2, h3, h]
    cases q with
    | zero => simp; omega
    | succ q =>
      simp only [Nat.add_sub_cancel, if_neg (Nat.succ_ne_zero _), Nat.pow_succ]
      have : 0 < 2 ^ q := Nat.two_pow_pos q
      omega
  · have h1 : (m + 1) / 2 ^ 23 = m / 2 ^ 23 := by omega
    have h2 : (m + 1) % 2 ^ 23 = m % 2 ^ 23 + 1 := by omega
    rw [h1, h2]
    split
    · omega
    · exact Nat.mul_lt_mul_of_pos_right (by omega) (Nat.two_pow_pos _)

theorem magUnits_strictMono : StrictMono magUnits := strictMono_nat_of_lt_succ magUnits_lt_succ

/-! ### The admissible arctangents -/

/-- What an admissible arctangent does to the magnitude of a finite argument: `atan_mono`, and `atan_faithful` as two
facts, no other magnitude lies between the result and the real arctangent, nor is the real arctangent another magnitude
(spec/40_numerics.md R140; the real numbers are in units of 2^-149). -/
structure ArctanMag where
  mag : Nat → Nat
  mono : ∀ m n, m ≤ n → n < infMag → mag m ≤ mag n
  faithful : ∀ m q, m < infMag → q < infMag →
    (mag m < q → Real.arctan ((magUnits m : ℝ) / 2 ^ 149) * 2 ^ 149 < magUnits q) ∧
    (q < mag m → (magUnits q : ℝ) < Real.arctan ((magUnits m : ℝ) / 2 ^ 149) * 2 ^ 149)

/-! ### One of them, only to show that there is one

The arctangent is the integral of 1 / (1 + t^2). Summing the integrand at every multiple of 2^-149 below the argument
gives it with an error below one unit. -/

/-- The integrand at `i` units. -/
def arctanTerm (i : Nat) : ℚ := 2 ^ 298 / (2 ^ 298 + (i : ℚ) ^ 2)

/-- The sum below `u` units, in units. -/
def arctanSum (u : Nat) : ℚ := ∑ i ∈ Finset.range u, arctanTerm i

/-- The whole part of the sum. -/
def arctanUnits (u : Nat) : Nat := ⌊arctanSum u⌋₊

/-- The arctangent between two arguments, by the integrand at either. -/
theorem arctan_sub_le {x y : ℝ} (hx : 0 ≤ x) (h : x ≤ y) :
    (y - x) / (1 + y ^ 2) ≤ Real.arctan y - Real.arctan x ∧ Real.arctan y - Real.arctan x ≤ (y - x) / (1 + x ^ 2) := by
  rcases eq_or_lt_of_le h with rfl | h
  · simp
  obtain ⟨c, ⟨hc1, hc2⟩, hc⟩ := exists_deriv_eq_slope Real.arctan h Real.continuous_arctan.continuousOn
    Real.differentiable_arctan.differentiableOn
  have hp : 0 < y - x := by linarith
  have e : Real.arctan y - Real.arctan x = (y - x) / (1 + c ^ 2) := by
    rw [Real.deriv_arctan] at hc
    field_simp at hc ⊢
    linarith
  rw [e]
  constructor <;> apply div_le_div_of_nonneg_left hp.le (by positivity) <;> nlinarith

theorem arctanSum_close (u : Nat) :
    Real.arctan ((u : ℝ) / 2 ^ 149) * 2 ^ 149 ≤ (arctanSum u : ℝ) ∧
      (arctanSum u : ℝ) ≤ Real.arctan ((u : ℝ) / 2 ^ 149) * 2 ^ 149 + (1 - (arctanTerm u : ℝ)) := by
  induction u with
  | zero => simp [arctanSum, arctanTerm]
  | succ u ih =>
    have hs : (arctanSum (u + 1) : ℝ) = arctanSum u + arctanTerm u := by
      simp [arctanSum, Finset.sum_range_succ]
    have ht (i : Nat) : (arctanTerm i : ℝ) = 1 / (1 + ((i : ℝ) / 2 ^ 149) ^ 2) := by
      simp only [arctanTerm]
      push_cast
      field_simp
    have h := arctan_sub_le (x := (u : ℝ) / 2 ^ 149) (y := ((u + 1 : Nat) : ℝ) / 2 ^ 149) (by positivity)
      (by push_cast; gcongr; linarith)
    have e : ((u + 1 : Nat) : ℝ) / 2 ^ 149 - (u : ℝ) / 2 ^ 149 = 1 / 2 ^ 149 := by push_cast; ring
    rw [e, div_right_comm, ← ht, div_right_comm, ← ht, div_le_iff₀ (by positivity), le_div_iff₀ (by positivity)] at h
    rw [hs]
    constructor <;> linarith

theorem arctanTerm_pos (i : Nat) : 0 < arctanTerm i := by unfold arctanTerm; positivity

theorem arctanUnits_close (u : Nat) :
    (arctanUnits u : ℝ) < Real.arctan ((u : ℝ) / 2 ^ 149) * 2 ^ 149 + 1 ∧
      Real.arctan ((u : ℝ) / 2 ^ 149) * 2 ^ 149 < arctanUnits u + 1 := by
  have h := arctanSum_close u
  have hp : (0 : ℝ) < arctanTerm u := by exact_mod_cast arctanTerm_pos u
  have h0 : 0 ≤ arctanSum u := Finset.sum_nonneg fun i _ => (arctanTerm_pos i).le
  have h1 : (arctanUnits u : ℝ) ≤ arctanSum u := by exact_mod_cast Nat.floor_le h0
  have h2 : (arctanSum u : ℝ) < arctanUnits u + 1 := by exact_mod_cast Nat.lt_floor_add_one (arctanSum u)
  constructor <;> linarith

theorem arctanUnits_mono {u v : Nat} (h : u ≤ v) : arctanUnits u ≤ arctanUnits v :=
  Nat.floor_le_floor
    (Finset.sum_le_sum_of_subset_of_nonneg (Finset.range_subset_range.mpr h) fun i _ _ => (arctanTerm_pos i).le)

/-- The greatest magnitude not above the sum is an admissible result. The model never uses it: it only makes the type
of `Config.arctan` a type with a member. -/
def referenceArctan : ArctanMag where
  mag m := Nat.findGreatest (fun q => magUnits q ≤ arctanUnits (magUnits m)) infMag
  mono m n h _ := Nat.findGreatest_mono_left
    (fun q hq => le_trans hq (arctanUnits_mono (magUnits_strictMono.monotone h))) infMag
  faithful m q _ hq := by
    have h := arctanUnits_close (magUnits m)
    constructor
    · intro hlt
      have h1 : arctanUnits (magUnits m) + 1 ≤ magUnits q := Nat.not_le.mp
        (Nat.findGreatest_is_greatest (P := fun q => magUnits q ≤ arctanUnits (magUnits m)) hlt hq.le)
      have h2 : ((arctanUnits (magUnits m) : ℝ) + 1) ≤ magUnits q := by exact_mod_cast h1
      linarith
    · intro hlt
      have h0 := Nat.findGreatest_spec (P := fun q => magUnits q ≤ arctanUnits (magUnits m)) (n := infMag) (Nat.zero_le _)
        (show magUnits 0 ≤ _ from Nat.zero_le _)
      have h1 : magUnits q + 1 ≤ arctanUnits (magUnits m) := lt_of_lt_of_le (magUnits_strictMono hlt) h0
      have h2 : (magUnits q : ℝ) + 1 ≤ arctanUnits (magUnits m) := by exact_mod_cast h1
      linarith

end Sys2Proof.Machine

namespace Sys2Proof

/-- The free part of `ATAN32`: some admissible arctangent, of which nothing else is known (spec/40_numerics.md R140;
log entry 6). -/
opaque Config.arctan : [Inhabited Machine.ArctanMag] → Machine.ArctanMag

end Sys2Proof

namespace Sys2Proof.Machine

/-! ### `ATAN32` -/

/-- An arctangent made from a function of magnitudes: a NaN gives a quiet NaN, a zero gives itself, an infinity
±`f32(π/2)` (0x3FC90FDB), and any other argument the function's magnitude with the argument's sign. -/
def atanOf (g : Nat → Nat) (a : Word) : Word :=
  if isNaN a then nangen .atan a 0
  else if isZero a then a
  else if isInf a then fpack (fsign a) 0x3FC90FDB
  else fpack (fsign a) (g (fmag a))

/-- `ATAN32` (spec/40_numerics.md R140). -/
def atan32 (a : Word) : Word := atanOf (@Config.arctan ⟨referenceArctan⟩).mag a

end Sys2Proof.Machine
end

