-- ==== Sys2Proof/Machine/Flags.lean ====
section
/-! DEFINITION. The flags and the system registers that show them (spec/10_state.md R27, R29 to R38): the effective
bypass, the `STATUS` word, the `BYPASS0` and `BYPASS1` views. The core has no arithmetic flags (R27). -/

namespace Sys2Proof.Machine

/-- A flag as a 32-bit word, 0 or 1. -/
def flagWord (b : Bool) : Word := if b then 1 else 0

/-- The bypass stage 8 applies, given the sample of `CABRDY`: `BYP[c][8]` OR NOT `CABRDY` (spec/42_stages.md R181). -/
def State.cabBypassed (s : State) (c : Chan) (rdy : Bool) : Bool := s.bypOf c .cab || !rdy

/-- The `STATUS` word: bit 0 `ERR`, bit 1 the sample of `CABRDY`, bits 7:4 `ECODE`, every other bit 0
(spec/10_state.md R32). -/
def State.statusWord (s : State) (rdy : Bool) : Word :=
  flagWord s.err + (flagWord rdy <<< 1) + ((s.ecode.setWidth 32) <<< 4)

/-- The `BYPASSc` word: bit `s` - 1 is `BYP[c][s]`, bits 31:9 are 0 (spec/10_state.md R38; spec/44_system.md R245). -/
def State.bypassWord (s : State) (c : Chan) : Word :=
  flagWord (s.bypOf c (.gain .input))
    + (flagWord (s.bypOf c (.filt .hp1)) <<< 1)
    + (flagWord (s.bypOf c .shaper) <<< 2)
    + (flagWord (s.bypOf c (.filt .hp2)) <<< 3)
    + (flagWord (s.bypOf c (.filt .shelf)) <<< 4)
    + (flagWord (s.bypOf c (.filt .tone)) <<< 5)
    + (flagWord (s.bypOf c (.gain .vol)) <<< 6)
    + (flagWord (s.bypOf c .cab) <<< 7)
    + (flagWord (s.bypOf c (.gain .out)) <<< 8)

/-- The `BLKMAX` register: the parameter, zero-extended to 32 bits (spec/10_state.md R37). -/
def blkmaxWord : Word := BitVec.ofNat 32 Config.blkmax

/-- The value of system register `r` and the state after the read; none for `r` ≥ 8 (spec/10_state.md R29;
spec/44_system.md R245). Only a read of `STATUS` samples `CABRDY` (R36). -/
def State.sysReg? (s : State) : Nat → Option (Word × State)
  | 0 => some (Config.idValue, s)
  | 1 =>
    let (rdy, s') := s.sampleCabrdy
    some (s'.statusWord rdy, s')
  | 2 => some (s.eword, s)
  | 3 => some (s.srate, s)
  | 4 => some (s.blksz, s)
  | 5 => some (blkmaxWord, s)
  | 6 => some (s.bypassWord .left, s)
  | 7 => some (s.bypassWord .right, s)
  | _ => none

end Sys2Proof.Machine
end

