-- ==== Sys2Proof/Machine/Stages.lean ====
section
/-! DEFINITION. What each stage computes (spec/42_stages.md): gain, filter cell, waveshaper and the cabinet port, and the
run of one stage over a block in place, by which `PROC` is made. -/

namespace Sys2Proof.Machine

/-! ### The stage functions, one sample at a time -/

/-- A gain stage: `y <- fmul(G, x)` (spec/42_stages.md R183). -/
def gainOut (g x : Word) : Word := fmul g x

/-- The sum of the seven products of the filter cell, in the order of spec/42_stages.md R186. -/
def cellAcc (k : Coeffs) (h : Hist) (x : Word) : Word :=
  let acc := fmul k.b0 x
  let acc := fadd acc (fmul k.b1 h.x1)
  let acc := fadd acc (fmul k.b2 h.x2)
  let acc := fadd acc (fmul k.b3 h.x3)
  let acc := fsub acc (fmul k.a1 h.y1)
  let acc := fsub acc (fmul k.a2 h.y2)
  fsub acc (fmul k.a3 h.y3)

/-- The filter cell's output, divided by A0 on every sample (spec/42_stages.md R186). -/
def cellOut (k : Coeffs) (h : Hist) (x : Word) : Word := fdiv (cellAcc k h x) k.a0

/-- The history after a sample: inputs and outputs shift (spec/42_stages.md R186). -/
def Hist.shift (h : Hist) (x y : Word) : Hist :=
  { x1 := x, x2 := h.x1, x3 := h.x2, y1 := y, y2 := h.y1, y3 := h.y2 }

/-- The waveshaper over a given arctangent: `u`, `a`, `p`, `y` in the order of spec/42_stages.md R190. -/
def shapeWith (atan : Word → Word) (drv x : Word) : Word :=
  let u := fmul drv x
  let a := atan u
  let p := fmul twoOverPi a
  fadd p x

/-- The waveshaper (spec/42_stages.md R190). -/
def shapeOut (drv x : Word) : Word := shapeWith atan32 drv x

/-- One sample through a stage that is not bypassed and is no cabinet: the output, and the state with the filter cell's
history advanced (spec/42_stages.md R183, R186, R190). The cabinet has no per-sample function (R196); `runStage` never
asks for one. -/
def State.stageSample (s : State) (c : Chan) (st : Stage) (x : Word) : Word × State :=
  match st with
  | .gain g => (gainOut (s.gainOf c g) x, s)
  | .filt f =>
    let y := cellOut (s.coefOf c f) (s.histOf c f) x
    (y, s.setHist c f ((s.histOf c f).shift x y))
  | .shaper => (shapeOut (s.driveOf c) x, s)
  | .cab => (x, s)

/-! ### One stage over a block (spec/43_process.md R213, R214) -/

/-- Sample `i` of the block through a stage, in place: read, compute, write (spec/43_process.md R213). -/
def State.sampleStep (s : State) (c : Chan) (st : Stage) (i : Nat) : State :=
  let (x, s1) := s.memRead c i
  let (y, s2) := s1.stageSample c st x
  s2.memWrite c i y

/-- Samples 0 to `n` - 1 through a stage, in index order (spec/43_process.md R213, R214). -/
def State.sampleLoop (s : State) (c : Chan) (st : Stage) : Nat → State
  | 0 => s
  | n + 1 => (s.sampleLoop c st n).sampleStep c st n

/-- The cabinet step: `CABRDY` sampled once, then an identity or one call with the whole block
(spec/42_stages.md R181, R199). -/
def State.cabStep (s : State) (c : Chan) (n : Nat) : State :=
  let (rdy, s1) := s.sampleCabrdy
  if s1.cabBypassed c rdy then s1
  else
    let (xs, s2) := s1.readFrom c 0 n
    let (ys, s3) := s2.cabProcess c xs
    s3.writeFrom c 0 ys

/-- One stage over the block: the cabinet step for stage 8, nothing for a bypassed stage, else every sample in turn
(spec/43_process.md R213; spec/42_stages.md R182). -/
def State.runStage (s : State) (c : Chan) (n : Nat) (st : Stage) : State :=
  match st with
  | .cab => s.cabStep c n
  | .gain g => if s.bypOf c (.gain g) then s else s.sampleLoop c (.gain g) n
  | .filt f => if s.bypOf c (.filt f) then s else s.sampleLoop c (.filt f) n
  | .shaper => if s.bypOf c .shaper then s else s.sampleLoop c .shaper n

/-- Stages of the chain in the given order over a block, stage by stage (spec/43_process.md R213, R214). -/
def State.runStages (s : State) (c : Chan) (n : Nat) : List Stage → State
  | [] => s
  | st :: sts => (s.runStage c n st).runStages c n sts

/-- The whole chain over words 0 to `n` - 1 of a channel; nothing at all for `n` = 0 (spec/43_process.md R213). -/
def State.runChain (s : State) (c : Chan) (n : Nat) : State :=
  if n = 0 then s else s.runStages c n chain

end Sys2Proof.Machine
end

