-- ==== Sys2Proof/Machine/Process.lean ====
section
/-! DEFINITION. The buffer and processing commands WRS, RDS, PROC (spec/43_process.md). -/

namespace Sys2Proof.Machine

/-- `WRS c, i : v` (spec/43_process.md R211). -/
def execWrs (c : Chan) (i : Nat) (v : Word) (s : State) : Host.Outcome State Fault Refusal :=
  if inBuffer i then .next (s.memWrite c i v) else .next (s.reject .range (.wrs c i v))

/-- `RDS c, i` (spec/43_process.md R212). -/
def execRds (c : Chan) (i : Nat) (s : State) : Host.Outcome State Fault Refusal :=
  if inBuffer i then
    let (v, s') := s.memRead c i
    .next (s'.emit v)
  else .next (s.reject .range (.rds c i))

/-- `PROC c, n` (spec/43_process.md R213). -/
def execProc (c : Chan) (n : Nat) (s : State) : Host.Outcome State Fault Refusal :=
  if countOk n s then .next (s.runChain c n) else .next (s.reject .range (.proc c n))

end Sys2Proof.Machine
end

