-- ==== Sys2Proof/Machine/System.lean ====
section
/-! DEFINITION. The system commands NOP, PREP, RSTA, RSTS, CLRE, RDR, RDP (spec/44_system.md). -/

namespace Sys2Proof.Machine

/-- `NOP`: only `cp` advances, which the fetch has done (spec/44_system.md R231). -/
def execNop (s : State) : Host.Outcome State Fault Refusal := .next s

/-- `PREP : sr, bs` (spec/44_system.md R232). -/
def execPrep (sr bs : Word) (s : State) : Host.Outcome State Fault Refusal :=
  if blockSizeOk bs then .next (({ s with srate := sr, blksz := bs }.clearHists).cabPrepare sr bs)
  else .next (s.reject .range (.prep sr bs))

/-- `RSTA` (spec/44_system.md R233). -/
def execRsta (s : State) : Host.Outcome State Fault Refusal := .next s.clearHists.cabResetBoth

/-- The signal history of one stage reset: nothing for a stage that has none (spec/44_system.md R234). -/
def State.resetStage (s : State) (st : Stage) : State :=
  match st with
  | .gain _ => s
  | .filt f => s.clearHistsOf f
  | .shaper => s
  | .cab => s.cabResetBoth

/-- `RSTS s` (spec/44_system.md R234). -/
def execRsts (n : Nat) (s : State) : Host.Outcome State Fault Refusal :=
  match stageOf? n with
  | some st => .next (s.resetStage st)
  | none => .next (s.reject .stage (.rsts n))

/-- `CLRE` (spec/44_system.md R235). -/
def execClre (s : State) : Host.Outcome State Fault Refusal := .next s.clearLatch

/-- `RDR r` (spec/44_system.md R245). -/
def execRdr (r : Nat) (s : State) : Host.Outcome State Fault Refusal :=
  match s.sysReg? r with
  | some (v, s') => .next (s'.emit v)
  | none => .next (s.reject .range (.rdr r))

/-- The words `RDP` emits for a stage, in order; none for the cabinet (spec/44_system.md R246). -/
def State.installed? (s : State) (c : Chan) (st : Stage) : Option (List Word) :=
  match st with
  | .gain g => some [s.gainOf c g]
  | .filt f => some (s.coefOf c f).words
  | .shaper => some [s.driveOf c]
  | .cab => none

/-- `RDP c, s` (spec/44_system.md R246). -/
def execRdp (c : Chan) (n : Nat) (s : State) : Host.Outcome State Fault Refusal :=
  match (stageOf? n).bind (s.installed? c) with
  | some vs => .next (s.emitAll vs)
  | none => .next (s.reject .stage (.rdp c n))

end Sys2Proof.Machine
end

