-- ==== Sys2Proof/Machine/Dispatch.lean ====
section
/-! DEFINITION. One arm per command, each one call of its meaning. -/

namespace Sys2Proof.Machine

def exec (i : Instr) (s : State) : Host.Outcome State Fault Refusal :=
  match i with
  | .nop => Sys2Proof.Machine.execNop s
  | .prep sr bs => Sys2Proof.Machine.execPrep sr bs s
  | .rsta => Sys2Proof.Machine.execRsta s
  | .rsts st => Sys2Proof.Machine.execRsts st s
  | .clre => Sys2Proof.Machine.execClre s
  | .ldg st g => Sys2Proof.Machine.execLdg st g s
  | .ldd st d => Sys2Proof.Machine.execLdd st d s
  | .ldc st k => Sys2Proof.Machine.execLdc st k s
  | .byp st v => Sys2Proof.Machine.execByp st v s
  | .wrs c n v => Sys2Proof.Machine.execWrs c n v s
  | .rds c n => Sys2Proof.Machine.execRds c n s
  | .proc c n => Sys2Proof.Machine.execProc c n s
  | .rdr r => Sys2Proof.Machine.execRdr r s
  | .rdp c st => Sys2Proof.Machine.execRdp c st s

end Sys2Proof.Machine
end

