-- ==== Sys2Proof/Machine/Step.lean ====
section
/-! DEFINITION. One step of the sequencer: the command at the front of the stream, whole (spec/30_encoding.md R100). -/

namespace Sys2Proof.Machine

/-- One step: fetch and decode the command at the front of the stream, consume all its words, then latch its decoding
error or run it. Where the stream ends inside a command, the words there are, are held and the sequencer waits
(spec/30_encoding.md R92, R93, R96, R100; log entry 2). -/
def step (s : State) : Host.Outcome State Fault Refusal :=
  match decode s.stream with
  | .incomplete => .next s.hold
  | .illegal e w len => .next ((s.consume len).raise e w)
  | .ok i len => exec i (s.consume len)

/-- `s` with the instruction whose bits are `w` (numbered as spec/opcode_table.json numbers them) placed at the front of
the command stream, as the host's delivery would (log entry 1): no word is held, and the instruction's words come
before the words that were there. -/
def State.withFetchWord (s : State) (nbits w : Nat) : State :=
  { s with held := [], input := firstCommand (tableWords nbits w) ++ s.input }

end Sys2Proof.Machine
end

