-- ==== Sys2Proof/Machine/Environment.lean ====
section
/-! DEFINITION. What the outside can do to the core between two steps: deliver command words, and the hardware reset
event (spec/30_encoding.md R90, R96; spec/70_reset_and_hazards.md R320). Neither is part of `step`. -/

namespace Sys2Proof.Machine

/-- The host appends words to the command stream (spec/30_encoding.md R90; log entry 1). -/
def State.deliver (s : State) (ws : List Word) : State := { s with input := s.input ++ ws }

/-- The hardware reset event: every piece of state at its reset value, the words held and the words not yet consumed
discarded (spec/70_reset_and_hazards.md R320). The model's counters of free draws and of `CABRDY` samples go on, so that
what is drawn after the event is not tied to what was drawn before (log entry 12). -/
def State.hardwareReset (s : State) : State :=
  { State.reset with draws := s.draws, rdySamples := s.rdySamples }

end Sys2Proof.Machine
end

