-- ==== Sys2Proof/Safety.lean ====
section
/-! DEFINITION. The terms claims about the core are stated in: what a good run is (spec/60_exceptions.md R299,
spec/70_reset_and_hazards.md R343), the invariant of the state, the named properties a claim may assume of the
arctangent and of the cabinet unit (spec/40_numerics.md R140, spec/42_stages.md R198), what the host owes
(spec/45_host_contract.md R270, R275), and reference forms of what a block's samples become. -/

namespace Sys2Proof.Machine

/-! ### Runs -/

/-- No malformed command has been latched (spec/60_exceptions.md R299). -/
def State.ErrFree (s : State) : Prop := s.err = false

/-- Every delivered word is consumed and the last command is complete (spec/70_reset_and_hazards.md R343). -/
def State.Finished (s : State) : Prop := s.input = [] ∧ s.held = []

/-- The delivered words end inside a command (spec/70_reset_and_hazards.md R343). -/
def State.Stuck (s : State) : Prop := s.input = [] ∧ s.held ≠ []

/-! ### The invariant of the state -/

/-- The two channels hold the same installed values (spec/10_state.md R43). -/
def State.CopiesAgree (s : State) : Prop :=
  s.gain.left = s.gain.right ∧ s.drive.left = s.drive.right ∧ s.coef.left = s.coef.right ∧ s.byp.left = s.byp.right

/-- `ECODE` and `EWORD` are 0 while `ERR` is 0, and `ECODE` is one of the four codes while it is 1
(spec/10_state.md R32, R33; spec/60_exceptions.md R291). -/
def State.LatchOk (s : State) : Prop :=
  (s.err = false → s.ecode = 0 ∧ s.eword = 0) ∧ (s.err = true → 1 ≤ s.ecode ∧ s.ecode ≤ 4)

/-- The block size is at most `BLKMAX` (spec/10_state.md R35). -/
def State.BlockSizeOk (s : State) : Prop := s.blksz.toNat ≤ Config.blkmax

/-- The words held are the beginning of a command that is not complete, and `cp` has counted them
(spec/30_encoding.md R96). -/
def State.HeldOk (s : State) : Prop := decode s.held = .incomplete ∧ s.held.length ≤ s.cp

/-- Every written byte is one of the four bytes of a written word `BUF[c][i]` with `i` < `BLKMAX`
(spec/20_memory.md R60, R61, R69, R70). -/
def Memory.WordsOnly (m : Memory) : Prop :=
  ∀ a, (m.byte a).isSome →
    ∃ c i, i < Config.blkmax ∧ wordAddr c i ≤ a ∧ a < wordAddr c i + 4 ∧ (m.word c i).isSome

/-- The invariant every step keeps. -/
structure State.Inv (s : State) : Prop where
  memCanonical : s.mem.wf
  memWords : s.mem.WordsOnly
  copies : s.CopiesAgree
  latch : s.LatchOk
  blockSize : s.BlockSizeOk
  held : s.HeldOk

/-! ### Premises about data -/

/-- Every coefficient is finite and A0 is not zero (spec/42_stages.md R188; spec/45_host_contract.md R275). -/
def ProperCoeffs (k : Coeffs) : Prop := (∀ w ∈ k.words, isFinite w = true) ∧ isZero k.a0 = false

/-- The six words of a history, `X1`, `X2`, `X3`, `Y1`, `Y2`, `Y3`. -/
def Hist.words (h : Hist) : List Word := [h.x1, h.x2, h.x3, h.y1, h.y2, h.y3]

/-- Words 0 to `n` - 1 of the channel's buffer have been written and hold `xs 0`, ..., `xs (n-1)`
(spec/45_host_contract.md R270). -/
def State.Block (s : State) (c : Chan) (n : Nat) (xs : Nat → Word) : Prop := ∀ i, i < n → s.mem.word c i = some (xs i)

/-! ### The named properties of the arctangent (spec/40_numerics.md R140) -/

/-- `atan_nan`, `atan_zero`, `atan_odd`, `atan_inf`, `atan_bound`, `atan_sign` (`atan_det` holds of any function).
`ATAN32` has these, `AtanMono` and `AtanFaithful` by its construction (Machine/Arctan.lean). -/
structure AtanShape (f : Word → Word) : Prop where
  atan_nan : ∀ a, isNaN a = true → isQuietNaN (f a) = true
  atan_zero : f 0 = 0 ∧ f 0x80000000 = 0x80000000
  atan_odd : ∀ a, isNaN a = false → f (fneg a) = fneg (f a)
  atan_inf : f 0x7F800000 = 0x3FC90FDB ∧ f 0xFF800000 = 0xBFC90FDB
  atan_bound : ∀ a, isNaN a = false → isFinite (f a) = true ∧ funits (f a) ≤ funits 0x3FC90FDB
  atan_sign : ∀ a, isNaN a = false → fsign (f a) = fsign a

/-- `atan_mono`: patterns are compared as numbers; an infinity stands above (below) every finite value. -/
def AtanMono (f : Word → Word) : Prop :=
  ∀ a b, isNaN a = false → isNaN b = false → fnum a ≤ fnum b → fnum (f a) ≤ fnum (f b)

/-- `atan_faithful`: for a finite argument no binary32 value lies strictly between the result and the real arctangent,
nor is the real arctangent another binary32 value. All in units of 2^-149. -/
def AtanFaithful (f : Word → Word) : Prop :=
  ∀ a, isFinite a = true → ∀ w, isFinite w = true →
    ¬(fnum (f a) < fnum w ∧ (fnum w : ℝ) ≤ Real.arctan ((fnum a : ℝ) / 2 ^ 149) * 2 ^ 149) ∧
    ¬(Real.arctan ((fnum a : ℝ) / 2 ^ 149) * 2 ^ 149 ≤ (fnum w : ℝ) ∧ fnum w < fnum (f a))

/-! ### The named assumptions about the cabinet unit (spec/42_stages.md R198) -/

/-- A call that concerns channel `c`: `cabPrepare` concerns both. -/
def CabCall.concerns (c : Chan) : CabCall → Bool
  | .prepare _ _ => true
  | .reset d => d == c
  | .process d _ => d == c

/-- `cab_chan`: what the unit returns for a channel does not depend on calls for the other one. -/
def CabChan (out : List CabCall → Chan → List Word → Nat → Word) : Prop :=
  ∀ h c xs i, out h c xs i = out (h.filter (CabCall.concerns c)) c xs i

/-- The blocks handed over for channel `c` since the last `cabPrepare` or `cabReset` of that channel, or `cabInit`, of
a list of calls with the LATEST call first. -/
def blocksSinceReset (c : Chan) : List CabCall → List (List Word)
  | [] => []
  | .prepare _ _ :: _ => []
  | .reset d :: h => if d = c then [] else blocksSinceReset c h
  | .process d xs :: h => if d = c then xs :: blocksSinceReset c h else blocksSinceReset c h

/-- `cab_silent`: zeros come out while only zeros have gone in. -/
def CabSilent (out : List CabCall → Chan → List Word → Nat → Word) : Prop :=
  ∀ h c xs i, (∀ b ∈ xs :: blocksSinceReset c h.reverse, ∀ w ∈ b, isZero w = true) → i < xs.length →
    isZero (out h c xs i) = true

/-- `cab_linear`, for the impulse response `g`: `exact` is what the unit would return in exact arithmetic, as multiples
of 2^-149, and it is the convolution of `g` with the channel's input sequence, which starts at `cabInit` or at the last
`cabPrepare` or `cabReset` of the channel. (How far the words returned are from it, the spec leaves open.) -/
def CabLinear (g : Nat → ℝ) (exact : List CabCall → Chan → List Word → Nat → ℝ) : Prop :=
  ∀ h c xs i, i < xs.length →
    (∀ b ∈ xs :: blocksSinceReset c h.reverse, ∀ w ∈ b, isFinite w = true) →
    let past := (blocksSinceReset c h.reverse).reverse.flatten
    exact h c xs i =
      ∑ k ∈ Finset.range (past.length + i + 1), g k * (fnum ((past ++ xs).getD (past.length + i - k) 0) : ℝ)

/-- `cab_once`, for `ir h` the impulse response loaded after the calls `h`, none before a load: only a `cabPrepare` loads
one, and once it is loaded no call loads another. -/
def CabOnce (ir : List CabCall → Option (Nat → ℝ)) : Prop :=
  (∀ h call, ir h = none → ir (h ++ [call]) ≠ none → ∃ sr bs, call = .prepare sr bs) ∧
  (∀ h call g, ir h = some g → ir (h ++ [call]) = some g)

/-- A unit that gives the same words whether a block is handed over whole or in two pieces: the property
spec/43_process.md R216 asks of `cabProcess` where stage 8 runs. -/
def CabSplits (out : List CabCall → Chan → List Word → Nat → Word) : Prop :=
  ∀ h c xs ys i, out h c (xs ++ ys) i =
    if i < xs.length then out h c xs i else out (h ++ [.process c xs]) c ys (i - xs.length)

/-! ### What a command raises -/

/-- The cause a command raises when it is executed, none where it raises nothing (spec/60_exceptions.md R291, the
rows of `E_STAGE` and `E_RANGE`). -/
def State.causeOf (s : State) : Instr → Option Cause
  | .nop => none
  | .prep _ bs => if bs.toNat = 0 ∨ Config.blkmax < bs.toNat then some .range else none
  | .rsta => none
  | .rsts st => if st = 0 ∨ 10 ≤ st then some .stage else none
  | .clre => none
  | .ldg st _ => if st = 1 ∨ st = 7 ∨ st = 9 then none else some .stage
  | .ldd st _ => if st = 3 then none else some .stage
  | .ldc st _ => if st = 2 ∨ st = 4 ∨ st = 5 ∨ st = 6 then none else some .stage
  | .byp st _ => if st = 0 ∨ 10 ≤ st then some .stage else none
  | .wrs _ i _ => if Config.blkmax ≤ i then some .range else none
  | .rds _ i => if Config.blkmax ≤ i then some .range else none
  | .proc _ n => if s.blksz.toNat < n then some .range else none
  | .rdr r => if 8 ≤ r then some .range else none
  | .rdp _ st => if st = 0 ∨ st = 8 ∨ 10 ≤ st then some .stage else none

/-! ### Rounding -/

/-- `w` is the binary32 word nearest to the real of magnitude (`n` / `d`) × 2^-149, but for its sign: a nearest finite
one, the even one of two that are equally near, and an infinity from the midpoint above the largest finite value on
(spec/40_numerics.md R132). -/
def NearestEven (w : Word) (n d : Nat) : Prop :=
  let far := fun v : Word => ((funits v * d : Nat) - (n : Nat) : Int).natAbs
  ((2 ^ 128 - 2 ^ 103) * 2 ^ 149 * d ≤ n → isInf w = true) ∧
  (n < (2 ^ 128 - 2 ^ 103) * 2 ^ 149 * d → isFinite w = true ∧
    ∀ v, isFinite v = true → fmag v ≠ fmag w → far w < far v ∨ (far w = far v ∧ fmag w % 2 = 0))

/-! ### Reference forms -/

/-- A filter cell over a list of samples: the outputs in order, and the final history (spec/42_stages.md R186). -/
def cellRun (k : Coeffs) (h : Hist) : List Word → List Word × Hist
  | [] => ([], h)
  | x :: xs =>
    let y := cellOut k h x
    let (ys, h') := cellRun k (h.shift x y) xs
    (y :: ys, h')

/-- What one stage other than a running cabinet makes of a block: nothing for a bypassed stage, else the stage function
over the samples in order (spec/42_stages.md R182, R183, R186, R190). -/
def State.stageBlock (s : State) (c : Chan) (xs : List Word) (st : Stage) : List Word :=
  if s.bypOf c st then xs
  else
    match st with
    | .gain g => xs.map fun x => fmul (s.gainOf c g) x
    | .filt f => (cellRun (s.coefOf c f) (s.histOf c f) xs).1
    | .shaper => xs.map fun x => shapeOut (s.driveOf c) x
    | .cab => xs

/-- What the first `k` stages of the chain make of a block (spec/43_process.md R213, R214). -/
def State.blockAfter (s : State) (c : Chan) (k : Nat) (xs : List Word) : List Word :=
  (chain.take k).foldl (s.stageBlock c) xs

/-- How many stages of the chain come before a filter stage (spec/10_state.md R21). -/
def stagesBefore : FiltStage → Nat
  | .hp1 => 1
  | .hp2 => 3
  | .shelf => 4
  | .tone => 5

/-- One sample through the stages of a list that are neither bypassed nor the cabinet, in order, in place. -/
def State.sampleThrough (s : State) (c : Chan) (i : Nat) : List Stage → State
  | [] => s
  | st :: sts =>
    if st = .cab ∨ s.bypOf c st = true then s.sampleThrough c i sts
    else (s.sampleStep c st i).sampleThrough c i sts

/-- The chain in the other nesting: sample by sample, each one through all the stages (spec/42_stages.md R201). -/
def State.sampleMajor (s : State) (c : Chan) : Nat → State
  | 0 => s
  | n + 1 => (s.sampleMajor c n).sampleThrough c n chain

end Sys2Proof.Machine
end

