-- ==== Sys2Proof/Certificates/Slice0/Obligations.lean ====
section
/-! DEFINITION. The statements for the provers. Each docstring names the rule of spec/ it rests on, and says where a
clause is the model's own choice (with its log entry). -/

open Sys2Proof Sys2Proof.Machine

/-! ### Encoding and decoding -/

/-- spec/30_encoding.md R97, R100: every instruction a head word can hold is what its own words decode to, whatever
follows them in the stream. -/
def Obligations.EncodedInstructionDecodes : Prop :=
  ∀ (i : Instr) (rest : List Word), i.wf = true → decode (encode i ++ rest) = .ok i (encode i).length

/-- spec/30_encoding.md R91, R95, R97: what decodes as an instruction is exactly that instruction's words. -/
def Obligations.DecodedWordsAreTheEncoding : Prop :=
  ∀ (ws : List Word) (i : Instr) (len : Nat), decode ws = .ok i len →
    i.wf = true ∧ len = (encode i).length ∧ ws.take len = encode i

/-- spec/30_encoding.md R97, R105: some words written out in the spec decode to the commands it says they are. -/
def Obligations.WordsOfTheSpecDecode : Prop :=
  decode [0x01000000, 0x473B8000, 0x00000040] = .ok (.prep 0x473B8000 64) 3 ∧
  decode [0x03600000] = .ok (.rsts 6) 1 ∧
  decode [0x12600000, 0x3F800000, 0, 0, 0, 0x3F800000, 0xBF000000, 0, 0] =
    .ok (.ldc 6 ⟨0x3F800000, 0, 0, 0, 0x3F800000, 0xBF000000, 0, 0⟩) 9 ∧
  decode [0x13500000] = .ok (.byp 5 false) 1 ∧
  decode [0x20000003, 0x3E800000] = .ok (.wrs .left 3 0x3E800000) 2 ∧
  decode [0x22010040] = .ok (.proc .right 64) 1 ∧
  decode [0x30000001] = .ok (.rdr 1) 1 ∧
  decode [0x31610000] = .ok (.rdp .right 6) 1

/-- spec/30_encoding.md R102: an unassigned opcode raises `E_OPCODE` (code 1), consumes one word and has no other
effect; 0xFFFFFFFF is illegal, 0x00000000 is `NOP`. -/
def Obligations.UnassignedOpcodeLatched : Prop :=
  (∀ (s : State) (w : Word) (rest : List Word), s.held = [] → s.input = w :: rest →
    (∀ op : Op, op.code ≠ w.extractLsb' 24 8) →
    step s = .next (if s.err then { s with input := rest, cp := s.cp + 1 }
      else { s with input := rest, cp := s.cp + 1, err := true, ecode := 1, eword := w })) ∧
  (∀ op : Op, op.code ≠ (0xFFFFFFFF : Word).extractLsb' 24 8) ∧
  decode [0x00000000] = .ok .nop 1

/-- spec/30_encoding.md R101: an assigned opcode with a bit of its format's `MBZ` mask set raises `E_RSVD` (code 2),
is discarded after its operand words are consumed, and has no other effect. -/
def Obligations.ReservedBitsLatched : Prop :=
  ∀ (s : State) (op : Op) (w : Word) (rest : List Word), s.held = [] → s.input = w :: rest →
    w.extractLsb' 24 8 = op.code → op.length ≤ rest.length + 1 → w &&& op.format.mbz ≠ 0 →
    step s = .next (if s.err then { s with input := rest.drop (op.length - 1), cp := s.cp + op.length }
      else { s with input := rest.drop (op.length - 1), cp := s.cp + op.length, err := true, ecode := 2, eword := w })

/-- spec/30_encoding.md R96: a stream that pauses inside a command: the words are held and counted, nothing else
changes, and the run is stuck (spec/70_reset_and_hazards.md R343); a further step without new words changes nothing at
all (that the wait is a step that answers the same state is the model's reading, log entry 2). -/
def Obligations.IncompleteCommandIsHeld : Prop :=
  ∀ (s : State) (op : Op) (w : Word) (rest : List Word), s.held = [] → s.input = w :: rest →
    w.extractLsb' 24 8 = op.code → rest.length + 1 < op.length →
    ∃ t, step s = .next t ∧ t = { s with held := w :: rest, input := [], cp := s.cp + (rest.length + 1) } ∧
      t.Stuck ∧ step t = .next t

/-- spec/30_encoding.md R96: after a pause the next words complete the command as if they had come at once. (That the
wait is a step that answers a next state is the model's reading, log entry 2, and `State.deliver` stands for the host's
delivery of words, log entry 1.) -/
def Obligations.PausedCommandResumes : Prop :=
  ∀ (s : State) (ws : List Word), decode s.stream = .incomplete →
    ∃ t, step s = .next t ∧ step (t.deliver ws) = step (s.deliver ws)

/-- spec/30_encoding.md R100, R92: a step runs the instruction at the front of the stream, after all its words are
consumed; words of it already held are not counted again. -/
def Obligations.StepRunsTheDecodedInstruction : Prop :=
  ∀ (s : State) (i : Instr) (rest : List Word), i.wf = true → s.stream = encode i ++ rest →
    step s = exec i { s with held := [], input := rest, cp := s.cp + ((encode i).length - s.held.length) }

/-- spec/30_encoding.md R93: the length of a command is a function of its opcode byte only (3 for 0x01, 2 for 0x10,
0x11, 0x20, 9 for 0x12, 1 for every other value), and exactly that many words are consumed, whether or not the command
raises an error. -/
def Obligations.StepConsumesTheOpcodesLength : Prop :=
  ∀ (s t : State) (w : Word) (rest : List Word), decode s.held = .incomplete → s.stream = w :: rest →
    decode s.stream ≠ .incomplete → step s = .next t →
    ∃ len, len = (if w.extractLsb' 24 8 = 0x01 then 3
        else if w.extractLsb' 24 8 ∈ [(0x10 : BitVec 8), 0x11, 0x20] then 2
        else if w.extractLsb' 24 8 = 0x12 then 9 else 1) ∧
      t.cp + s.held.length = s.cp + len ∧ t.held = [] ∧ t.input = s.stream.drop len

/-! ### The error latch -/

/-- spec/60_exceptions.md R293: raising an error sets the latch only if it is clear and changes nothing else; no command
but `CLRE` clears or overwrites it. -/
def Obligations.FirstErrorWinsAndSticks : Prop :=
  (∀ (s : State) (e : Cause) (w : Word), s.err = false →
    s.raise e w = { s with
      err := true
      ecode := (match e with | .opcode => 1 | .rsvd => 2 | .stage => 3 | .range => 4)
      eword := w }) ∧
  (∀ (s : State) (e : Cause) (w : Word), s.err = true → s.raise e w = s) ∧
  (∀ s t : State, s.err = true → step s = .next t → (∀ len, decode s.stream ≠ .ok .clre len) →
    t.err = true ∧ t.ecode = s.ecode ∧ t.eword = s.eword)

/-- spec/60_exceptions.md R291, R293: `EWORD` records the head word of the command that erred, as it stood in the
stream. -/
def Obligations.LatchRecordsTheHeadWord : Prop :=
  ∀ (s t : State) (w : Word) (rest : List Word), s.err = false → s.stream = w :: rest → step s = .next t →
    t.err = true → t.eword = w

/-- spec/60_exceptions.md R291, R294: a stage number the command cannot use raises `E_STAGE` (code 3), with no other
effect. (`EWORD` is given here as the head word the instruction encodes, log entry 11; `LatchRecordsTheHeadWord` says
that it is the word of the stream.) -/
def Obligations.StageErrorsOnlyLatch : Prop :=
  ∀ (s : State) (st : Nat),
    let bad := fun (i : Instr) =>
      exec i s = .next (if s.err then s else { s with err := true, ecode := 3, eword := i.head })
    (∀ g, st ∉ [1, 7, 9] → bad (.ldg st g)) ∧
    (∀ d, st ≠ 3 → bad (.ldd st d)) ∧
    (∀ k, st ∉ [2, 4, 5, 6] → bad (.ldc st k)) ∧
    (∀ v, (st = 0 ∨ 10 ≤ st) → bad (.byp st v)) ∧
    ((st = 0 ∨ 10 ≤ st) → bad (.rsts st)) ∧
    (∀ c, (st = 0 ∨ st = 8 ∨ 10 ≤ st) → bad (.rdp c st))

/-- spec/60_exceptions.md R291, R294: an index, count, size or register number out of range raises `E_RANGE` (code 4),
with no other effect. (`EWORD` as in `StageErrorsOnlyLatch`.) -/
def Obligations.RangeErrorsOnlyLatch : Prop :=
  ∀ s : State,
    let bad := fun (i : Instr) =>
      exec i s = .next (if s.err then s else { s with err := true, ecode := 4, eword := i.head })
    (∀ c i v, Config.blkmax ≤ i → bad (.wrs c i v)) ∧
    (∀ c i, Config.blkmax ≤ i → bad (.rds c i)) ∧
    (∀ c n, s.blksz.toNat < n → bad (.proc c n)) ∧
    (∀ sr bs : Word, (bs = 0 ∨ Config.blkmax < bs.toNat) → bad (.prep sr bs)) ∧
    (∀ r, 8 ≤ r → bad (.rdr r))

/-- spec/44_system.md R235: `CLRE` completes in every state, clears the latch and changes nothing else. -/
def Obligations.ClreClearsTheLatch : Prop :=
  ∀ s : State, exec .clre s = .next { s with err := false, ecode := 0, eword := 0 }

/-! ### System commands -/

/-- spec/44_system.md R231: `NOP` completes in every state; only `cp` advances (and its word is consumed). -/
def Obligations.NopOnlyAdvancesCp : Prop :=
  (∀ s : State, exec .nop s = .next s) ∧
  (∀ (s : State) (rest : List Word), s.held = [] → s.input = 0 :: rest →
    step s = .next { s with input := rest, cp := s.cp + 1 })

/-- spec/44_system.md R232: `PREP` with 1 ≤ `bs` ≤ `BLKMAX` completes: `SRATE`, `BLKSZ`, every history to +0.0, and one
call to the cabinet unit (that `CABST` is the list of calls is the model's, log entry 8); nothing else changes. -/
def Obligations.PrepStartsASession : Prop :=
  ∀ (sr bs : Word) (s : State), 1 ≤ bs.toNat → bs.toNat ≤ Config.blkmax →
    ∃ t, exec (.prep sr bs) s = .next t ∧ t.srate = sr ∧ t.blksz = bs ∧
      (∀ c f, ∀ w ∈ (t.histOf c f).words, w = 0) ∧ t.cabst = s.cabst ++ [.prepare sr bs] ∧
      t = { s with srate := t.srate, blksz := t.blksz, hist := t.hist, cabst := t.cabst }

/-- spec/44_system.md R233: `RSTA` completes in every state: every history to +0.0, `cabReset` of channel 0, then of
channel 1 (as calls, log entry 8); nothing else changes. -/
def Obligations.RstaClearsAllHistory : Prop :=
  ∀ s : State, ∃ t, exec .rsta s = .next t ∧ (∀ c f, ∀ w ∈ (t.histOf c f).words, w = 0) ∧
    t.cabst = s.cabst ++ [.reset .left, .reset .right] ∧ t = { s with hist := t.hist, cabst := t.cabst }

/-- spec/44_system.md R234: `RSTS` completes for every stage 1 to 9: a filter stage's histories of both channels to
+0.0; `cabReset` of both channels for stage 8 (as calls, log entry 8); nothing for the others. -/
def Obligations.RstsResetsOneStage : Prop :=
  ∀ s : State,
    (∀ (st : Nat) (f : FiltStage), (st, f) ∈ [(2, .hp1), (4, .hp2), (5, .shelf), (6, .tone)] →
      ∃ t, exec (.rsts st) s = .next t ∧ (∀ c, ∀ w ∈ (t.histOf c f).words, w = 0) ∧
        (∀ c f', f' ≠ f → t.histOf c f' = s.histOf c f') ∧ t = { s with hist := t.hist }) ∧
    exec (.rsts 8) s = .next { s with cabst := s.cabst ++ [.reset .left, .reset .right] } ∧
    (∀ st, st ∈ [1, 3, 7, 9] → exec (.rsts st) s = .next s)

/-- spec/44_system.md R245: `RDR r` with `r` < 8 completes and emits the register; nothing else changes (but the
model's counter of `CABRDY` samples, log entry 7). The words of registers 1, 6 and 7 are the subject of
`StatusWordFields` and `BypassWordFlags`. -/
def Obligations.RdrEmitsTheRegister : Prop :=
  ∀ s : State,
    exec (.rdr 0) s = .next { s with responses := s.responses ++ [0x53435031] } ∧
    exec (.rdr 1) s = .next { s with
      responses := s.responses ++ [s.statusWord (Config.cabrdy s.rdySamples)]
      rdySamples := s.rdySamples + 1 } ∧
    exec (.rdr 2) s = .next { s with responses := s.responses ++ [s.eword] } ∧
    exec (.rdr 3) s = .next { s with responses := s.responses ++ [s.srate] } ∧
    exec (.rdr 4) s = .next { s with responses := s.responses ++ [s.blksz] } ∧
    exec (.rdr 5) s = .next { s with responses := s.responses ++ [BitVec.ofNat 32 Config.blkmax] } ∧
    exec (.rdr 6) s = .next { s with responses := s.responses ++ [s.bypassWord .left] } ∧
    exec (.rdr 7) s = .next { s with responses := s.responses ++ [s.bypassWord .right] }

/-- spec/10_state.md R32: the fields of `STATUS`, every unnamed bit 0. -/
def Obligations.StatusWordFields : Prop :=
  ∀ (s : State) (rdy : Bool),
    (s.statusWord rdy).getLsbD 0 = s.err ∧ (s.statusWord rdy).getLsbD 1 = rdy ∧
    (s.statusWord rdy).extractLsb' 2 2 = 0 ∧ (s.statusWord rdy).extractLsb' 4 4 = s.ecode ∧
    (s.statusWord rdy).extractLsb' 8 24 = 0

/-- spec/10_state.md R38: bit `st` - 1 of `BYPASSc` is the flag of stage `st`, bits 31:9 are 0. -/
def Obligations.BypassWordFlags : Prop :=
  ∀ (s : State) (c : Chan),
    (∀ (n : Nat) (st : Stage), stageOf? n = some st → (s.bypassWord c).getLsbD (n - 1) = s.bypOf c st) ∧
    (s.bypassWord c).extractLsb' 9 23 = 0

/-- spec/44_system.md R246: `RDP` completes for every stage but the cabinet and emits the installed words bit for bit;
nothing else changes. -/
def Obligations.RdpEmitsInstalledWords : Prop :=
  ∀ (s : State) (c : Chan),
    (∀ (st : Nat) (g : GainStage), (st, g) ∈ [(1, .input), (7, .vol), (9, .out)] →
      exec (.rdp c st) s = .next { s with responses := s.responses ++ [s.gainOf c g] }) ∧
    exec (.rdp c 3) s = .next { s with responses := s.responses ++ [s.driveOf c] } ∧
    (∀ (st : Nat) (f : FiltStage), (st, f) ∈ [(2, .hp1), (4, .hp2), (5, .shelf), (6, .tone)] →
      exec (.rdp c st) s = .next { s with responses := s.responses ++
        [(s.coefOf c f).b0, (s.coefOf c f).b1, (s.coefOf c f).b2, (s.coefOf c f).b3,
         (s.coefOf c f).a0, (s.coefOf c f).a1, (s.coefOf c f).a2, (s.coefOf c f).a3] })

/-! ### Install commands -/

/-- spec/41_install.md R161, R165: `LDG` completes for stages 1, 7, 9: the gain of both channels takes the operand,
nothing else changes. -/
def Obligations.LdgInstallsTheGain : Prop :=
  ∀ (s : State) (st : Nat) (g : GainStage) (v : Word), (st, g) ∈ [(1, .input), (7, .vol), (9, .out)] →
    ∃ t, exec (.ldg st v) s = .next t ∧ (∀ c, t.gainOf c g = v) ∧
      (∀ c g', g' ≠ g → t.gainOf c g' = s.gainOf c g') ∧ t = { s with gain := t.gain }

/-- spec/41_install.md R162, R165: `LDD 3` completes: the drive of both channels takes the operand, nothing else
changes. -/
def Obligations.LddInstallsTheDrive : Prop :=
  ∀ (s : State) (d : Word), exec (.ldd 3 d) s = .next { s with drive := { left := d, right := d } }

/-- spec/41_install.md R163, R165: `LDC` completes for stages 2, 4, 5, 6: all eight coefficients of both channels are
replaced, the history and everything else is kept. -/
def Obligations.LdcInstallsTheTuple : Prop :=
  ∀ (s : State) (st : Nat) (f : FiltStage) (k : Coeffs), (st, f) ∈ [(2, .hp1), (4, .hp2), (5, .shelf), (6, .tone)] →
    ∃ t, exec (.ldc st k) s = .next t ∧ (∀ c, t.coefOf c f = k) ∧
      (∀ c f', f' ≠ f → t.coefOf c f' = s.coefOf c f') ∧ t = { s with coef := t.coef }

/-- spec/41_install.md R164, R165: `BYP` completes for stages 1 to 9: the flag of both channels takes the operand,
nothing else changes. -/
def Obligations.BypSetsTheFlag : Prop :=
  ∀ (s : State) (n : Nat) (st : Stage) (v : Bool),
    (n, st) ∈ [(1, .gain .input), (2, .filt .hp1), (3, .shaper), (4, .filt .hp2), (5, .filt .shelf),
      (6, .filt .tone), (7, .gain .vol), (8, .cab), (9, .gain .out)] →
    ∃ t, exec (.byp n v) s = .next t ∧ (∀ c, t.bypOf c st = v) ∧
      (∀ c st', st' ≠ st → t.bypOf c st' = s.bypOf c st') ∧ t = { s with byp := t.byp }

/-! ### Buffers -/

/-- spec/43_process.md R211: `WRS` with `i` < `BLKMAX` completes: the word is written, every byte outside its four is
unchanged, and nothing else changes. -/
def Obligations.WrsStoresTheSample : Prop :=
  ∀ (s : State) (c : Chan) (i : Nat) (v : Word), i < Config.blkmax →
    ∃ t, exec (.wrs c i v) s = .next t ∧ t.mem.word c i = some v ∧
      (∀ a, (a < wordAddr c i ∨ wordAddr c i + 4 ≤ a) → t.mem.byte a = s.mem.byte a) ∧ t = { s with mem := t.mem }

/-- spec/43_process.md R212, spec/20_memory.md R66: `RDS` with `i` < `BLKMAX` completes: a written word is emitted as
it is, with no other effect; a word never written gives a free value (the model's form of it, log entry 4). -/
def Obligations.RdsEmitsTheSample : Prop :=
  ∀ (s : State) (c : Chan) (i : Nat), i < Config.blkmax →
    (∀ v, s.mem.word c i = some v → exec (.rds c i) s = .next { s with responses := s.responses ++ [v] }) ∧
    (s.mem.word c i = none → exec (.rds c i) s = .next { s with
      responses := s.responses ++ [Config.freeWord s.draws], draws := s.draws + 1 })

/-- spec/20_memory.md R65: `MemWrite(c, i, v)` makes `BUF[c][i]` = `v`; it changes no other word and no other
state. -/
def Obligations.MemWriteChangesOneWord : Prop :=
  ∀ (s : State) (c : Chan) (i : Nat) (v : Word), i < Config.blkmax →
    (s.memWrite c i v).mem.word c i = some v ∧
    (∀ d j, j < Config.blkmax → (d, j) ≠ (c, i) → (s.memWrite c i v).mem.word d j = s.mem.word d j) ∧
    s.memWrite c i v = { s with mem := (s.memWrite c i v).mem }

/-! ### PROC: frame and result -/

/-- spec/43_process.md R213, R215, spec/20_memory.md R78: `PROC` with `n` ≤ `BLKSZ` completes. It changes only words 0
to n-1 of its channel, the histories of its channel's running filters, the cabinet unit's state when stage 8 is not
bypassed, and the model's two counters (log entries 4, 7); `PROC c, 0` changes nothing. -/
def Obligations.ProcCompletesWithFrame : Prop :=
  ∀ (s : State) (c d : Chan) (n : Nat), n ≤ s.blksz.toNat → d ≠ c →
    ∃ t, exec (.proc c n) s = .next t ∧ (n = 0 → t = s) ∧
      (∀ a, (a < wordAddr c 0 ∨ wordAddr c n ≤ a) → t.mem.byte a = s.mem.byte a) ∧
      (∀ f, t.histOf d f = s.histOf d f) ∧
      (∀ f, s.bypOf c (.filt f) = true → t.histOf c f = s.histOf c f) ∧
      (s.bypOf c .cab = true → t.cabst = s.cabst) ∧
      t = { s with mem := t.mem, hist := t.hist, cabst := t.cabst, draws := t.draws, rdySamples := t.rdySamples }

/-- spec/43_process.md R213, R214, spec/42_stages.md R181, R182, R183, R186, R190, R199, spec/10_state.md R21: over
written words `PROC` leaves in the buffer what the nine stages make of the block one after the other: each running
filter over its whole input from its old history, the cabinet in one call with the whole block unless it is bypassed or
not ready, and leaves each running filter with the history of that run. The order of the stages and the filter cell's
formula are written out: the seven products, added and subtracted in their order, one division by A0, and the shift of
the history. (What the unit returns is a free value and its state a list of calls, log entry 8; that one sample of
`CABRDY` is taken and no free word drawn is said of the model's counters, log entries 7 and 4.) -/
def Obligations.ProcAppliesTheChain : Prop :=
  (∀ (s : State) (c : Chan) (xs : List Word), 0 < xs.length → xs.length ≤ s.blksz.toNat →
    s.Block c xs.length (fun i => xs.getD i 0) →
    let off := s.cabBypassed c (Config.cabrdy s.rdySamples)
    let before := s.blockAfter c 7 xs
    let after := if off then before else (List.range xs.length).map (Config.cabWord s.cabst c before)
    ∃ t, exec (.proc c xs.length) s = .next t ∧
      t.Block c xs.length (fun i => (s.stageBlock c after (.gain .out)).getD i 0) ∧
      (∀ f, s.bypOf c (.filt f) = false →
        t.histOf c f = (cellRun (s.coefOf c f) (s.histOf c f) (s.blockAfter c (stagesBefore f) xs)).2) ∧
      t.cabst = (if off then s.cabst else s.cabst ++ [.process c before]) ∧
      t.rdySamples = s.rdySamples + 1 ∧ t.draws = s.draws) ∧
  chain = [.gain .input, .filt .hp1, .shaper, .filt .hp2, .filt .shelf, .filt .tone, .gain .vol, .cab, .gain .out] ∧
  (∀ (k : Coeffs) (h : Hist) (x : Word), cellOut k h x =
    fdiv (fsub (fsub (fsub (fadd (fadd (fadd (fmul k.b0 x) (fmul k.b1 h.x1)) (fmul k.b2 h.x2)) (fmul k.b3 h.x3))
      (fmul k.a1 h.y1)) (fmul k.a2 h.y2)) (fmul k.a3 h.y3)) k.a0) ∧
  (∀ (h : Hist) (x y : Word),
    h.shift x y = { x1 := x, x2 := h.x1, x3 := h.x2, y1 := y, y2 := h.y1, y3 := h.y2 })

/-- spec/42_stages.md R182: an effectively bypassed stage leaves the state as it is; for the cabinet only the model's
counter of `CABRDY` samples moves (log entry 7), no call is made. -/
def Obligations.BypassedStageIsIdentity : Prop :=
  ∀ (s : State) (c : Chan) (n : Nat),
    (∀ st, st ≠ .cab → s.bypOf c st = true → s.runStage c n st = s) ∧
    ((s.bypOf c .cab = true ∨ Config.cabrdy s.rdySamples = false) →
      s.runStage c n .cab = { s with rdySamples := s.rdySamples + 1 })

/-- spec/42_stages.md R183, R190: a gain stage or the waveshaper that is not bypassed maps every written word of the
block by its sample function and changes nothing else. -/
def Obligations.StatelessStagesMapTheBlock : Prop :=
  ∀ (s : State) (c : Chan) (n : Nat) (xs : Nat → Word), s.Block c n xs →
    (∀ g, s.bypOf c (.gain g) = false →
      ∃ t, s.runStage c n (.gain g) = t ∧ t.Block c n (fun i => fmul (s.gainOf c g) (xs i)) ∧
        (∀ a, (a < wordAddr c 0 ∨ wordAddr c n ≤ a) → t.mem.byte a = s.mem.byte a) ∧ t = { s with mem := t.mem }) ∧
    (s.bypOf c .shaper = false →
      ∃ t, s.runStage c n .shaper = t ∧ t.Block c n (fun i => shapeOut (s.driveOf c) (xs i)) ∧
        (∀ a, (a < wordAddr c 0 ∨ wordAddr c n ≤ a) → t.mem.byte a = s.mem.byte a) ∧ t = { s with mem := t.mem })

/-! ### PROC: independence, nesting, splitting -/

/-- spec/10_state.md R20, spec/43_process.md R217: what `PROC` leaves in its channel's block and histories depends only
on that channel's registers, flags, histories, block and `CABRDY` sample, and, where the cabinet runs, on the calls that
concern the channel (cab_chan, spec/42_stages.md R198, a premise about the unit; the list of calls is the model's, log
entry 8). -/
def Obligations.ProcSeesOnlyItsChannel : Prop :=
  ∀ (s s' : State) (c : Chan) (n : Nat) (xs : Nat → Word), n ≤ s.blksz.toNat → n ≤ s'.blksz.toNat →
    s.Block c n xs → s'.Block c n xs →
    s.cabBypassed c (Config.cabrdy s.rdySamples) = s'.cabBypassed c (Config.cabrdy s'.rdySamples) →
    (s.cabBypassed c (Config.cabrdy s.rdySamples) = true ∨
      (CabChan Config.cabWord ∧ s.cabst.filter (CabCall.concerns c) = s'.cabst.filter (CabCall.concerns c))) →
    s.gain.get c = s'.gain.get c → s.drive.get c = s'.drive.get c → s.coef.get c = s'.coef.get c →
    s.byp.get c = s'.byp.get c → s.hist.get c = s'.hist.get c →
    ∃ t t' ys, exec (.proc c n) s = .next t ∧ exec (.proc c n) s' = .next t' ∧
      t.Block c n ys ∧ t'.Block c n ys ∧ t.hist.get c = t'.hist.get c

/-- spec/43_process.md R217: over written words, `PROC` of one channel and `PROC` of the other leave the same state in
either order, given cab_chan (where both cabinets run) and the same `CABRDY` sample for each channel in both orders;
where both cabinets run, the unit's two calls come in the order of the commands, and the calls that concern a channel are
the same (the list of calls is the model's, log entry 8). And equal blocks and equal histories in the two channels, with
the cabinet effectively bypassed, end bit-identical. -/
def Obligations.ChannelsCommute : Prop :=
  (∀ (s : State) (n m : Nat) (xs ys : Nat → Word), s.Inv → n ≤ s.blksz.toNat → m ≤ s.blksz.toNat →
    s.Block .left n xs → s.Block .right m ys →
    let off := fun c => s.cabBypassed c (Config.cabrdy s.rdySamples)
    (∀ c, off c = s.cabBypassed c (Config.cabrdy (s.rdySamples + 1))) →
    (off .left = true ∨ off .right = true ∨ CabChan Config.cabWord) →
    ∃ t t' u u', exec (.proc .left n) s = .next t ∧ exec (.proc .right m) t = .next u ∧
      exec (.proc .right m) s = .next t' ∧ exec (.proc .left n) t' = .next u' ∧
      u' = { u with cabst := u'.cabst } ∧
      (∀ c, u'.cabst.filter (CabCall.concerns c) = u.cabst.filter (CabCall.concerns c)) ∧
      (off .left = true ∨ off .right = true → u' = u)) ∧
  (∀ (s : State) (n : Nat) (xs : Nat → Word), s.Inv → n ≤ s.blksz.toNat → s.Block .left n xs → s.Block .right n xs →
    s.hist.left = s.hist.right →
    s.cabBypassed .left (Config.cabrdy s.rdySamples) = true →
    s.cabBypassed .right (Config.cabrdy (s.rdySamples + 1)) = true →
    ∃ t u zs, exec (.proc .left n) s = .next t ∧ exec (.proc .right n) t = .next u ∧
      u.Block .left n zs ∧ u.Block .right n zs ∧ u.hist.left = u.hist.right)

/-- spec/42_stages.md R201: over written words, with the cabinet effectively bypassed, running the chain stage by stage
over the block leaves the same state as running each sample through all the stages. (The counter `rdySamples` is the
model's own, log entry 7; `PROC c, 0` is in `ProcCompletesWithFrame`.) -/
def Obligations.NestingIsUnobservable : Prop :=
  ∀ (s : State) (c : Chan) (n : Nat) (xs : Nat → Word), s.mem.wf → 0 < n → n ≤ s.blksz.toNat →
    s.Block c n xs → s.cabBypassed c (Config.cabrdy s.rdySamples) = true →
    exec (.proc c n) s = .next { s.sampleMajor c n with rdySamples := s.rdySamples + 1 }

/-- spec/43_process.md R216: splitting a block does not change the result. After `PROC c, k` on the first `k` samples,
`PROC c, m` on the next `m` samples (moved to the front of the buffer) gives the samples and the histories that
`PROC c, k+m` gives, with the cabinet effectively bypassed in all of them, or running in all of them with a unit that
has the same property (CabSplits, a premise about the unit). -/
def Obligations.SplittingABlockChangesNothing : Prop :=
  ∀ (s s2 : State) (c : Chan) (k m : Nat) (xs : Nat → Word), k + m ≤ s.blksz.toNat → m ≤ s2.blksz.toNat →
    s.Block c (k + m) xs →
    let off := s.cabBypassed c (Config.cabrdy s.rdySamples)
    (off = true ∨ CabSplits Config.cabWord) →
    ∃ t t1, exec (.proc c (k + m)) s = .next t ∧ exec (.proc c k) s = .next t1 ∧
      (s2.Block c m (fun i => xs (k + i)) → s2.gain = s.gain → s2.drive = s.drive → s2.coef = s.coef →
        s2.byp = s.byp → s2.hist = t1.hist → s2.cabBypassed c (Config.cabrdy s2.rdySamples) = off →
        (off = true ∨ s2.cabst = t1.cabst) →
        ∃ t2 ys, exec (.proc c m) s2 = .next t2 ∧ t.Block c (k + m) ys ∧ t1.Block c k ys ∧
          t2.Block c m (fun i => ys (k + i)) ∧ t2.hist = t.hist)

/-! ### PROC: what it does to audio -/

/-- spec/43_process.md R219: silence in, silence out, from histories of zeros; a cabinet that runs must be silent on
silence, and have heard nothing else since its reset (cab_silent, spec/42_stages.md R198, a premise about the unit). -/
def Obligations.SilentBlockStaysSilent : Prop :=
  ∀ (s : State) (c : Chan) (n : Nat) (xs : Nat → Word), n ≤ s.blksz.toNat → s.Block c n xs →
    (∀ i, i < n → isZero (xs i) = true) →
    (s.cabBypassed c (Config.cabrdy s.rdySamples) = true ∨
      (CabSilent Config.cabWord ∧ ∀ b ∈ blocksSinceReset c s.cabst.reverse, ∀ w ∈ b, isZero w = true)) →
    (∀ f, s.bypOf c (.filt f) = false →
      ProperCoeffs (s.coefOf c f) ∧ ∀ w ∈ (s.histOf c f).words, isZero w = true) →
    (∀ g, s.bypOf c (.gain g) = false → isFinite (s.gainOf c g) = true) →
    (s.bypOf c .shaper = false → isFinite (s.driveOf c) = true) →
    ∃ t ys, exec (.proc c n) s = .next t ∧ t.Block c n ys ∧ (∀ i, i < n → isZero (ys i) = true) ∧
      (∀ f, s.bypOf c (.filt f) = false → ∀ w ∈ (t.histOf c f).words, isZero w = true)

/-- spec/70_reset_and_hazards.md R322: with the installed values and flags of reset and finite histories, a finite
sample passes through unchanged as long as every sample before it was finite, but that a zero may change its sign; a
sample that is not finite becomes a NaN. From histories of +0.0 words the first samples that are zeros of either sign
come out as +0 (the histories of a cell reach three samples back). -/
def Obligations.ResetConfigurationPassesThrough : Prop :=
  ∀ (s : State) (c : Chan) (n : Nat) (xs : Nat → Word), n ≤ s.blksz.toNat → s.Block c n xs →
    s.gain = State.reset.gain → s.drive = State.reset.drive → s.coef = State.reset.coef → s.byp = State.reset.byp →
    (∀ f, ∀ w ∈ (s.histOf c f).words, isFinite w = true) →
    ∃ t ys, exec (.proc c n) s = .next t ∧ t.Block c n ys ∧
      ∀ i, i < n →
        ((∀ j, j ≤ i → isFinite (xs j) = true) →
          (isZero (xs i) = false → ys i = xs i) ∧ (isZero (xs i) = true → isZero (ys i) = true) ∧
          ((∀ f, s.histOf c f = resetHist) → i ≤ 2 → isZero (xs i) = true → ys i = 0)) ∧
        (isFinite (xs i) = false → isNaN (ys i) = true)

/-- spec/70_reset_and_hazards.md R337: a NaN as the last output of a filter cell keeps every later output a NaN, and an
infinity there keeps every later output non-finite, whatever the coefficients and the samples; so does a NaN or an
infinity that comes in as a sample or stands anywhere in the history (for malformed coefficients the model follows the
cell's rule, log entry 10). -/
def Obligations.NaNStaysInTheCell : Prop :=
  (∀ (k : Coeffs) (h : Hist) (xs : List Word), isNaN h.y1 = true →
    (∀ w ∈ (cellRun k h xs).1, isNaN w = true) ∧ isNaN (cellRun k h xs).2.y1 = true) ∧
  (∀ (k : Coeffs) (h : Hist) (xs : List Word), isFinite h.y1 = false →
    (∀ w ∈ (cellRun k h xs).1, isFinite w = false) ∧ isFinite (cellRun k h xs).2.y1 = false) ∧
  (∀ (k : Coeffs) (h : Hist) (x : Word) (xs : List Word),
    (isFinite x = false ∨ ∃ v ∈ h.words, isFinite v = false) →
    (∀ w ∈ (cellRun k h (x :: xs)).1, isFinite w = false) ∧ isFinite (cellRun k h (x :: xs)).2.y1 = false)

/-- spec/42_stages.md R188: a cell whose A0 is a zero gives no finite output, zero input included (the cell's rule to the
letter, one of the two treatments the spec allows, log entry 10). -/
def Obligations.ZeroA0GivesNoFiniteOutput : Prop :=
  ∀ (k : Coeffs) (h : Hist) (xs : List Word), isZero k.a0 = true → ∀ w ∈ (cellRun k h xs).1, isFinite w = false

/-! ### Numerics -/

/-- spec/40_numerics.md R132 to R135: rounding gives a nearest binary32 magnitude, the one with the even pattern when two
are equally near, and infinity from the midpoint above the largest finite value on (the real is (`n` / `d`) × 2^-149);
and the four operations on finite operands give the word so nearest to the exact result, with the exact result's sign,
a sum that is exactly zero giving +0 but where both terms are -0. -/
def Obligations.RoundingIsToNearestEven : Prop :=
  (∀ n d : Nat, 0 < d →
    let far := fun q : Nat => ((funits (fpack false q) * d : Nat) - (n : Nat) : Int).natAbs
    ((2 ^ 128 - 2 ^ 103) * 2 ^ 149 * d ≤ n → roundMag n d = infMag) ∧
    (n < (2 ^ 128 - 2 ^ 103) * 2 ^ 149 * d →
      roundMag n d < infMag ∧
      ∀ q, q < infMag → q ≠ roundMag n d →
        far (roundMag n d) < far q ∨ (far (roundMag n d) = far q ∧ roundMag n d % 2 = 0))) ∧
  (∀ a b : Word, isFinite a = true → isFinite b = true →
    (fnum a + fnum b ≠ 0 → fsign (fadd a b) = decide (fnum a + fnum b < 0) ∧
      NearestEven (fadd a b) (fnum a + fnum b).natAbs 1) ∧
    (fnum a + fnum b = 0 → fadd a b = if a = 0x80000000 ∧ b = 0x80000000 then 0x80000000 else 0) ∧
    (fnum a - fnum b ≠ 0 → fsign (fsub a b) = decide (fnum a - fnum b < 0) ∧
      NearestEven (fsub a b) (fnum a - fnum b).natAbs 1) ∧
    (fnum a - fnum b = 0 → fsub a b = if a = 0x80000000 ∧ b = 0 then 0x80000000 else 0) ∧
    (fsign (fmul a b) = (fsign a != fsign b) ∧ NearestEven (fmul a b) (funits a * funits b) (2 ^ 149)) ∧
    (isZero b = false →
      fsign (fdiv a b) = (fsign a != fsign b) ∧ NearestEven (fdiv a b) (funits a * 2 ^ 149) (funits b)))

/-- spec/40_numerics.md R144: the exact identities of multiplying and dividing by 1.0 and adding and subtracting
zeros. -/
def Obligations.ExactIdentities : Prop :=
  (∀ x : Word, isNaN x = false →
    fmul 0x3F800000 x = x ∧ fdiv x 0x3F800000 = x ∧
    fadd x 0 = (if x = 0x80000000 then 0 else x) ∧ fadd x 0x80000000 = x ∧
    fsub x 0 = x ∧ fsub x 0x80000000 = (if x = 0x80000000 then 0 else x)) ∧
  (∀ x : Word, isFinite x = true →
    fmul 0 x = (if fsign x then 0x80000000 else 0) ∧ fmul 0x80000000 x = (if fsign x then 0 else 0x80000000)) ∧
  (∀ x : Word, isInf x = true → isNaN (fmul 0 x) = true ∧ isNaN (fmul 0x80000000 x) = true)

/-- spec/40_numerics.md R133 to R136: the cases of the four operations whose operands are not both finite, and division
by zero: a NaN operand gives a quiet NaN, and so do inf - inf, 0 × inf, 0 / 0 and inf / inf; every other such case gives
the infinity or the zero of the rule's table. -/
def Obligations.NaNOperandsGiveQuietNaNs : Prop :=
  ∀ a b : Word,
    let signed := fun m : Word => if fsign a = fsign b then m else fneg m
    (isNaN a = true ∨ isNaN b = true →
      isQuietNaN (fadd a b) = true ∧ isQuietNaN (fsub a b) = true ∧ isQuietNaN (fmul a b) = true ∧
      isQuietNaN (fdiv a b) = true) ∧
    (isInf a = true → isInf b = true →
      (if fsign a = fsign b then fadd a b = a ∧ isQuietNaN (fsub a b) = true
       else isQuietNaN (fadd a b) = true ∧ fsub a b = a) ∧
      fmul a b = signed 0x7F800000 ∧ isQuietNaN (fdiv a b) = true) ∧
    (isInf a = true → isFinite b = true →
      fadd a b = a ∧ fadd b a = a ∧ fsub a b = a ∧ fsub b a = fneg a ∧
      (if isZero b then isQuietNaN (fmul a b) = true ∧ isQuietNaN (fmul b a) = true
       else fmul a b = signed 0x7F800000 ∧ fmul b a = signed 0x7F800000) ∧
      fdiv a b = signed 0x7F800000 ∧ fdiv b a = signed 0) ∧
    (isFinite a = true → isZero b = true →
      if isZero a then isQuietNaN (fdiv a b) = true else fdiv a b = signed 0x7F800000)

/-- spec/40_numerics.md R140: the model's `ATAN32` has all nine named properties (atan_det, because it is a function),
and no admissible arctangent is lost: every function of that shape is `atanOf` of its magnitudes but for which NaN it
gives a NaN, and it is monotone and faithful exactly where those magnitudes are a member of `ArctanMag`, of which the
model takes a free one (log entry 6). -/
def Obligations.ModelArctangentHasItsShape : Prop :=
  (AtanShape atan32 ∧ AtanMono atan32 ∧ AtanFaithful atan32) ∧
  ∀ f : Word → Word, AtanShape f →
    ∃ g : Nat → Nat, (∀ a, isNaN a = false → atanOf g a = f a) ∧
      (AtanMono f ∧ AtanFaithful f ↔ ∃ A : ArctanMag, A.mag = g)

/-- spec/40_numerics.md R140: all nine properties can be met together. -/
def Obligations.AdmissibleArctangentExists : Prop :=
  ∃ f : Word → Word, AtanShape f ∧ AtanMono f ∧ AtanFaithful f

/-! ### The waveshaper -/

/-- spec/42_stages.md R191 (a), (b): with drive +0.0 a finite sample passes bit for bit and an infinite one becomes a
NaN; with a finite drive of sign bit 0 a zero keeps its sign. -/
def Obligations.ShaperIdentityAndSilence : Prop :=
  (∀ x : Word, (isFinite x = true → shapeOut 0 x = x) ∧ (isInf x = true → isNaN (shapeOut 0 x) = true)) ∧
  (∀ d : Word, isFinite d = true → fsign d = false → shapeOut d 0 = 0 ∧ shapeOut d 0x80000000 = 0x80000000)

/-- spec/42_stages.md R191 (c), R190: the waveshaper adds one term to the sample, and that term is at most 1.0 in
magnitude. -/
def Obligations.ShaperAddsAtMostOne : Prop :=
  ∀ d x : Word, isNaN d = false → isNaN x = false → isNaN (fmul d x) = false →
    shapeOut d x = fadd (fmul 0x3F22F983 (atan32 (fmul d x))) x ∧
    isFinite (fmul twoOverPi (atan32 (fmul d x))) = true ∧
    funits (fmul twoOverPi (atan32 (fmul d x))) ≤ funits 0x3F800000

/-- spec/42_stages.md R191 (d): odd symmetry, bit for bit, for a drive with sign bit 0. -/
def Obligations.ShaperIsOdd : Prop :=
  ∀ d x : Word, isNaN d = false → fsign d = false → isNaN x = false → isNaN (shapeOut d x) = false →
    shapeOut d (fneg x) = fneg (shapeOut d x)

/-- spec/42_stages.md R191 (e): for a positive finite sample the waveshaper's output grows with the drive, and for a
negative one it falls. The same holds of the formula over any arctangent with atan_mono (spec/40_numerics.md R140). -/
def Obligations.ShaperIsMonotoneInDrive : Prop :=
  (∀ x d e : Word, isFinite x = true → isFinite d = true → isFinite e = true → 0 ≤ fnum d → fnum d ≤ fnum e →
    (0 < fnum x → fnum (shapeOut d x) ≤ fnum (shapeOut e x)) ∧
    (fnum x < 0 → fnum (shapeOut e x) ≤ fnum (shapeOut d x))) ∧
  (∀ (f : Word → Word) (x d e : Word), AtanShape f → AtanMono f → isFinite x = true → 0 < fnum x →
    isFinite d = true → isFinite e = true → 0 ≤ fnum d → fnum d ≤ fnum e →
    fnum (shapeWith f d x) ≤ fnum (shapeWith f e x))

/-- spec/42_stages.md R191 (f): where |`DRV`·`x`| is much less than 1 the output is (1 + (2/π)·`DRV`)·`x`, here: for a
product of at most 2^-12, up to a relative error of 2^-21 and two units of 2^-149; and as the drive tends to 0 the output
tends to `x`, here: from a drive of 2^-26 down it is `x` bit for bit. (The two bounds and the two errors are this
statement's, the rule says `much less` and `tends to`.) -/
def Obligations.ShaperSmallSignal : Prop :=
  ∀ d x : Word, isFinite d = true → fsign d = false → isFinite x = true →
    (funits (fmul d x) ≤ 2 ^ 137 →
      let ideal : ℝ := (1 + 2 / Real.pi * ((fnum d : ℝ) / 2 ^ 149)) * fnum x
      |(fnum (shapeOut d x) : ℝ) - ideal| ≤ |ideal| / 2 ^ 21 + 2) ∧
    (fmag d ≤ 0x32800000 → shapeOut d x = x)

/-- spec/42_stages.md R192: the corner cases of the waveshaper: NaNs, infinite samples, infinite drives, and a product
of finite operands that overflows. -/
def Obligations.ShaperCornerCases : Prop :=
  ∀ d x : Word,
    ((isNaN d = true ∨ isNaN x = true) → isNaN (shapeOut d x) = true) ∧
    (isInf x = true → isNaN d = false → 0 < fnum d → shapeOut d x = x) ∧
    (isInf x = true → isZero d = true → isNaN (shapeOut d x) = true) ∧
    (isInf d = true → isFinite x = true → isZero x = false →
      shapeOut d x = fadd (if fsign d = fsign x then 0x3F800000 else 0xBF800000) x) ∧
    (isInf d = true → isZero x = true → isNaN (shapeOut d x) = true) ∧
    (isFinite d = true → isFinite x = true → isInf (fmul d x) = true →
      shapeOut d x = fadd (if fsign d = fsign x then 0x3F800000 else 0xBF800000) x)

/-! ### The whole machine -/

/-- spec/60_exceptions.md R299, R290: the machine is total, every step has a next state (that waiting for words is a step
too is the model's reading, log entry 2). -/
def Obligations.StepNeverStops : Prop := ∀ s : State, ∃ t, step s = .next t

/-- spec/10_state.md R43, R32, R33, R35, spec/20_memory.md R60, R70, spec/30_encoding.md R96: every step keeps the
invariant (the memory's canonical form and its being made of four-byte cells are the model's, log entry 3). -/
def Obligations.StepKeepsTheInvariant : Prop := ∀ s t : State, s.Inv → step s = .next t → t.Inv

/-- spec/10_state.md R42, spec/70_reset_and_hazards.md R320: the reset state meets the invariant, so does the state after
the hardware reset event (log entry 12) from any state, and a delivery of words (log entry 1) keeps it. -/
def Obligations.ResetMeetsTheInvariant : Prop :=
  State.reset.Inv ∧ (∀ s : State, s.hardwareReset.Inv) ∧ (∀ (s : State) (ws : List Word), s.Inv → (s.deliver ws).Inv)

/-- spec/10_state.md R43: the two channels' installed values are equal after reset, every step keeps them equal, and
what the outside can do between two steps keeps them equal (a delivery of words, as the model has it in log entry 1, a
hardware reset, as the model has it in log entry 12). -/
def Obligations.ChannelCopiesStayEqual : Prop :=
  State.reset.CopiesAgree ∧ (∀ s t : State, s.CopiesAgree → step s = .next t → t.CopiesAgree) ∧
  (∀ (s : State) (ws : List Word), s.CopiesAgree → (s.deliver ws).CopiesAgree) ∧
  (∀ s : State, s.hardwareReset.CopiesAgree)

/-- spec/10_state.md R42, spec/70_reset_and_hazards.md R320, R321: the reset values the spec gives; nothing runs until a
word comes. (That `cabInit` is an empty list of calls and that waiting is a step are the model's, log entries 8
and 2.) The
hardware reset event leaves these values from any state, and the words held and not yet consumed are gone; only the
model's own two counters go on (log entry 12). -/
def Obligations.ResetValues : Prop :=
  (∀ c g, State.reset.gainOf c g = 0x3F800000) ∧ (∀ c, State.reset.driveOf c = 0) ∧
  (∀ c f, State.reset.coefOf c f = ⟨0x3F800000, 0, 0, 0, 0x3F800000, 0, 0, 0⟩) ∧
  (∀ c f, ∀ w ∈ (State.reset.histOf c f).words, w = 0) ∧
  (∀ c st, State.reset.bypOf c st = true ↔ (st = .filt .shelf ∨ st = .cab)) ∧
  (∀ c i, State.reset.mem.word c i = none) ∧
  State.reset.srate = 0 ∧ State.reset.blksz = 0 ∧ State.reset.err = false ∧ State.reset.ecode = 0 ∧
  State.reset.eword = 0 ∧ State.reset.cp = 0 ∧ State.reset.responses = [] ∧ State.reset.held = [] ∧
  State.reset.cabst = [] ∧ State.reset.input = [] ∧ step State.reset = .next State.reset ∧
  (∀ s : State, s.hardwareReset = { State.reset with draws := s.draws, rdySamples := s.rdySamples })

/-- spec/70_reset_and_hazards.md R343, spec/30_encoding.md R92, R93, R101, R102: a stream of whole commands, legal or
not, each one as long as its opcode says, runs to its end in as many steps as there are commands, every word consumed and
counted once. -/
def Obligations.WholeCommandsRunToTheEnd : Prop :=
  ∀ (cmds : List (List Word)) (s : State),
    (∀ ws ∈ cmds, ∃ w rest, ws = w :: rest ∧
      ws.length = (if w.extractLsb' 24 8 = 0x01 then 3
        else if w.extractLsb' 24 8 ∈ [(0x10 : BitVec 8), 0x11, 0x20] then 2
        else if w.extractLsb' 24 8 = 0x12 then 9 else 1)) →
    s.held = [] → s.input = cmds.flatten →
    ∃ t, Sys2Proof.core.run cmds.length s = .next t ∧ t.Finished ∧ t.cp = s.cp + s.input.length

/-- spec/10_state.md R44 (the writes of the access matrix, with its last sentence on errors): which commands can change
which state; a command that raises an error writes the latch alone, and only where it was clear; a command that raises
nothing and is no `CLRE` keeps the latch; no command changes the stream or `cp` beyond the fetch. (The samples of
`CABRDY` and the free words drawn are the model's counters, log entries 7 and 4.) -/
def Obligations.AccessMatrixHolds : Prop :=
  ∀ (i : Instr) (s t : State), exec i s = .next t →
    (t.gain = s.gain ∨ i.op = .ldg) ∧ (t.drive = s.drive ∨ i.op = .ldd) ∧ (t.coef = s.coef ∨ i.op = .ldc) ∧
    (t.hist = s.hist ∨ i.op ∈ [.prep, .rsta, .rsts, .proc]) ∧ (t.byp = s.byp ∨ i.op = .byp) ∧
    (t.mem = s.mem ∨ i.op ∈ [.wrs, .proc]) ∧ (t.srate = s.srate ∨ i.op = .prep) ∧
    (t.blksz = s.blksz ∨ i.op = .prep) ∧ (t.cabst = s.cabst ∨ i.op ∈ [.prep, .rsta, .rsts, .proc]) ∧
    (t.responses = s.responses ∨ i.op ∈ [.rds, .rdr, .rdp]) ∧
    (∀ e, s.causeOf i = some e →
      t = if s.err then s else { s with err := true, ecode := Cause.code e, eword := i.head }) ∧
    (s.causeOf i = none → i.op ≠ .clre → t.err = s.err ∧ t.ecode = s.ecode ∧ t.eword = s.eword) ∧
    (t.rdySamples = s.rdySamples ∨ i.op ∈ [.proc, .rdr]) ∧ (t.draws = s.draws ∨ i.op ∈ [.rds, .proc]) ∧
    t.cp = s.cp ∧ t.held = s.held ∧ t.input = s.input

/-- spec/30_encoding.md R94, spec/60_exceptions.md R294: a step only appends to the response stream, at most eight
words; a step that latches an error appends none. -/
def Obligations.ResponsesAreOnlyAppended : Prop :=
  ∀ s t : State, step s = .next t → ∃ ws, t.responses = s.responses ++ ws ∧ ws.length ≤ 8 ∧
    (s.err = false → t.err = true → ws = [])
end

