-- ==== Sys2Proof/Laws/State.lean ====
section
/-! SUPPORT. The small lemmas of the state: what each update does to each field, by `rfl`, so that no later proof
unfolds a record update; and the accessors of the per-channel and per-stage copies. -/

namespace Sys2Proof.Machine

/-! ### Per-channel and per-stage copies -/

@[simp] theorem PerChan.get_both {α : Type} (v : α) (c : Chan) : (PerChan.both v).get c = v := by cases c <;> rfl

@[simp] theorem PerChan.get_map {α : Type} (p : PerChan α) (f : α → α) (c : Chan) : (p.map f).get c = f (p.get c) := by
  cases c <;> rfl

@[simp] theorem PerChan.get_set_same {α : Type} (p : PerChan α) (c : Chan) (v : α) : (p.set c v).get c = v := by
  cases c <;> rfl

theorem PerChan.get_set_other {α : Type} (p : PerChan α) {c d : Chan} (v : α) (h : d ≠ c) :
    (p.set c v).get d = p.get d := by
  cases c <;> cases d <;> first | rfl | exact absurd rfl h

theorem PerChan.ext_get {α : Type} {p q : PerChan α} (h : ∀ c, p.get c = q.get c) : p = q := by
  cases p; cases q
  have hl := h .left
  have hr := h .right
  simp only [PerChan.get] at hl hr
  rw [hl, hr]

@[simp] theorem PerGain.get_set_same {α : Type} (p : PerGain α) (g : GainStage) (v : α) : (p.set g v).get g = v := by
  cases g <;> rfl

theorem PerGain.get_set_other {α : Type} (p : PerGain α) {g g' : GainStage} (v : α) (h : g' ≠ g) :
    (p.set g v).get g' = p.get g' := by
  cases g <;> cases g' <;> first | rfl | exact absurd rfl h

@[simp] theorem PerFilt.get_set_same {α : Type} (p : PerFilt α) (f : FiltStage) (v : α) : (p.set f v).get f = v := by
  cases f <;> rfl

theorem PerFilt.get_set_other {α : Type} (p : PerFilt α) {f f' : FiltStage} (v : α) (h : f' ≠ f) :
    (p.set f v).get f' = p.get f' := by
  cases f <;> cases f' <;> first | rfl | exact absurd rfl h

theorem PerFilt.ext_get {α : Type} {p q : PerFilt α} (h : ∀ f, p.get f = q.get f) : p = q := by
  cases p; cases q
  have h1 := h .hp1
  have h2 := h .hp2
  have h3 := h .shelf
  have h4 := h .tone
  simp only [PerFilt.get] at h1 h2 h3 h4
  rw [h1, h2, h3, h4]

@[simp] theorem PerStage.get_set_same {α : Type} (p : PerStage α) (st : Stage) (v : α) : (p.set st v).get st = v := by
  cases st <;> simp [PerStage.get, PerStage.set]

theorem PerStage.get_set_other {α : Type} (p : PerStage α) {st st' : Stage} (v : α) (h : st' ≠ st) :
    (p.set st v).get st' = p.get st' := by
  cases st <;> cases st' <;> simp_all [PerStage.get, PerStage.set, PerGain.get_set_other, PerFilt.get_set_other]

@[simp] theorem PerFilt.get_resetHists (f : FiltStage) : resetHists.get f = resetHist := by cases f <;> rfl

/-! ### `State.installGain` -/
@[simp] theorem State.installGain_gain (s : State) (g : GainStage) (v : Word) :
    (s.installGain g v).gain = s.gain.map fun p => p.set g v := rfl
@[simp] theorem State.installGain_drive (s : State) (g : GainStage) (v : Word) :
    (s.installGain g v).drive = s.drive := rfl
@[simp] theorem State.installGain_coef (s : State) (g : GainStage) (v : Word) :
    (s.installGain g v).coef = s.coef := rfl
@[simp] theorem State.installGain_hist (s : State) (g : GainStage) (v : Word) :
    (s.installGain g v).hist = s.hist := rfl
@[simp] theorem State.installGain_byp (s : State) (g : GainStage) (v : Word) : (s.installGain g v).byp = s.byp := rfl
@[simp] theorem State.installGain_mem (s : State) (g : GainStage) (v : Word) : (s.installGain g v).mem = s.mem := rfl
@[simp] theorem State.installGain_srate (s : State) (g : GainStage) (v : Word) :
    (s.installGain g v).srate = s.srate := rfl
@[simp] theorem State.installGain_blksz (s : State) (g : GainStage) (v : Word) :
    (s.installGain g v).blksz = s.blksz := rfl
@[simp] theorem State.installGain_err (s : State) (g : GainStage) (v : Word) : (s.installGain g v).err = s.err := rfl
@[simp] theorem State.installGain_ecode (s : State) (g : GainStage) (v : Word) :
    (s.installGain g v).ecode = s.ecode := rfl
@[simp] theorem State.installGain_eword (s : State) (g : GainStage) (v : Word) :
    (s.installGain g v).eword = s.eword := rfl
@[simp] theorem State.installGain_cp (s : State) (g : GainStage) (v : Word) : (s.installGain g v).cp = s.cp := rfl
@[simp] theorem State.installGain_cabst (s : State) (g : GainStage) (v : Word) :
    (s.installGain g v).cabst = s.cabst := rfl
@[simp] theorem State.installGain_responses (s : State) (g : GainStage) (v : Word) :
    (s.installGain g v).responses = s.responses := rfl
@[simp] theorem State.installGain_held (s : State) (g : GainStage) (v : Word) :
    (s.installGain g v).held = s.held := rfl
@[simp] theorem State.installGain_input (s : State) (g : GainStage) (v : Word) :
    (s.installGain g v).input = s.input := rfl
@[simp] theorem State.installGain_draws (s : State) (g : GainStage) (v : Word) :
    (s.installGain g v).draws = s.draws := rfl
@[simp] theorem State.installGain_rdySamples (s : State) (g : GainStage) (v : Word) :
    (s.installGain g v).rdySamples = s.rdySamples := rfl

/-! ### `State.installDrive` -/
@[simp] theorem State.installDrive_gain (s : State) (v : Word) : (s.installDrive v).gain = s.gain := rfl
@[simp] theorem State.installDrive_drive (s : State) (v : Word) : (s.installDrive v).drive = PerChan.both v := rfl
@[simp] theorem State.installDrive_coef (s : State) (v : Word) : (s.installDrive v).coef = s.coef := rfl
@[simp] theorem State.installDrive_hist (s : State) (v : Word) : (s.installDrive v).hist = s.hist := rfl
@[simp] theorem State.installDrive_byp (s : State) (v : Word) : (s.installDrive v).byp = s.byp := rfl
@[simp] theorem State.installDrive_mem (s : State) (v : Word) : (s.installDrive v).mem = s.mem := rfl
@[simp] theorem State.installDrive_srate (s : State) (v : Word) : (s.installDrive v).srate = s.srate := rfl
@[simp] theorem State.installDrive_blksz (s : State) (v : Word) : (s.installDrive v).blksz = s.blksz := rfl
@[simp] theorem State.installDrive_err (s : State) (v : Word) : (s.installDrive v).err = s.err := rfl
@[simp] theorem State.installDrive_ecode (s : State) (v : Word) : (s.installDrive v).ecode = s.ecode := rfl
@[simp] theorem State.installDrive_eword (s : State) (v : Word) : (s.installDrive v).eword = s.eword := rfl
@[simp] theorem State.installDrive_cp (s : State) (v : Word) : (s.installDrive v).cp = s.cp := rfl
@[simp] theorem State.installDrive_cabst (s : State) (v : Word) : (s.installDrive v).cabst = s.cabst := rfl
@[simp] theorem State.installDrive_responses (s : State) (v : Word) :
    (s.installDrive v).responses = s.responses := rfl
@[simp] theorem State.installDrive_held (s : State) (v : Word) : (s.installDrive v).held = s.held := rfl
@[simp] theorem State.installDrive_input (s : State) (v : Word) : (s.installDrive v).input = s.input := rfl
@[simp] theorem State.installDrive_draws (s : State) (v : Word) : (s.installDrive v).draws = s.draws := rfl
@[simp] theorem State.installDrive_rdySamples (s : State) (v : Word) :
    (s.installDrive v).rdySamples = s.rdySamples := rfl

/-! ### `State.installCoeffs` -/
@[simp] theorem State.installCoeffs_gain (s : State) (f : FiltStage) (k : Coeffs) :
    (s.installCoeffs f k).gain = s.gain := rfl
@[simp] theorem State.installCoeffs_drive (s : State) (f : FiltStage) (k : Coeffs) :
    (s.installCoeffs f k).drive = s.drive := rfl
@[simp] theorem State.installCoeffs_coef (s : State) (f : FiltStage) (k : Coeffs) :
    (s.installCoeffs f k).coef = s.coef.map fun p => p.set f k := rfl
@[simp] theorem State.installCoeffs_hist (s : State) (f : FiltStage) (k : Coeffs) :
    (s.installCoeffs f k).hist = s.hist := rfl
@[simp] theorem State.installCoeffs_byp (s : State) (f : FiltStage) (k : Coeffs) :
    (s.installCoeffs f k).byp = s.byp := rfl
@[simp] theorem State.installCoeffs_mem (s : State) (f : FiltStage) (k : Coeffs) :
    (s.installCoeffs f k).mem = s.mem := rfl
@[simp] theorem State.installCoeffs_srate (s : State) (f : FiltStage) (k : Coeffs) :
    (s.installCoeffs f k).srate = s.srate := rfl
@[simp] theorem State.installCoeffs_blksz (s : State) (f : FiltStage) (k : Coeffs) :
    (s.installCoeffs f k).blksz = s.blksz := rfl
@[simp] theorem State.installCoeffs_err (s : State) (f : FiltStage) (k : Coeffs) :
    (s.installCoeffs f k).err = s.err := rfl
@[simp] theorem State.installCoeffs_ecode (s : State) (f : FiltStage) (k : Coeffs) :
    (s.installCoeffs f k).ecode = s.ecode := rfl
@[simp] theorem State.installCoeffs_eword (s : State) (f : FiltStage) (k : Coeffs) :
    (s.installCoeffs f k).eword = s.eword := rfl
@[simp] theorem State.installCoeffs_cp (s : State) (f : FiltStage) (k : Coeffs) :
    (s.installCoeffs f k).cp = s.cp := rfl
@[simp] theorem State.installCoeffs_cabst (s : State) (f : FiltStage) (k : Coeffs) :
    (s.installCoeffs f k).cabst = s.cabst := rfl
@[simp] theorem State.installCoeffs_responses (s : State) (f : FiltStage) (k : Coeffs) :
    (s.installCoeffs f k).responses = s.responses := rfl
@[simp] theorem State.installCoeffs_held (s : State) (f : FiltStage) (k : Coeffs) :
    (s.installCoeffs f k).held = s.held := rfl
@[simp] theorem State.installCoeffs_input (s : State) (f : FiltStage) (k : Coeffs) :
    (s.installCoeffs f k).input = s.input := rfl
@[simp] theorem State.installCoeffs_draws (s : State) (f : FiltStage) (k : Coeffs) :
    (s.installCoeffs f k).draws = s.draws := rfl
@[simp] theorem State.installCoeffs_rdySamples (s : State) (f : FiltStage) (k : Coeffs) :
    (s.installCoeffs f k).rdySamples = s.rdySamples := rfl

/-! ### `State.installBypass` -/
@[simp] theorem State.installBypass_gain (s : State) (st : Stage) (v : Bool) :
    (s.installBypass st v).gain = s.gain := rfl
@[simp] theorem State.installBypass_drive (s : State) (st : Stage) (v : Bool) :
    (s.installBypass st v).drive = s.drive := rfl
@[simp] theorem State.installBypass_coef (s : State) (st : Stage) (v : Bool) :
    (s.installBypass st v).coef = s.coef := rfl
@[simp] theorem State.installBypass_hist (s : State) (st : Stage) (v : Bool) :
    (s.installBypass st v).hist = s.hist := rfl
@[simp] theorem State.installBypass_byp (s : State) (st : Stage) (v : Bool) :
    (s.installBypass st v).byp = s.byp.map fun p => p.set st v := rfl
@[simp] theorem State.installBypass_mem (s : State) (st : Stage) (v : Bool) :
    (s.installBypass st v).mem = s.mem := rfl
@[simp] theorem State.installBypass_srate (s : State) (st : Stage) (v : Bool) :
    (s.installBypass st v).srate = s.srate := rfl
@[simp] theorem State.installBypass_blksz (s : State) (st : Stage) (v : Bool) :
    (s.installBypass st v).blksz = s.blksz := rfl
@[simp] theorem State.installBypass_err (s : State) (st : Stage) (v : Bool) :
    (s.installBypass st v).err = s.err := rfl
@[simp] theorem State.installBypass_ecode (s : State) (st : Stage) (v : Bool) :
    (s.installBypass st v).ecode = s.ecode := rfl
@[simp] theorem State.installBypass_eword (s : State) (st : Stage) (v : Bool) :
    (s.installBypass st v).eword = s.eword := rfl
@[simp] theorem State.installBypass_cp (s : State) (st : Stage) (v : Bool) : (s.installBypass st v).cp = s.cp := rfl
@[simp] theorem State.installBypass_cabst (s : State) (st : Stage) (v : Bool) :
    (s.installBypass st v).cabst = s.cabst := rfl
@[simp] theorem State.installBypass_responses (s : State) (st : Stage) (v : Bool) :
    (s.installBypass st v).responses = s.responses := rfl
@[simp] theorem State.installBypass_held (s : State) (st : Stage) (v : Bool) :
    (s.installBypass st v).held = s.held := rfl
@[simp] theorem State.installBypass_input (s : State) (st : Stage) (v : Bool) :
    (s.installBypass st v).input = s.input := rfl
@[simp] theorem State.installBypass_draws (s : State) (st : Stage) (v : Bool) :
    (s.installBypass st v).draws = s.draws := rfl
@[simp] theorem State.installBypass_rdySamples (s : State) (st : Stage) (v : Bool) :
    (s.installBypass st v).rdySamples = s.rdySamples := rfl

/-! ### `State.setHist` -/
@[simp] theorem State.setHist_gain (s : State) (c : Chan) (f : FiltStage) (h : Hist) :
    (s.setHist c f h).gain = s.gain := rfl
@[simp] theorem State.setHist_drive (s : State) (c : Chan) (f : FiltStage) (h : Hist) :
    (s.setHist c f h).drive = s.drive := rfl
@[simp] theorem State.setHist_coef (s : State) (c : Chan) (f : FiltStage) (h : Hist) :
    (s.setHist c f h).coef = s.coef := rfl
@[simp] theorem State.setHist_hist (s : State) (c : Chan) (f : FiltStage) (h : Hist) :
    (s.setHist c f h).hist = s.hist.set c ((s.hist.get c).set f h) := rfl
@[simp] theorem State.setHist_byp (s : State) (c : Chan) (f : FiltStage) (h : Hist) :
    (s.setHist c f h).byp = s.byp := rfl
@[simp] theorem State.setHist_mem (s : State) (c : Chan) (f : FiltStage) (h : Hist) :
    (s.setHist c f h).mem = s.mem := rfl
@[simp] theorem State.setHist_srate (s : State) (c : Chan) (f : FiltStage) (h : Hist) :
    (s.setHist c f h).srate = s.srate := rfl
@[simp] theorem State.setHist_blksz (s : State) (c : Chan) (f : FiltStage) (h : Hist) :
    (s.setHist c f h).blksz = s.blksz := rfl
@[simp] theorem State.setHist_err (s : State) (c : Chan) (f : FiltStage) (h : Hist) :
    (s.setHist c f h).err = s.err := rfl
@[simp] theorem State.setHist_ecode (s : State) (c : Chan) (f : FiltStage) (h : Hist) :
    (s.setHist c f h).ecode = s.ecode := rfl
@[simp] theorem State.setHist_eword (s : State) (c : Chan) (f : FiltStage) (h : Hist) :
    (s.setHist c f h).eword = s.eword := rfl
@[simp] theorem State.setHist_cp (s : State) (c : Chan) (f : FiltStage) (h : Hist) :
    (s.setHist c f h).cp = s.cp := rfl
@[simp] theorem State.setHist_cabst (s : State) (c : Chan) (f : FiltStage) (h : Hist) :
    (s.setHist c f h).cabst = s.cabst := rfl
@[simp] theorem State.setHist_responses (s : State) (c : Chan) (f : FiltStage) (h : Hist) :
    (s.setHist c f h).responses = s.responses := rfl
@[simp] theorem State.setHist_held (s : State) (c : Chan) (f : FiltStage) (h : Hist) :
    (s.setHist c f h).held = s.held := rfl
@[simp] theorem State.setHist_input (s : State) (c : Chan) (f : FiltStage) (h : Hist) :
    (s.setHist c f h).input = s.input := rfl
@[simp] theorem State.setHist_draws (s : State) (c : Chan) (f : FiltStage) (h : Hist) :
    (s.setHist c f h).draws = s.draws := rfl
@[simp] theorem State.setHist_rdySamples (s : State) (c : Chan) (f : FiltStage) (h : Hist) :
    (s.setHist c f h).rdySamples = s.rdySamples := rfl

/-! ### `State.clearHists` -/
@[simp] theorem State.clearHists_gain (s : State) : (s.clearHists).gain = s.gain := rfl
@[simp] theorem State.clearHists_drive (s : State) : (s.clearHists).drive = s.drive := rfl
@[simp] theorem State.clearHists_coef (s : State) : (s.clearHists).coef = s.coef := rfl
@[simp] theorem State.clearHists_hist (s : State) : (s.clearHists).hist = PerChan.both resetHists := rfl
@[simp] theorem State.clearHists_byp (s : State) : (s.clearHists).byp = s.byp := rfl
@[simp] theorem State.clearHists_mem (s : State) : (s.clearHists).mem = s.mem := rfl
@[simp] theorem State.clearHists_srate (s : State) : (s.clearHists).srate = s.srate := rfl
@[simp] theorem State.clearHists_blksz (s : State) : (s.clearHists).blksz = s.blksz := rfl
@[simp] theorem State.clearHists_err (s : State) : (s.clearHists).err = s.err := rfl
@[simp] theorem State.clearHists_ecode (s : State) : (s.clearHists).ecode = s.ecode := rfl
@[simp] theorem State.clearHists_eword (s : State) : (s.clearHists).eword = s.eword := rfl
@[simp] theorem State.clearHists_cp (s : State) : (s.clearHists).cp = s.cp := rfl
@[simp] theorem State.clearHists_cabst (s : State) : (s.clearHists).cabst = s.cabst := rfl
@[simp] theorem State.clearHists_responses (s : State) : (s.clearHists).responses = s.responses := rfl
@[simp] theorem State.clearHists_held (s : State) : (s.clearHists).held = s.held := rfl
@[simp] theorem State.clearHists_input (s : State) : (s.clearHists).input = s.input := rfl
@[simp] theorem State.clearHists_draws (s : State) : (s.clearHists).draws = s.draws := rfl
@[simp] theorem State.clearHists_rdySamples (s : State) : (s.clearHists).rdySamples = s.rdySamples := rfl

/-! ### `State.clearHistsOf` -/
@[simp] theorem State.clearHistsOf_gain (s : State) (f : FiltStage) : (s.clearHistsOf f).gain = s.gain := rfl
@[simp] theorem State.clearHistsOf_drive (s : State) (f : FiltStage) : (s.clearHistsOf f).drive = s.drive := rfl
@[simp] theorem State.clearHistsOf_coef (s : State) (f : FiltStage) : (s.clearHistsOf f).coef = s.coef := rfl
@[simp] theorem State.clearHistsOf_hist (s : State) (f : FiltStage) :
    (s.clearHistsOf f).hist = s.hist.map fun p => p.set f resetHist := rfl
@[simp] theorem State.clearHistsOf_byp (s : State) (f : FiltStage) : (s.clearHistsOf f).byp = s.byp := rfl
@[simp] theorem State.clearHistsOf_mem (s : State) (f : FiltStage) : (s.clearHistsOf f).mem = s.mem := rfl
@[simp] theorem State.clearHistsOf_srate (s : State) (f : FiltStage) : (s.clearHistsOf f).srate = s.srate := rfl
@[simp] theorem State.clearHistsOf_blksz (s : State) (f : FiltStage) : (s.clearHistsOf f).blksz = s.blksz := rfl
@[simp] theorem State.clearHistsOf_err (s : State) (f : FiltStage) : (s.clearHistsOf f).err = s.err := rfl
@[simp] theorem State.clearHistsOf_ecode (s : State) (f : FiltStage) : (s.clearHistsOf f).ecode = s.ecode := rfl
@[simp] theorem State.clearHistsOf_eword (s : State) (f : FiltStage) : (s.clearHistsOf f).eword = s.eword := rfl
@[simp] theorem State.clearHistsOf_cp (s : State) (f : FiltStage) : (s.clearHistsOf f).cp = s.cp := rfl
@[simp] theorem State.clearHistsOf_cabst (s : State) (f : FiltStage) : (s.clearHistsOf f).cabst = s.cabst := rfl
@[simp] theorem State.clearHistsOf_responses (s : State) (f : FiltStage) :
    (s.clearHistsOf f).responses = s.responses := rfl
@[simp] theorem State.clearHistsOf_held (s : State) (f : FiltStage) : (s.clearHistsOf f).held = s.held := rfl
@[simp] theorem State.clearHistsOf_input (s : State) (f : FiltStage) : (s.clearHistsOf f).input = s.input := rfl
@[simp] theorem State.clearHistsOf_draws (s : State) (f : FiltStage) : (s.clearHistsOf f).draws = s.draws := rfl
@[simp] theorem State.clearHistsOf_rdySamples (s : State) (f : FiltStage) :
    (s.clearHistsOf f).rdySamples = s.rdySamples := rfl

/-! ### `State.memWrite` -/
@[simp] theorem State.memWrite_gain (s : State) (c : Chan) (i : Nat) (v : Word) :
    (s.memWrite c i v).gain = s.gain := rfl
@[simp] theorem State.memWrite_drive (s : State) (c : Chan) (i : Nat) (v : Word) :
    (s.memWrite c i v).drive = s.drive := rfl
@[simp] theorem State.memWrite_coef (s : State) (c : Chan) (i : Nat) (v : Word) :
    (s.memWrite c i v).coef = s.coef := rfl
@[simp] theorem State.memWrite_hist (s : State) (c : Chan) (i : Nat) (v : Word) :
    (s.memWrite c i v).hist = s.hist := rfl
@[simp] theorem State.memWrite_byp (s : State) (c : Chan) (i : Nat) (v : Word) : (s.memWrite c i v).byp = s.byp := rfl
@[simp] theorem State.memWrite_mem (s : State) (c : Chan) (i : Nat) (v : Word) :
    (s.memWrite c i v).mem = s.mem.setWord c i v := rfl
@[simp] theorem State.memWrite_srate (s : State) (c : Chan) (i : Nat) (v : Word) :
    (s.memWrite c i v).srate = s.srate := rfl
@[simp] theorem State.memWrite_blksz (s : State) (c : Chan) (i : Nat) (v : Word) :
    (s.memWrite c i v).blksz = s.blksz := rfl
@[simp] theorem State.memWrite_err (s : State) (c : Chan) (i : Nat) (v : Word) : (s.memWrite c i v).err = s.err := rfl
@[simp] theorem State.memWrite_ecode (s : State) (c : Chan) (i : Nat) (v : Word) :
    (s.memWrite c i v).ecode = s.ecode := rfl
@[simp] theorem State.memWrite_eword (s : State) (c : Chan) (i : Nat) (v : Word) :
    (s.memWrite c i v).eword = s.eword := rfl
@[simp] theorem State.memWrite_cp (s : State) (c : Chan) (i : Nat) (v : Word) : (s.memWrite c i v).cp = s.cp := rfl
@[simp] theorem State.memWrite_cabst (s : State) (c : Chan) (i : Nat) (v : Word) :
    (s.memWrite c i v).cabst = s.cabst := rfl
@[simp] theorem State.memWrite_responses (s : State) (c : Chan) (i : Nat) (v : Word) :
    (s.memWrite c i v).responses = s.responses := rfl
@[simp] theorem State.memWrite_held (s : State) (c : Chan) (i : Nat) (v : Word) :
    (s.memWrite c i v).held = s.held := rfl
@[simp] theorem State.memWrite_input (s : State) (c : Chan) (i : Nat) (v : Word) :
    (s.memWrite c i v).input = s.input := rfl
@[simp] theorem State.memWrite_draws (s : State) (c : Chan) (i : Nat) (v : Word) :
    (s.memWrite c i v).draws = s.draws := rfl
@[simp] theorem State.memWrite_rdySamples (s : State) (c : Chan) (i : Nat) (v : Word) :
    (s.memWrite c i v).rdySamples = s.rdySamples := rfl

/-! ### `State.emit` -/
@[simp] theorem State.emit_gain (s : State) (v : Word) : (s.emit v).gain = s.gain := rfl
@[simp] theorem State.emit_drive (s : State) (v : Word) : (s.emit v).drive = s.drive := rfl
@[simp] theorem State.emit_coef (s : State) (v : Word) : (s.emit v).coef = s.coef := rfl
@[simp] theorem State.emit_hist (s : State) (v : Word) : (s.emit v).hist = s.hist := rfl
@[simp] theorem State.emit_byp (s : State) (v : Word) : (s.emit v).byp = s.byp := rfl
@[simp] theorem State.emit_mem (s : State) (v : Word) : (s.emit v).mem = s.mem := rfl
@[simp] theorem State.emit_srate (s : State) (v : Word) : (s.emit v).srate = s.srate := rfl
@[simp] theorem State.emit_blksz (s : State) (v : Word) : (s.emit v).blksz = s.blksz := rfl
@[simp] theorem State.emit_err (s : State) (v : Word) : (s.emit v).err = s.err := rfl
@[simp] theorem State.emit_ecode (s : State) (v : Word) : (s.emit v).ecode = s.ecode := rfl
@[simp] theorem State.emit_eword (s : State) (v : Word) : (s.emit v).eword = s.eword := rfl
@[simp] theorem State.emit_cp (s : State) (v : Word) : (s.emit v).cp = s.cp := rfl
@[simp] theorem State.emit_cabst (s : State) (v : Word) : (s.emit v).cabst = s.cabst := rfl
@[simp] theorem State.emit_responses (s : State) (v : Word) : (s.emit v).responses = s.responses ++ [v] := rfl
@[simp] theorem State.emit_held (s : State) (v : Word) : (s.emit v).held = s.held := rfl
@[simp] theorem State.emit_input (s : State) (v : Word) : (s.emit v).input = s.input := rfl
@[simp] theorem State.emit_draws (s : State) (v : Word) : (s.emit v).draws = s.draws := rfl
@[simp] theorem State.emit_rdySamples (s : State) (v : Word) : (s.emit v).rdySamples = s.rdySamples := rfl

/-! ### `State.emitAll` -/
@[simp] theorem State.emitAll_gain (s : State) (vs : List Word) : (s.emitAll vs).gain = s.gain := rfl
@[simp] theorem State.emitAll_drive (s : State) (vs : List Word) : (s.emitAll vs).drive = s.drive := rfl
@[simp] theorem State.emitAll_coef (s : State) (vs : List Word) : (s.emitAll vs).coef = s.coef := rfl
@[simp] theorem State.emitAll_hist (s : State) (vs : List Word) : (s.emitAll vs).hist = s.hist := rfl
@[simp] theorem State.emitAll_byp (s : State) (vs : List Word) : (s.emitAll vs).byp = s.byp := rfl
@[simp] theorem State.emitAll_mem (s : State) (vs : List Word) : (s.emitAll vs).mem = s.mem := rfl
@[simp] theorem State.emitAll_srate (s : State) (vs : List Word) : (s.emitAll vs).srate = s.srate := rfl
@[simp] theorem State.emitAll_blksz (s : State) (vs : List Word) : (s.emitAll vs).blksz = s.blksz := rfl
@[simp] theorem State.emitAll_err (s : State) (vs : List Word) : (s.emitAll vs).err = s.err := rfl
@[simp] theorem State.emitAll_ecode (s : State) (vs : List Word) : (s.emitAll vs).ecode = s.ecode := rfl
@[simp] theorem State.emitAll_eword (s : State) (vs : List Word) : (s.emitAll vs).eword = s.eword := rfl
@[simp] theorem State.emitAll_cp (s : State) (vs : List Word) : (s.emitAll vs).cp = s.cp := rfl
@[simp] theorem State.emitAll_cabst (s : State) (vs : List Word) : (s.emitAll vs).cabst = s.cabst := rfl
@[simp] theorem State.emitAll_responses (s : State) (vs : List Word) :
    (s.emitAll vs).responses = s.responses ++ vs := rfl
@[simp] theorem State.emitAll_held (s : State) (vs : List Word) : (s.emitAll vs).held = s.held := rfl
@[simp] theorem State.emitAll_input (s : State) (vs : List Word) : (s.emitAll vs).input = s.input := rfl
@[simp] theorem State.emitAll_draws (s : State) (vs : List Word) : (s.emitAll vs).draws = s.draws := rfl
@[simp] theorem State.emitAll_rdySamples (s : State) (vs : List Word) :
    (s.emitAll vs).rdySamples = s.rdySamples := rfl

/-! ### `State.consume` -/
@[simp] theorem State.consume_gain (s : State) (n : Nat) : (s.consume n).gain = s.gain := rfl
@[simp] theorem State.consume_drive (s : State) (n : Nat) : (s.consume n).drive = s.drive := rfl
@[simp] theorem State.consume_coef (s : State) (n : Nat) : (s.consume n).coef = s.coef := rfl
@[simp] theorem State.consume_hist (s : State) (n : Nat) : (s.consume n).hist = s.hist := rfl
@[simp] theorem State.consume_byp (s : State) (n : Nat) : (s.consume n).byp = s.byp := rfl
@[simp] theorem State.consume_mem (s : State) (n : Nat) : (s.consume n).mem = s.mem := rfl
@[simp] theorem State.consume_srate (s : State) (n : Nat) : (s.consume n).srate = s.srate := rfl
@[simp] theorem State.consume_blksz (s : State) (n : Nat) : (s.consume n).blksz = s.blksz := rfl
@[simp] theorem State.consume_err (s : State) (n : Nat) : (s.consume n).err = s.err := rfl
@[simp] theorem State.consume_ecode (s : State) (n : Nat) : (s.consume n).ecode = s.ecode := rfl
@[simp] theorem State.consume_eword (s : State) (n : Nat) : (s.consume n).eword = s.eword := rfl
@[simp] theorem State.consume_cp (s : State) (n : Nat) : (s.consume n).cp = s.cp + (n - s.held.length) := rfl
@[simp] theorem State.consume_cabst (s : State) (n : Nat) : (s.consume n).cabst = s.cabst := rfl
@[simp] theorem State.consume_responses (s : State) (n : Nat) : (s.consume n).responses = s.responses := rfl
@[simp] theorem State.consume_held (s : State) (n : Nat) : (s.consume n).held = [] := rfl
@[simp] theorem State.consume_input (s : State) (n : Nat) : (s.consume n).input = s.stream.drop n := rfl
@[simp] theorem State.consume_draws (s : State) (n : Nat) : (s.consume n).draws = s.draws := rfl
@[simp] theorem State.consume_rdySamples (s : State) (n : Nat) : (s.consume n).rdySamples = s.rdySamples := rfl

/-! ### `State.hold` -/
@[simp] theorem State.hold_gain (s : State) : (s.hold).gain = s.gain := rfl
@[simp] theorem State.hold_drive (s : State) : (s.hold).drive = s.drive := rfl
@[simp] theorem State.hold_coef (s : State) : (s.hold).coef = s.coef := rfl
@[simp] theorem State.hold_hist (s : State) : (s.hold).hist = s.hist := rfl
@[simp] theorem State.hold_byp (s : State) : (s.hold).byp = s.byp := rfl
@[simp] theorem State.hold_mem (s : State) : (s.hold).mem = s.mem := rfl
@[simp] theorem State.hold_srate (s : State) : (s.hold).srate = s.srate := rfl
@[simp] theorem State.hold_blksz (s : State) : (s.hold).blksz = s.blksz := rfl
@[simp] theorem State.hold_err (s : State) : (s.hold).err = s.err := rfl
@[simp] theorem State.hold_ecode (s : State) : (s.hold).ecode = s.ecode := rfl
@[simp] theorem State.hold_eword (s : State) : (s.hold).eword = s.eword := rfl
@[simp] theorem State.hold_cp (s : State) : (s.hold).cp = s.cp + s.input.length := rfl
@[simp] theorem State.hold_cabst (s : State) : (s.hold).cabst = s.cabst := rfl
@[simp] theorem State.hold_responses (s : State) : (s.hold).responses = s.responses := rfl
@[simp] theorem State.hold_held (s : State) : (s.hold).held = s.stream := rfl
@[simp] theorem State.hold_input (s : State) : (s.hold).input = [] := rfl
@[simp] theorem State.hold_draws (s : State) : (s.hold).draws = s.draws := rfl
@[simp] theorem State.hold_rdySamples (s : State) : (s.hold).rdySamples = s.rdySamples := rfl

/-! ### `State.cabPrepare` -/
@[simp] theorem State.cabPrepare_gain (s : State) (sr bs : Word) : (s.cabPrepare sr bs).gain = s.gain := rfl
@[simp] theorem State.cabPrepare_drive (s : State) (sr bs : Word) : (s.cabPrepare sr bs).drive = s.drive := rfl
@[simp] theorem State.cabPrepare_coef (s : State) (sr bs : Word) : (s.cabPrepare sr bs).coef = s.coef := rfl
@[simp] theorem State.cabPrepare_hist (s : State) (sr bs : Word) : (s.cabPrepare sr bs).hist = s.hist := rfl
@[simp] theorem State.cabPrepare_byp (s : State) (sr bs : Word) : (s.cabPrepare sr bs).byp = s.byp := rfl
@[simp] theorem State.cabPrepare_mem (s : State) (sr bs : Word) : (s.cabPrepare sr bs).mem = s.mem := rfl
@[simp] theorem State.cabPrepare_srate (s : State) (sr bs : Word) : (s.cabPrepare sr bs).srate = s.srate := rfl
@[simp] theorem State.cabPrepare_blksz (s : State) (sr bs : Word) : (s.cabPrepare sr bs).blksz = s.blksz := rfl
@[simp] theorem State.cabPrepare_err (s : State) (sr bs : Word) : (s.cabPrepare sr bs).err = s.err := rfl
@[simp] theorem State.cabPrepare_ecode (s : State) (sr bs : Word) : (s.cabPrepare sr bs).ecode = s.ecode := rfl
@[simp] theorem State.cabPrepare_eword (s : State) (sr bs : Word) : (s.cabPrepare sr bs).eword = s.eword := rfl
@[simp] theorem State.cabPrepare_cp (s : State) (sr bs : Word) : (s.cabPrepare sr bs).cp = s.cp := rfl
@[simp] theorem State.cabPrepare_cabst (s : State) (sr bs : Word) :
    (s.cabPrepare sr bs).cabst = s.cabst ++ [.prepare sr bs] := rfl
@[simp] theorem State.cabPrepare_responses (s : State) (sr bs : Word) :
    (s.cabPrepare sr bs).responses = s.responses := rfl
@[simp] theorem State.cabPrepare_held (s : State) (sr bs : Word) : (s.cabPrepare sr bs).held = s.held := rfl
@[simp] theorem State.cabPrepare_input (s : State) (sr bs : Word) : (s.cabPrepare sr bs).input = s.input := rfl
@[simp] theorem State.cabPrepare_draws (s : State) (sr bs : Word) : (s.cabPrepare sr bs).draws = s.draws := rfl
@[simp] theorem State.cabPrepare_rdySamples (s : State) (sr bs : Word) :
    (s.cabPrepare sr bs).rdySamples = s.rdySamples := rfl

/-! ### `State.cabResetBoth` -/
@[simp] theorem State.cabResetBoth_gain (s : State) : (s.cabResetBoth).gain = s.gain := rfl
@[simp] theorem State.cabResetBoth_drive (s : State) : (s.cabResetBoth).drive = s.drive := rfl
@[simp] theorem State.cabResetBoth_coef (s : State) : (s.cabResetBoth).coef = s.coef := rfl
@[simp] theorem State.cabResetBoth_hist (s : State) : (s.cabResetBoth).hist = s.hist := rfl
@[simp] theorem State.cabResetBoth_byp (s : State) : (s.cabResetBoth).byp = s.byp := rfl
@[simp] theorem State.cabResetBoth_mem (s : State) : (s.cabResetBoth).mem = s.mem := rfl
@[simp] theorem State.cabResetBoth_srate (s : State) : (s.cabResetBoth).srate = s.srate := rfl
@[simp] theorem State.cabResetBoth_blksz (s : State) : (s.cabResetBoth).blksz = s.blksz := rfl
@[simp] theorem State.cabResetBoth_err (s : State) : (s.cabResetBoth).err = s.err := rfl
@[simp] theorem State.cabResetBoth_ecode (s : State) : (s.cabResetBoth).ecode = s.ecode := rfl
@[simp] theorem State.cabResetBoth_eword (s : State) : (s.cabResetBoth).eword = s.eword := rfl
@[simp] theorem State.cabResetBoth_cp (s : State) : (s.cabResetBoth).cp = s.cp := rfl
@[simp] theorem State.cabResetBoth_cabst (s : State) :
    (s.cabResetBoth).cabst = s.cabst ++ [.reset .left, .reset .right] := rfl
@[simp] theorem State.cabResetBoth_responses (s : State) : (s.cabResetBoth).responses = s.responses := rfl
@[simp] theorem State.cabResetBoth_held (s : State) : (s.cabResetBoth).held = s.held := rfl
@[simp] theorem State.cabResetBoth_input (s : State) : (s.cabResetBoth).input = s.input := rfl
@[simp] theorem State.cabResetBoth_draws (s : State) : (s.cabResetBoth).draws = s.draws := rfl
@[simp] theorem State.cabResetBoth_rdySamples (s : State) : (s.cabResetBoth).rdySamples = s.rdySamples := rfl

/-! ### `State.clearLatch` -/
@[simp] theorem State.clearLatch_gain (s : State) : (s.clearLatch).gain = s.gain := rfl
@[simp] theorem State.clearLatch_drive (s : State) : (s.clearLatch).drive = s.drive := rfl
@[simp] theorem State.clearLatch_coef (s : State) : (s.clearLatch).coef = s.coef := rfl
@[simp] theorem State.clearLatch_hist (s : State) : (s.clearLatch).hist = s.hist := rfl
@[simp] theorem State.clearLatch_byp (s : State) : (s.clearLatch).byp = s.byp := rfl
@[simp] theorem State.clearLatch_mem (s : State) : (s.clearLatch).mem = s.mem := rfl
@[simp] theorem State.clearLatch_srate (s : State) : (s.clearLatch).srate = s.srate := rfl
@[simp] theorem State.clearLatch_blksz (s : State) : (s.clearLatch).blksz = s.blksz := rfl
@[simp] theorem State.clearLatch_err (s : State) : (s.clearLatch).err = false := rfl
@[simp] theorem State.clearLatch_ecode (s : State) : (s.clearLatch).ecode = 0 := rfl
@[simp] theorem State.clearLatch_eword (s : State) : (s.clearLatch).eword = 0 := rfl
@[simp] theorem State.clearLatch_cp (s : State) : (s.clearLatch).cp = s.cp := rfl
@[simp] theorem State.clearLatch_cabst (s : State) : (s.clearLatch).cabst = s.cabst := rfl
@[simp] theorem State.clearLatch_responses (s : State) : (s.clearLatch).responses = s.responses := rfl
@[simp] theorem State.clearLatch_held (s : State) : (s.clearLatch).held = s.held := rfl
@[simp] theorem State.clearLatch_input (s : State) : (s.clearLatch).input = s.input := rfl
@[simp] theorem State.clearLatch_draws (s : State) : (s.clearLatch).draws = s.draws := rfl
@[simp] theorem State.clearLatch_rdySamples (s : State) : (s.clearLatch).rdySamples = s.rdySamples := rfl

/-! ### `State.deliver` -/
@[simp] theorem State.deliver_gain (s : State) (ws : List Word) : (s.deliver ws).gain = s.gain := rfl
@[simp] theorem State.deliver_drive (s : State) (ws : List Word) : (s.deliver ws).drive = s.drive := rfl
@[simp] theorem State.deliver_coef (s : State) (ws : List Word) : (s.deliver ws).coef = s.coef := rfl
@[simp] theorem State.deliver_hist (s : State) (ws : List Word) : (s.deliver ws).hist = s.hist := rfl
@[simp] theorem State.deliver_byp (s : State) (ws : List Word) : (s.deliver ws).byp = s.byp := rfl
@[simp] theorem State.deliver_mem (s : State) (ws : List Word) : (s.deliver ws).mem = s.mem := rfl
@[simp] theorem State.deliver_srate (s : State) (ws : List Word) : (s.deliver ws).srate = s.srate := rfl
@[simp] theorem State.deliver_blksz (s : State) (ws : List Word) : (s.deliver ws).blksz = s.blksz := rfl
@[simp] theorem State.deliver_err (s : State) (ws : List Word) : (s.deliver ws).err = s.err := rfl
@[simp] theorem State.deliver_ecode (s : State) (ws : List Word) : (s.deliver ws).ecode = s.ecode := rfl
@[simp] theorem State.deliver_eword (s : State) (ws : List Word) : (s.deliver ws).eword = s.eword := rfl
@[simp] theorem State.deliver_cp (s : State) (ws : List Word) : (s.deliver ws).cp = s.cp := rfl
@[simp] theorem State.deliver_cabst (s : State) (ws : List Word) : (s.deliver ws).cabst = s.cabst := rfl
@[simp] theorem State.deliver_responses (s : State) (ws : List Word) : (s.deliver ws).responses = s.responses := rfl
@[simp] theorem State.deliver_held (s : State) (ws : List Word) : (s.deliver ws).held = s.held := rfl
@[simp] theorem State.deliver_input (s : State) (ws : List Word) : (s.deliver ws).input = s.input ++ ws := rfl
@[simp] theorem State.deliver_draws (s : State) (ws : List Word) : (s.deliver ws).draws = s.draws := rfl
@[simp] theorem State.deliver_rdySamples (s : State) (ws : List Word) :
    (s.deliver ws).rdySamples = s.rdySamples := rfl

/-! ### `State.raise`: everything but the latch -/
@[simp] theorem State.raise_gain (s : State) (e : Cause) (w : Word) : (s.raise e w).gain = s.gain := by
  unfold State.raise; split <;> rfl
@[simp] theorem State.reject_gain (s : State) (e : Cause) (i : Instr) : (s.reject e i).gain = s.gain :=
  State.raise_gain s e i.head
@[simp] theorem State.raise_drive (s : State) (e : Cause) (w : Word) : (s.raise e w).drive = s.drive := by
  unfold State.raise; split <;> rfl
@[simp] theorem State.reject_drive (s : State) (e : Cause) (i : Instr) : (s.reject e i).drive = s.drive :=
  State.raise_drive s e i.head
@[simp] theorem State.raise_coef (s : State) (e : Cause) (w : Word) : (s.raise e w).coef = s.coef := by
  unfold State.raise; split <;> rfl
@[simp] theorem State.reject_coef (s : State) (e : Cause) (i : Instr) : (s.reject e i).coef = s.coef :=
  State.raise_coef s e i.head
@[simp] theorem State.raise_hist (s : State) (e : Cause) (w : Word) : (s.raise e w).hist = s.hist := by
  unfold State.raise; split <;> rfl
@[simp] theorem State.reject_hist (s : State) (e : Cause) (i : Instr) : (s.reject e i).hist = s.hist :=
  State.raise_hist s e i.head
@[simp] theorem State.raise_byp (s : State) (e : Cause) (w : Word) : (s.raise e w).byp = s.byp := by
  unfold State.raise; split <;> rfl
@[simp] theorem State.reject_byp (s : State) (e : Cause) (i : Instr) : (s.reject e i).byp = s.byp :=
  State.raise_byp s e i.head
@[simp] theorem State.raise_mem (s : State) (e : Cause) (w : Word) : (s.raise e w).mem = s.mem := by
  unfold State.raise; split <;> rfl
@[simp] theorem State.reject_mem (s : State) (e : Cause) (i : Instr) : (s.reject e i).mem = s.mem :=
  State.raise_mem s e i.head
@[simp] theorem State.raise_srate (s : State) (e : Cause) (w : Word) : (s.raise e w).srate = s.srate := by
  unfold State.raise; split <;> rfl
@[simp] theorem State.reject_srate (s : State) (e : Cause) (i : Instr) : (s.reject e i).srate = s.srate :=
  State.raise_srate s e i.head
@[simp] theorem State.raise_blksz (s : State) (e : Cause) (w : Word) : (s.raise e w).blksz = s.blksz := by
  unfold State.raise; split <;> rfl
@[simp] theorem State.reject_blksz (s : State) (e : Cause) (i : Instr) : (s.reject e i).blksz = s.blksz :=
  State.raise_blksz s e i.head
@[simp] theorem State.raise_cp (s : State) (e : Cause) (w : Word) : (s.raise e w).cp = s.cp := by
  unfold State.raise; split <;> rfl
@[simp] theorem State.reject_cp (s : State) (e : Cause) (i : Instr) : (s.reject e i).cp = s.cp :=
  State.raise_cp s e i.head
@[simp] theorem State.raise_cabst (s : State) (e : Cause) (w : Word) : (s.raise e w).cabst = s.cabst := by
  unfold State.raise; split <;> rfl
@[simp] theorem State.reject_cabst (s : State) (e : Cause) (i : Instr) : (s.reject e i).cabst = s.cabst :=
  State.raise_cabst s e i.head
@[simp] theorem State.raise_responses (s : State) (e : Cause) (w : Word) : (s.raise e w).responses = s.responses := by
  unfold State.raise; split <;> rfl
@[simp] theorem State.reject_responses (s : State) (e : Cause) (i : Instr) : (s.reject e i).responses = s.responses :=
  State.raise_responses s e i.head
@[simp] theorem State.raise_held (s : State) (e : Cause) (w : Word) : (s.raise e w).held = s.held := by
  unfold State.raise; split <;> rfl
@[simp] theorem State.reject_held (s : State) (e : Cause) (i : Instr) : (s.reject e i).held = s.held :=
  State.raise_held s e i.head
@[simp] theorem State.raise_input (s : State) (e : Cause) (w : Word) : (s.raise e w).input = s.input := by
  unfold State.raise; split <;> rfl
@[simp] theorem State.reject_input (s : State) (e : Cause) (i : Instr) : (s.reject e i).input = s.input :=
  State.raise_input s e i.head
@[simp] theorem State.raise_draws (s : State) (e : Cause) (w : Word) : (s.raise e w).draws = s.draws := by
  unfold State.raise; split <;> rfl
@[simp] theorem State.reject_draws (s : State) (e : Cause) (i : Instr) : (s.reject e i).draws = s.draws :=
  State.raise_draws s e i.head
@[simp] theorem State.raise_rdySamples (s : State) (e : Cause) (w : Word) : (s.raise e w).rdySamples = s.rdySamples := by
  unfold State.raise; split <;> rfl
@[simp] theorem State.reject_rdySamples (s : State) (e : Cause) (i : Instr) : (s.reject e i).rdySamples = s.rdySamples :=
  State.raise_rdySamples s e i.head

end Sys2Proof.Machine
end

