-- ==== Sys2Proof/Laws/Memory.lean ====
section
/-! SUPPORT. The laws of the sample buffers: read after write, writes leave other bytes and words alone, every write
keeps the canonical form, and a canonical memory is determined by what it reads as. -/

namespace Sys2Proof.Machine

/-! ### Bytes -/

@[simp] theorem Memory.byte_setByte_same (m : Memory) (a : Nat) (b : Byte) : (Memory.setByte m a b).byte a = some b := by
  induction m with
  | nil => simp [Memory.setByte, Memory.byte]
  | cons p m ih =>
    obtain ⟨k, v⟩ := p
    simp only [Memory.setByte]
    split
    · simp [Memory.byte]
    · split
      · simp [Memory.byte]
      · rename_i h1 h2
        simp only [Memory.byte, if_neg (Ne.symm h2), ih]

theorem Memory.byte_setByte_other (m : Memory) {a a' : Nat} (b : Byte) (h : a' ≠ a) :
    (Memory.setByte m a b).byte a' = m.byte a' := by
  induction m with
  | nil => simp [Memory.setByte, Memory.byte, Ne.symm h]
  | cons p m ih =>
    obtain ⟨k, v⟩ := p
    simp only [Memory.setByte]
    split
    · simp [Memory.byte, Ne.symm h]
    · split
      · rename_i h2
        simp [Memory.byte, ← h2, Ne.symm h]
      · simp only [Memory.byte, ih]

theorem Memory.byte_setByte (m : Memory) (a a' : Nat) (b : Byte) :
    (Memory.setByte m a b).byte a' = if a' = a then some b else m.byte a' := by
  split
  · rename_i h
    rw [h, Memory.byte_setByte_same]
  · rename_i h
    exact Memory.byte_setByte_other m b h

/-- Every address listed after a write was listed before, or is the one written. -/
theorem Memory.mem_setByte {m : Memory} {a : Nat} {b : Byte} {p : Host.Cell} (h : p ∈ Memory.setByte m a b) :
    p = (a, b) ∨ p ∈ m := by
  induction m with
  | nil => simpa [Memory.setByte] using h
  | cons q m ih =>
    obtain ⟨k, v⟩ := q
    simp only [Memory.setByte] at h
    split at h
    · simpa using h
    · split at h
      · rcases List.mem_cons.mp h with h | h
        · exact .inl h
        · exact .inr (List.mem_cons_of_mem _ h)
      · rcases List.mem_cons.mp h with h | h
        · exact .inr (h ▸ List.mem_cons_self)
        · rcases ih h with h | h
          · exact .inl h
          · exact .inr (List.mem_cons_of_mem _ h)

/-- A write keeps the canonical form. -/
theorem Memory.wf_setByte {m : Memory} (h : m.wf) (a : Nat) (b : Byte) : (Memory.setByte m a b).wf := by
  induction m with
  | nil => simp [Memory.setByte, Memory.wf]
  | cons p m ih =>
    obtain ⟨k, v⟩ := p
    have hm := List.pairwise_cons.mp h
    simp only [Memory.setByte]
    split
    · rename_i hlt
      refine List.pairwise_cons.mpr ⟨fun q hq => ?_, h⟩
      rcases List.mem_cons.mp hq with hq | hq
      · simpa [hq] using hlt
      · exact Nat.lt_trans hlt (hm.1 q hq)
    · split
      · rename_i heq
        exact List.pairwise_cons.mpr ⟨fun q hq => by simpa [heq] using hm.1 q hq, hm.2⟩
      · rename_i h1 h2
        refine List.pairwise_cons.mpr ⟨fun q hq => ?_, ih hm.2⟩
        rcases Memory.mem_setByte hq with hq | hq
        · simp only [hq]; omega
        · exact hm.1 q hq

theorem Memory.byte_none_of_lt {m : Memory} {a : Nat} (h : ∀ p ∈ m, a < p.1) : m.byte a = none := by
  induction m with
  | nil => rfl
  | cons p m ih =>
    obtain ⟨k, v⟩ := p
    have hk : a < k := h _ List.mem_cons_self
    simp only [Memory.byte, if_neg (Nat.ne_of_gt hk)]
    exact ih fun q hq => h q (List.mem_cons_of_mem _ hq)

/-- Two canonical memories that read the same at every address are the same list. -/
theorem Memory.ext_byte {m n : Memory} (hm : m.wf) (hn : n.wf) (h : ∀ a, m.byte a = n.byte a) : m = n := by
  induction m generalizing n with
  | nil =>
    cases n with
    | nil => rfl
    | cons q n =>
      have := h q.1
      simp [Memory.byte] at this
  | cons p m ih =>
    obtain ⟨k, v⟩ := p
    cases n with
    | nil =>
      have := h k
      simp [Memory.byte] at this
    | cons q n =>
      obtain ⟨k', v'⟩ := q
      have pm := List.pairwise_cons.mp hm
      have pn := List.pairwise_cons.mp hn
      have hkk : k = k' := by
        rcases Nat.lt_trichotomy k k' with hlt | heq | hgt
        · have h1 := h k
          rw [Memory.byte_none_of_lt (m := (k', v') :: n)] at h1
          · simp [Memory.byte] at h1
          · intro r hr
            rcases List.mem_cons.mp hr with hr | hr
            · simpa [hr] using hlt
            · exact Nat.lt_trans hlt (pn.1 r hr)
        · exact heq
        · have h1 := h k'
          rw [Memory.byte_none_of_lt (m := (k, v) :: m)] at h1
          · simp [Memory.byte] at h1
          · intro r hr
            rcases List.mem_cons.mp hr with hr | hr
            · simpa [hr] using hgt
            · exact Nat.lt_trans hgt (pm.1 r hr)
      subst hkk
      have hv : v = v' := by
        have := h k
        simpa [Memory.byte] using this
      subst hv
      congr 1
      refine ih pm.2 pn.2 fun a => ?_
      by_cases ha : k = a
      · subst ha
        rw [Memory.byte_none_of_lt pm.1, Memory.byte_none_of_lt pn.1]
      · have := h a
        simpa [Memory.byte, ha] using this

/-! ### Words -/

theorem wordOfBytes_byteOfWord (w : Word) :
    wordOfBytes (byteOfWord w 0) (byteOfWord w 1) (byteOfWord w 2) (byteOfWord w 3) = w := by
  apply BitVec.eq_of_getLsbD_eq
  intro i hi
  simp only [wordOfBytes, byteOfWord, BitVec.getLsbD_append, BitVec.getLsbD_extractLsb']
  by_cases h0 : i < 8
  · simp [h0]
  · by_cases h1 : i - 8 < 8
    · simp [h0, h1]
      congr 1
      omega
    · by_cases h2 : i - 8 - 8 < 8
      · simp [h0, h1, h2]
        congr 1
        omega
      · have h3 : i - 8 - 8 - 8 < 8 := by omega
        simp [h0, h1, h2, h3]
        congr 1
        omega

/-- A word reads by its four bytes only. -/
theorem Memory.word_congr {m n : Memory} {c d : Chan} {i j : Nat}
    (h : ∀ k, k < 4 → m.byte (wordAddr c i + k) = n.byte (wordAddr d j + k)) : m.word c i = n.word d j := by
  have h0 := h 0 (by omega)
  have h1 := h 1 (by omega)
  have h2 := h 2 (by omega)
  have h3 := h 3 (by omega)
  simp only [Nat.add_zero] at h0
  unfold Memory.word
  rw [h0, h1, h2, h3]

/-- The bytes of a memory after one word is written. -/
theorem Memory.byte_setWord (m : Memory) (c : Chan) (i : Nat) (v : Word) (a : Nat) :
    (m.setWord c i v).byte a =
      if a = wordAddr c i + 3 then some (byteOfWord v 3) else
      if a = wordAddr c i + 2 then some (byteOfWord v 2) else
      if a = wordAddr c i + 1 then some (byteOfWord v 1) else
      if a = wordAddr c i then some (byteOfWord v 0) else m.byte a := by
  simp only [Memory.setWord, Memory.byte_setByte]

/-- Every byte outside the written word's four is unchanged. -/
theorem Memory.byte_setWord_other (m : Memory) (c : Chan) (i : Nat) (v : Word) {a : Nat}
    (h : a < wordAddr c i ∨ wordAddr c i + 4 ≤ a) : (m.setWord c i v).byte a = m.byte a := by
  rw [Memory.byte_setWord, if_neg (by omega), if_neg (by omega), if_neg (by omega), if_neg (by omega)]

/-- A written word reads back. -/
@[simp] theorem Memory.word_setWord_same (m : Memory) (c : Chan) (i : Nat) (v : Word) :
    (m.setWord c i v).word c i = some v := by
  have h0 : (m.setWord c i v).byte (wordAddr c i) = some (byteOfWord v 0) := by
    rw [Memory.byte_setWord, if_neg (by omega), if_neg (by omega), if_neg (by omega), if_pos rfl]
  have h1 : (m.setWord c i v).byte (wordAddr c i + 1) = some (byteOfWord v 1) := by
    rw [Memory.byte_setWord, if_neg (by omega), if_neg (by omega), if_pos rfl]
  have h2 : (m.setWord c i v).byte (wordAddr c i + 2) = some (byteOfWord v 2) := by
    rw [Memory.byte_setWord, if_neg (by omega), if_pos rfl]
  have h3 : (m.setWord c i v).byte (wordAddr c i + 3) = some (byteOfWord v 3) := by
    rw [Memory.byte_setWord, if_pos rfl]
  unfold Memory.word
  rw [h0, h1, h2, h3]
  exact congrArg some (wordOfBytes_byteOfWord v)

/-- Two different words of the address space lie apart. -/
theorem wordAddr_apart {c d : Chan} {i j : Nat} (hi : i < 65536) (hj : j < 65536) (h : (d, j) ≠ (c, i)) :
    wordAddr d j + 4 ≤ wordAddr c i ∨ wordAddr c i + 4 ≤ wordAddr d j := by
  have hne : d ≠ c ∨ j ≠ i := by
    by_contra hc
    exact h (by rw [Classical.not_not.mp fun x => hc (.inl x), Classical.not_not.mp fun x => hc (.inr x)])
  cases c <;> cases d <;> simp only [wordAddr, chanNum] <;> simp at hne <;> omega

/-- Two words of one channel lie apart. -/
theorem wordAddr_apart_same (c : Chan) {i j : Nat} (h : j ≠ i) :
    wordAddr c j + 4 ≤ wordAddr c i ∨ wordAddr c i + 4 ≤ wordAddr c j := by
  simp only [wordAddr]
  omega

/-- A write leaves every word alone that lies apart from it. -/
theorem Memory.word_setWord_apart (m : Memory) {c d : Chan} {i j : Nat} (v : Word)
    (h : wordAddr d j + 4 ≤ wordAddr c i ∨ wordAddr c i + 4 ≤ wordAddr d j) :
    (m.setWord c i v).word d j = m.word d j :=
  Memory.word_congr fun k hk => Memory.byte_setWord_other m c i v (by omega)

theorem Memory.word_setWord_other (m : Memory) {c d : Chan} {i j : Nat} (v : Word) (hi : i < 65536) (hj : j < 65536)
    (h : (d, j) ≠ (c, i)) : (m.setWord c i v).word d j = m.word d j :=
  m.word_setWord_apart v (wordAddr_apart hi hj h)

theorem Memory.word_setWord_other_index (m : Memory) (c : Chan) {i j : Nat} (v : Word) (h : j ≠ i) :
    (m.setWord c i v).word c j = m.word c j :=
  m.word_setWord_apart v (wordAddr_apart_same c h)

/-- Writing a word keeps the canonical form. -/
theorem Memory.wf_setWord {m : Memory} (h : m.wf) (c : Chan) (i : Nat) (v : Word) : (m.setWord c i v).wf :=
  Memory.wf_setByte (Memory.wf_setByte (Memory.wf_setByte (Memory.wf_setByte h _ _) _ _) _ _) _ _

/-- `BLKMAX` lies between 1 and 65535 (spec/20_memory.md R61). -/
theorem blkmax_bounds : 1 ≤ Config.blkmax ∧ Config.blkmax ≤ 65535 := by
  have := Config.blkmaxPred.isLt
  unfold Config.blkmax
  omega

/-- A write inside the buffers keeps the memory made of whole words inside the buffers. -/
theorem Memory.wordsOnly_setWord {m : Memory} (h : m.WordsOnly) {c : Chan} {i : Nat} (hi : i < Config.blkmax)
    (v : Word) : (m.setWord c i v).WordsOnly := by
  intro a ha
  by_cases hin : a < wordAddr c i ∨ wordAddr c i + 4 ≤ a
  · rw [Memory.byte_setWord_other m c i v hin] at ha
    obtain ⟨d, j, hj, h1, h2, h3⟩ := h a ha
    refine ⟨d, j, hj, h1, h2, ?_⟩
    by_cases heq : (d, j) = (c, i)
    · cases heq
      simp
    · have := blkmax_bounds
      rw [Memory.word_setWord_other m v (by omega) (by omega) heq]
      exact h3
  · exact ⟨c, i, hi, by omega, by omega, by simp⟩

end Sys2Proof.Machine
end

