-- ==== Sys2Proof/Laws/Ops.lean ====
section
/-! SUPPORT. For each shared operation, once, everything it can do: the later proofs cite these and do not unfold the
operations again. -/

namespace Sys2Proof.Machine

/-! ### The error latch -/

/-- Everything raising an error can do. -/
theorem State.raise_cases (s : State) (e : Cause) (w : Word) :
    (s.err = true ∧ s.raise e w = s) ∨
    (s.err = false ∧ s.raise e w = { s with err := true, ecode := Cause.code e, eword := w }) := by
  unfold State.raise
  cases h : s.err <;> simp

theorem State.raise_of_err {s : State} (h : s.err = true) (e : Cause) (w : Word) : s.raise e w = s := by
  simp [State.raise, h]

theorem State.raise_of_clear {s : State} (h : s.err = false) (e : Cause) (w : Word) :
    s.raise e w = { s with err := true, ecode := Cause.code e, eword := w } := by
  simp [State.raise, h]

/-! ### Buffer reads -/

/-- Everything a read of a buffer word can do: the written word and no effect, or a fresh free value and the counter of
draws advanced. -/
theorem State.memRead_cases (s : State) (c : Chan) (i : Nat) :
    (∃ v, s.mem.word c i = some v ∧ s.memRead c i = (v, s)) ∨
    (s.mem.word c i = none ∧ s.memRead c i = (Config.freeWord s.draws, { s with draws := s.draws + 1 })) := by
  unfold State.memRead
  cases h : s.mem.word c i with
  | some v => exact .inl ⟨v, rfl, rfl⟩
  | none => exact .inr ⟨rfl, rfl⟩

theorem State.memRead_written {s : State} {c : Chan} {i : Nat} {v : Word} (h : s.mem.word c i = some v) :
    s.memRead c i = (v, s) := by
  simp [State.memRead, h]

/-- A read leaves everything but the counter of draws as it is. -/
theorem State.memRead_frame (s : State) (c : Chan) (i : Nat) :
    (s.memRead c i).2 = { s with draws := (s.memRead c i).2.draws } := by
  rcases s.memRead_cases c i with ⟨v, _, h⟩ | ⟨_, h⟩ <;> rw [h]

/-! ### Samples, stages and the chain: what they leave alone -/

/-- `PROC` and all it is made of write only the buffers, the histories, the cabinet unit's state and the model's two
counters. -/
def State.AudioFrame (s t : State) : Prop :=
  t = { s with mem := t.mem, hist := t.hist, cabst := t.cabst, draws := t.draws, rdySamples := t.rdySamples }

theorem State.AudioFrame.refl (s : State) : s.AudioFrame s := rfl

theorem State.AudioFrame.trans {s t u : State} (h : s.AudioFrame t) (k : t.AudioFrame u) : s.AudioFrame u := by
  unfold State.AudioFrame at *
  rw [k, h]

theorem State.memRead_audioFrame (s : State) (c : Chan) (i : Nat) : s.AudioFrame (s.memRead c i).2 := by
  rw [State.memRead_frame]
  rfl

theorem State.memWrite_audioFrame (s : State) (c : Chan) (i : Nat) (v : Word) : s.AudioFrame (s.memWrite c i v) := rfl

theorem State.stageSample_audioFrame (s : State) (c : Chan) (st : Stage) (x : Word) :
    s.AudioFrame (s.stageSample c st x).2 := by
  cases st <;> rfl

theorem State.sampleStep_audioFrame (s : State) (c : Chan) (st : Stage) (i : Nat) :
    s.AudioFrame (s.sampleStep c st i) :=
  ((s.memRead_audioFrame c i).trans (State.stageSample_audioFrame _ c st _)).trans
    (State.memWrite_audioFrame _ c i _)

theorem State.sampleLoop_audioFrame (s : State) (c : Chan) (st : Stage) (n : Nat) :
    s.AudioFrame (s.sampleLoop c st n) := by
  induction n with
  | zero => exact .refl s
  | succ n ih => exact ih.trans (State.sampleStep_audioFrame _ c st n)

theorem State.readFrom_audioFrame (s : State) (c : Chan) (i n : Nat) : s.AudioFrame (s.readFrom c i n).2 := by
  induction n generalizing s i with
  | zero => exact .refl s
  | succ n ih => exact (s.memRead_audioFrame c i).trans (ih _ (i + 1))

theorem State.writeFrom_audioFrame (s : State) (c : Chan) (i : Nat) (vs : List Word) :
    s.AudioFrame (s.writeFrom c i vs) := by
  induction vs generalizing s i with
  | nil => exact .refl s
  | cons v vs ih => exact (s.memWrite_audioFrame c i v).trans (ih _ (i + 1))

theorem State.sampleCabrdy_audioFrame (s : State) : s.AudioFrame s.sampleCabrdy.2 := rfl

theorem State.cabProcess_audioFrame (s : State) (c : Chan) (xs : List Word) : s.AudioFrame (s.cabProcess c xs).2 := rfl

theorem State.cabStep_audioFrame (s : State) (c : Chan) (n : Nat) : s.AudioFrame (s.cabStep c n) := by
  unfold State.cabStep
  simp only
  split
  · exact s.sampleCabrdy_audioFrame
  · exact ((s.sampleCabrdy_audioFrame.trans (State.readFrom_audioFrame _ c 0 n)).trans
      (State.cabProcess_audioFrame _ c _)).trans (State.writeFrom_audioFrame _ c 0 _)

theorem State.runStage_audioFrame (s : State) (c : Chan) (n : Nat) (st : Stage) : s.AudioFrame (s.runStage c n st) := by
  cases st <;> simp only [State.runStage] <;>
    first
    | exact s.cabStep_audioFrame c n
    | (split
       · exact .refl s
       · exact s.sampleLoop_audioFrame c _ n)

theorem State.runStages_audioFrame (s : State) (c : Chan) (n : Nat) (sts : List Stage) :
    s.AudioFrame (s.runStages c n sts) := by
  induction sts generalizing s with
  | nil => exact .refl s
  | cons st sts ih => exact (s.runStage_audioFrame c n st).trans (ih _)

theorem State.runChain_audioFrame (s : State) (c : Chan) (n : Nat) : s.AudioFrame (s.runChain c n) := by
  unfold State.runChain
  split
  · exact .refl s
  · exact s.runStages_audioFrame c n chain

/-! ### The canonical form is kept by everything that writes the buffers -/

theorem State.memRead_mem (s : State) (c : Chan) (i : Nat) : (s.memRead c i).2.mem = s.mem := by
  rw [State.memRead_frame]

theorem State.stageSample_mem (s : State) (c : Chan) (st : Stage) (x : Word) : (s.stageSample c st x).2.mem = s.mem := by
  cases st <;> rfl

/-- What one sample does to the buffers: one word written. -/
theorem State.sampleStep_mem (s : State) (c : Chan) (st : Stage) (i : Nat) :
    ∃ v, (s.sampleStep c st i).mem = s.mem.setWord c i v :=
  ⟨((s.memRead c i).2.stageSample c st (s.memRead c i).1).1, by
    unfold State.sampleStep
    simp only [State.memWrite_mem, State.stageSample_mem, State.memRead_mem]⟩

theorem State.readFrom_mem (s : State) (c : Chan) (i n : Nat) : (s.readFrom c i n).2.mem = s.mem := by
  induction n generalizing s i with
  | zero => rfl
  | succ n ih => exact (ih _ (i + 1)).trans (s.memRead_mem c i)

@[simp] theorem State.readFrom_length (s : State) (c : Chan) (i n : Nat) : (s.readFrom c i n).1.length = n := by
  induction n generalizing s i with
  | zero => rfl
  | succ n ih => exact congrArg (· + 1) (ih _ (i + 1))

@[simp] theorem cabBlock_length (h : List CabCall) (c : Chan) (xs : List Word) : (cabBlock h c xs).length = xs.length := by
  simp [cabBlock]

/-- An induction principle for the buffers: a property of memories that every write of a word `i` < `n` of the channel
keeps, is kept by `PROC`'s whole chain. -/
theorem State.runChain_mem_induction {P : Memory → Prop} (c : Chan) (n : Nat)
    (hw : ∀ m i v, i < n → P m → P (Memory.setWord m c i v)) (s : State) (h : P s.mem) : P (s.runChain c n).mem := by
  have hstep : ∀ (s : State) st i, i < n → P s.mem → P (s.sampleStep c st i).mem := fun s st i hi hs => by
    obtain ⟨v, hv⟩ := s.sampleStep_mem c st i
    rw [hv]
    exact hw _ _ _ hi hs
  have hloop : ∀ (s : State) st k, k ≤ n → P s.mem → P (s.sampleLoop c st k).mem := fun s st k => by
    induction k with
    | zero => exact fun _ hs => hs
    | succ k ih => exact fun hk hs => hstep _ st k hk (ih (by omega) hs)
  have hwr : ∀ (vs : List Word) (s : State) i, i + vs.length ≤ n → P s.mem → P (s.writeFrom c i vs).mem := fun vs => by
    induction vs with
    | nil => exact fun s i _ hs => hs
    | cons v vs ih =>
      intro s i hi hs
      simp only [List.length_cons] at hi
      exact ih _ (i + 1) (by omega) (hw _ _ _ (by omega) hs)
  have hstage : ∀ (s : State) st, P s.mem → P (s.runStage c n st).mem := fun s st hs => by
    cases st <;> simp only [State.runStage]
    case cab =>
      unfold State.cabStep
      simp only
      split
      · exact hs
      · refine hwr _ _ 0 ?_ ?_
        · simp [State.cabProcess]
        · simp only [State.cabProcess, State.readFrom_mem]
          exact hs
    all_goals
      split
      · exact hs
      · exact hloop _ _ n (Nat.le_refl n) hs
  have hstages : ∀ (sts : List Stage) (s : State), P s.mem → P (s.runStages c n sts).mem := fun sts => by
    induction sts with
    | nil => exact fun s hs => hs
    | cons st sts ih => exact fun s hs => ih _ (hstage s st hs)
  unfold State.runChain
  split
  · exact h
  · exact hstages chain s h

/-- `PROC`'s whole chain keeps the canonical form. -/
theorem State.runChain_wf (s : State) (c : Chan) (n : Nat) (h : s.mem.wf) : (s.runChain c n).mem.wf :=
  State.runChain_mem_induction (P := fun m => Memory.wf m) c n (fun _ i v _ hm => Memory.wf_setWord hm c i v) s h

/-- `PROC`'s whole chain leaves every byte outside words 0 to n-1 of its channel as it is. -/
theorem State.runChain_byte_other (s : State) (c : Chan) (n : Nat) {a : Nat}
    (h : a < wordAddr c 0 ∨ wordAddr c n ≤ a) : (s.runChain c n).mem.byte a = s.mem.byte a :=
  State.runChain_mem_induction (P := fun m => m.byte a = s.mem.byte a) c n
    (fun m i v hi hm => (Memory.byte_setWord_other m c i v (by simp only [wordAddr] at *; omega)).trans hm) s rfl

/-- Everything one sample of a written word does: the word becomes the stage function's output, and a filter cell's
history advances. -/
theorem State.sampleStep_written {s : State} {c : Chan} {i : Nat} {x : Word} (st : Stage)
    (h : s.mem.word c i = some x) :
    s.sampleStep c st i = (s.stageSample c st x).2.memWrite c i (s.stageSample c st x).1 := by
  unfold State.sampleStep
  rw [State.memRead_written h]

/-! ### The cabinet unit's impulse response (spec/42_stages.md R198, spec/44_system.md R232) -/

/-- Once loaded, the impulse response stays whatever calls follow. -/
theorem CabOnce.loaded {ir : List CabCall → Option (Nat → ℝ)} (h : CabOnce ir) {calls : List CabCall} {g : Nat → ℝ}
    (hg : ir calls = some g) (more : List CabCall) : ir (calls ++ more) = some g := by
  induction more generalizing calls with
  | nil => simpa using hg
  | cons c cs ih =>
    rw [List.append_cons]
    exact ih (h.2 calls c g hg)

/-- A further `PREP` loads no other impulse response. -/
theorem execPrep_loaded {ir : List CabCall → Option (Nat → ℝ)} (h : CabOnce ir) {s t : State} {sr bs : Word}
    {g : Nat → ℝ} (hg : ir s.cabst = some g) (ht : execPrep sr bs s = .next t) : ir t.cabst = some g := by
  unfold execPrep at ht
  split at ht
  · cases ht
    exact h.loaded hg [.prepare sr bs]
  · cases ht
    have : (s.reject .range (.prep sr bs)).cabst = s.cabst := by
      unfold State.reject State.raise
      split <;> rfl
    rw [this]
    exact hg

end Sys2Proof.Machine
end

