-- ==== Sys2Proof/Laws/Decode.lean ====
section
/-! SUPPORT. What the decoder answers, case by case, and what it says about lengths. -/

namespace Sys2Proof.Machine

/-- An opcode byte selects the command it is the code of, and no other (spec/30_encoding.md R97). -/
theorem Op.ofCode?_code (op : Op) : Op.ofCode? op.code = some op := by cases op <;> rfl

theorem Op.ofCode?_eq_some {b : BitVec 8} {op : Op} : Op.ofCode? b = some op ↔ op.code = b := by
  constructor
  · intro h
    have := List.find?_some h
    simpa using this
  · rintro rfl
    exact Op.ofCode?_code op

/-- The fourteen opcodes are different. -/
theorem Op.code_injective {a b : Op} (h : a.code = b.code) : a = b := by
  have := Op.ofCode?_code a
  rw [h, Op.ofCode?_code] at this
  exact (Option.some.inj this).symm

theorem Op.ofCode?_eq_none {b : BitVec 8} : Op.ofCode? b = none ↔ ∀ op : Op, op.code ≠ b := by
  constructor
  · intro h op hop
    rw [← hop, Op.ofCode?_code] at h
    exact absurd h (by simp)
  · intro h
    cases hb : Op.ofCode? b with
    | none => rfl
    | some op => exact absurd (Op.ofCode?_eq_some.mp hb) (h op)

theorem Op.length_pos (op : Op) : 1 ≤ op.length := by cases op <;> decide

theorem Op.length_le (op : Op) : op.length ≤ 9 := by cases op <;> decide

/-- An unassigned opcode (spec/30_encoding.md R102). -/
theorem decode_unassigned {w : Word} {rest : List Word} (h : Op.ofCode? (fieldOp w) = none) :
    decode (w :: rest) = .illegal .opcode w 1 := by
  simp [decode, h]

/-- An assigned opcode whose operand words are not all there (spec/30_encoding.md R96). -/
theorem decode_short {w : Word} {rest : List Word} {op : Op} (h : Op.ofCode? (fieldOp w) = some op)
    (hl : rest.length + 1 < op.length) : decode (w :: rest) = .incomplete := by
  simp [decode, h, hl]

/-- A reserved bit set (spec/30_encoding.md R101). -/
theorem decode_reserved {w : Word} {rest : List Word} {op : Op} (h : Op.ofCode? (fieldOp w) = some op)
    (hl : op.length ≤ rest.length + 1) (hm : w &&& op.format.mbz ≠ 0) :
    decode (w :: rest) = .illegal .rsvd w op.length := by
  simp only [decode, h, if_neg (Nat.not_lt.mpr hl)]
  exact if_neg hm

/-- A legal command (spec/30_encoding.md R100). -/
theorem decode_legal {w : Word} {rest : List Word} {op : Op} (h : Op.ofCode? (fieldOp w) = some op)
    (hl : op.length ≤ rest.length + 1) (hm : w &&& op.format.mbz = 0) :
    decode (w :: rest) = .ok (op.build w rest) op.length := by
  simp only [decode, h, if_neg (Nat.not_lt.mpr hl)]
  exact if_pos hm

/-- Everything the decoder can answer. -/
theorem decode_cases (ws : List Word) :
    (ws = [] ∧ decode ws = .incomplete) ∨
    ∃ w rest, ws = w :: rest ∧
      ((Op.ofCode? (fieldOp w) = none ∧ decode ws = .illegal .opcode w 1) ∨
       ∃ op, Op.ofCode? (fieldOp w) = some op ∧
        ((rest.length + 1 < op.length ∧ decode ws = .incomplete) ∨
         (op.length ≤ rest.length + 1 ∧ w &&& op.format.mbz ≠ 0 ∧ decode ws = .illegal .rsvd w op.length) ∨
         (op.length ≤ rest.length + 1 ∧ w &&& op.format.mbz = 0 ∧
          decode ws = .ok (op.build w rest) op.length))) := by
  cases ws with
  | nil => exact .inl ⟨rfl, rfl⟩
  | cons w rest =>
    refine .inr ⟨w, rest, rfl, ?_⟩
    cases h : Op.ofCode? (fieldOp w) with
    | none => exact .inl ⟨rfl, decode_unassigned h⟩
    | some op =>
      refine .inr ⟨op, rfl, ?_⟩
      by_cases hl : rest.length + 1 < op.length
      · exact .inl ⟨hl, decode_short h hl⟩
      · by_cases hm : w &&& op.format.mbz = 0
        · exact .inr (.inr ⟨Nat.not_lt.mp hl, hm, decode_legal h (Nat.not_lt.mp hl) hm⟩)
        · exact .inr (.inl ⟨Nat.not_lt.mp hl, hm, decode_reserved h (Nat.not_lt.mp hl) hm⟩)

/-- Everything a step can do. -/
theorem step_cases (s : State) :
    (decode s.stream = .incomplete ∧ step s = .next s.hold) ∨
    (∃ e w len, decode s.stream = .illegal e w len ∧ step s = .next ((s.consume len).raise e w)) ∨
    (∃ i len, decode s.stream = .ok i len ∧ step s = exec i (s.consume len)) := by
  unfold step
  cases h : decode s.stream with
  | incomplete => exact .inl ⟨rfl, rfl⟩
  | illegal e w len => exact .inr (.inl ⟨e, w, len, rfl, rfl⟩)
  | ok i len => exact .inr (.inr ⟨i, len, rfl, rfl⟩)

end Sys2Proof.Machine
end

