-- ==== Sys2Proof/Laws/Float.lean ====
section
/-! SUPPORT. Facts about the binary32 patterns: the classes by magnitude, packing and unpacking, the order of
magnitudes, and rounding of values that need none. -/

namespace Sys2Proof.Machine

/-! ### Sign and magnitude -/

theorem fsign_eq (w : Word) : fsign w = decide (2 ^ 31 ≤ w.toNat) := by
  simp [fsign, BitVec.msb_eq_decide]

theorem fmag_lt (w : Word) : fmag w < 2 ^ 31 := Nat.mod_lt _ (by decide)

theorem toNat_eq (w : Word) : w.toNat = fmag w + if fsign w then 2 ^ 31 else 0 := by
  have hw := w.isLt
  rw [fsign_eq]
  unfold fmag
  by_cases h : 2 ^ 31 ≤ w.toNat
  · simp only [h, decide_true, if_true]
    omega
  · simp only [h, decide_false, Bool.false_eq_true, if_false]
    omega

theorem toNat_fpack (s : Bool) {m : Nat} (h : m < 2 ^ 31) : (fpack s m).toNat = m + if s then 2 ^ 31 else 0 := by
  unfold fpack
  rw [BitVec.toNat_ofNat]
  apply Nat.mod_eq_of_lt
  cases s <;> simp <;> omega

@[simp] theorem fsign_fpack (s : Bool) {m : Nat} (h : m < 2 ^ 31) : fsign (fpack s m) = s := by
  rw [fsign_eq, toNat_fpack s h]
  cases s
  · simp only [Bool.false_eq_true, if_false, decide_eq_false_iff_not]
    omega
  · simp only [if_true, decide_eq_true_eq]
    omega

@[simp] theorem fmag_fpack (s : Bool) {m : Nat} (h : m < 2 ^ 31) : fmag (fpack s m) = m := by
  unfold fmag
  rw [toNat_fpack s h]
  cases s
  · simpa using h
  · simp only [if_true]
    omega

/-- A pattern is its sign and its magnitude bits. -/
theorem fpack_eta (w : Word) : fpack (fsign w) (fmag w) = w := by
  apply BitVec.eq_of_toNat_eq
  rw [toNat_fpack _ (fmag_lt w), ← toNat_eq]

theorem word_ext {a b : Word} (hs : fsign a = fsign b) (hm : fmag a = fmag b) : a = b := by
  rw [← fpack_eta a, ← fpack_eta b, hs, hm]

theorem fmag_eq_setWidth (w : Word) : fmag w = (w.setWidth 31).toNat := by
  rw [BitVec.toNat_setWidth]
  rfl

@[simp] theorem fmag_fneg (w : Word) : fmag (fneg w) = fmag w := by
  rw [fmag_eq_setWidth, fmag_eq_setWidth, fneg, BitVec.setWidth_xor]
  rw [show BitVec.setWidth 31 (0x80000000 : Word) = 0 from by decide]
  simp

@[simp] theorem fsign_fneg (w : Word) : fsign (fneg w) = !fsign w := by
  rw [fsign, fneg, BitVec.msb_xor, show (0x80000000 : Word).msb = true from by decide]
  simp [fsign]

theorem fneg_eq (w : Word) : fneg w = fpack (!fsign w) (fmag w) := by
  rw [← fpack_eta (fneg w), fsign_fneg, fmag_fneg]

@[simp] theorem fneg_fneg (w : Word) : fneg (fneg w) = w := word_ext (by simp) (by simp)

@[simp] theorem fmag_fabs (w : Word) : fmag (fabs w) = fmag w := by
  rw [fmag_eq_setWidth, fmag_eq_setWidth, fabs, BitVec.setWidth_and]
  rw [show BitVec.setWidth 31 (0x7FFFFFFF : Word) = BitVec.allOnes 31 from by decide]
  rw [BitVec.and_allOnes]

@[simp] theorem fsign_fabs (w : Word) : fsign (fabs w) = false := by
  rw [fsign, fabs, BitVec.msb_and, show (0x7FFFFFFF : Word).msb = false from by decide]
  simp

theorem fabs_eq (w : Word) : fabs w = fpack false (fmag w) := by
  rw [← fpack_eta (fabs w), fsign_fabs, fmag_fabs]

/-! ### The classes by magnitude (spec/40_numerics.md R131) -/

theorem fexp_eq (w : Word) : fexp w = fmag w / 2 ^ 23 := by
  unfold fexp fmag
  omega

theorem ffrac_eq (w : Word) : ffrac w = fmag w % 2 ^ 23 := by
  unfold ffrac fmag
  omega

theorem isNaN_iff (w : Word) : isNaN w = true ↔ infMag < fmag w := by
  have := fmag_lt w
  unfold isNaN infMag
  rw [fexp_eq, ffrac_eq]
  simp only [Bool.and_eq_true, beq_iff_eq, bne_iff_ne]
  omega

theorem isInf_iff (w : Word) : isInf w = true ↔ fmag w = infMag := by
  have := fmag_lt w
  unfold isInf infMag
  rw [fexp_eq, ffrac_eq]
  simp only [Bool.and_eq_true, beq_iff_eq]
  omega

theorem isZero_iff (w : Word) : isZero w = true ↔ fmag w = 0 := by
  unfold isZero
  rw [fexp_eq, ffrac_eq]
  simp only [Bool.and_eq_true, beq_iff_eq]
  omega

theorem isFinite_iff (w : Word) : isFinite w = true ↔ fmag w < infMag := by
  have := fmag_lt w
  unfold isFinite infMag
  rw [fexp_eq]
  simp only [bne_iff_ne]
  omega

@[simp] theorem isNaN_fneg (w : Word) : isNaN (fneg w) = isNaN w := by
  rw [Bool.eq_iff_iff, isNaN_iff, isNaN_iff, fmag_fneg]

@[simp] theorem isInf_fneg (w : Word) : isInf (fneg w) = isInf w := by
  rw [Bool.eq_iff_iff, isInf_iff, isInf_iff, fmag_fneg]

@[simp] theorem isZero_fneg (w : Word) : isZero (fneg w) = isZero w := by
  rw [Bool.eq_iff_iff, isZero_iff, isZero_iff, fmag_fneg]

@[simp] theorem isFinite_fneg (w : Word) : isFinite (fneg w) = isFinite w := by
  rw [Bool.eq_iff_iff, isFinite_iff, isFinite_iff, fmag_fneg]

/-- A finite pattern is no NaN and no infinity. -/
theorem isFinite_classes {w : Word} (h : isFinite w = true) : isNaN w = false ∧ isInf w = false := by
  have hm := (isFinite_iff w).mp h
  constructor
  · rw [Bool.eq_false_iff, ne_eq, isNaN_iff]; omega
  · rw [Bool.eq_false_iff, ne_eq, isInf_iff]; omega

/-- A generated NaN is a quiet NaN, whatever `NANGEN` is (spec/40_numerics.md R136). -/
theorem isQuietNaN_nangen (op : FOp) (a b : Word) : isQuietNaN (nangen op a b) = true := by
  unfold isQuietNaN
  rw [Bool.and_eq_true]
  constructor
  · rw [isNaN_iff, fmag_eq_setWidth, nangen, BitVec.setWidth_or, BitVec.toNat_or]
    have : (BitVec.setWidth 31 (0x7FC00000 : Word)).toNat = 0x7FC00000 := by decide
    rw [this]
    have := @Nat.right_le_or (BitVec.setWidth 31 (Config.nangenRaw op a b)).toNat 0x7FC00000
    unfold infMag
    omega
  · rw [nangen, BitVec.getLsbD_or]
    simp

theorem isNaN_nangen (op : FOp) (a b : Word) : isNaN (nangen op a b) = true := by
  have h := isQuietNaN_nangen op a b
  unfold isQuietNaN at h
  exact (Bool.and_eq_true _ _ ▸ h).1

/-! ### Magnitudes in units of 2^-149 -/

theorem funits_eq (w : Word) : funits w = magUnits (fmag w) := by
  unfold funits magUnits
  rw [fexp_eq, ffrac_eq]
  split
  · omega
  · rfl

theorem magUnits_le_iff {m n : Nat} : magUnits m ≤ magUnits n ↔ m ≤ n := magUnits_strictMono.le_iff_le

theorem magUnits_lt_iff {m n : Nat} : magUnits m < magUnits n ↔ m < n := magUnits_strictMono.lt_iff_lt

@[simp] theorem magUnits_zero : magUnits 0 = 0 := rfl

/-- A magnitude's units, by the exponent they are shifted by. -/
theorem magUnits_shape (m : Nat) :
    ∃ sh r, m = sh * 2 ^ 23 + r ∧ magUnits m = r * 2 ^ sh ∧ r < 2 ^ 24 ∧ (sh ≠ 0 → 2 ^ 23 ≤ r) := by
  by_cases h : m / 2 ^ 23 = 0
  · exact ⟨0, m, by omega, by rw [magUnits, if_pos h]; omega, by omega, fun h0 => absurd rfl h0⟩
  · refine ⟨m / 2 ^ 23 - 1, 2 ^ 23 + m % 2 ^ 23, ?_, ?_, by omega, fun _ => by omega⟩
    · have := Nat.div_add_mod m (2 ^ 23)
      omega
    · rw [magUnits, if_neg h]

/-! ### Rounding -/

theorem roundHalfEven_mul (q d : Nat) (hd : 0 < d) : roundHalfEven (q * d) d = q := by
  unfold roundHalfEven
  simp [Nat.mul_div_cancel q hd, hd]

/-- The shift `roundMag` takes for a value whose whole part is `r` × 2^`sh`. -/
theorem log2_shift {sh r : Nat} (h : r < 2 ^ 24) (h' : sh ≠ 0 → 2 ^ 23 ≤ r) : (r * 2 ^ sh).log2 - 23 = sh := by
  by_cases hs : sh = 0
  · subst hs
    by_cases hr : r = 0
    · subst hr; decide
    · have : (r * 2 ^ 0).log2 < 24 := (Nat.log2_lt (by simpa using hr)).mpr (by simpa using h)
      omega
  · have hr := h' hs
    have hne : r * 2 ^ sh ≠ 0 := Nat.mul_ne_zero (by omega) (Nat.two_pow_pos sh).ne'
    have h1 : (r * 2 ^ sh).log2 < 24 + sh := by
      rw [Nat.log2_lt hne, Nat.pow_add]
      exact Nat.mul_lt_mul_of_pos_right h (Nat.two_pow_pos sh)
    have h2 : 23 + sh ≤ (r * 2 ^ sh).log2 := by
      rw [Nat.le_log2 hne, Nat.pow_add]
      exact Nat.mul_le_mul_right _ hr
    omega

/-- A value that is a magnitude needs no rounding (spec/40_numerics.md R132). -/
theorem roundMag_exact {m d : Nat} (hd : 0 < d) (hm : m ≤ infMag) : roundMag (magUnits m * d) d = m := by
  obtain ⟨sh, r, h1, h2, h3, h4⟩ := magUnits_shape m
  unfold roundMag
  simp only [Nat.mul_div_cancel _ hd]
  rw [h2, log2_shift h3 h4]
  rw [show r * 2 ^ sh * d = r * (d * 2 ^ sh) by rw [Nat.mul_assoc, Nat.mul_comm (2 ^ sh) d]]
  rw [roundHalfEven_mul _ _ (Nat.mul_pos hd (Nat.two_pow_pos sh)), ← h1]
  exact Nat.min_eq_left hm

theorem roundMag_le (n d : Nat) : roundMag n d ≤ infMag := Nat.min_le_right _ _

theorem roundMag_lt (n d : Nat) : roundMag n d < 2 ^ 31 := Nat.lt_of_le_of_lt (roundMag_le n d) (by decide)

/-! ### The arctangent -/

/-- Everything `atanOf` can answer (spec/40_numerics.md R140). -/
theorem atanOf_cases (g : Nat → Nat) (a : Word) :
    (isNaN a = true ∧ atanOf g a = nangen .atan a 0) ∨ (isZero a = true ∧ atanOf g a = a) ∨
      (isInf a = true ∧ atanOf g a = fpack (fsign a) 0x3FC90FDB) ∨
      (0 < fmag a ∧ fmag a < infMag ∧ atanOf g a = fpack (fsign a) (g (fmag a))) := by
  unfold atanOf
  split
  · exact .inl ⟨‹_›, rfl⟩
  split
  · exact .inr (.inl ⟨‹_›, rfl⟩)
  split
  · exact .inr (.inr (.inl ⟨‹_›, rfl⟩))
  · rename_i h0 h1 h2
    rw [isNaN_iff] at h0
    rw [isZero_iff] at h1
    rw [isInf_iff] at h2
    exact .inr (.inr (.inr ⟨by omega, by omega, rfl⟩))

end Sys2Proof.Machine
end

