-- ==== Sys2Proof/Laws/PerInstr.lean ====
section
/-! SUPPORT. Statements about every instruction as syntax, one lemma per constructor of `Instr`. -/

namespace Sys2Proof.Laws.EncodedLength

/-- The encoding of an instruction has the length spec/30_encoding.md R93 gives its opcode, its head word holds the
opcode in bits 31:24, and its reserved field `z` is zero (R91). -/
def Statement (i : Instr) : Prop :=
  (encode i).length = i.op.length ∧ fieldOp i.head = i.op.code ∧ i.head.extractLsb' 17 3 = 0

theorem fieldOp_headWord (op : BitVec 8) (s : BitVec 4) (c : BitVec 1) (imm : BitVec 16) :
    fieldOp (headWord op s c imm) = op := by
  apply BitVec.eq_of_getLsbD_eq
  intro i hi
  simp only [fieldOp, headWord, BitVec.getLsbD_extractLsb', BitVec.getLsbD_append]
  simp only [hi, decide_true, Bool.true_and]
  rw [if_neg (by omega), if_neg (by omega), if_neg (by omega), if_neg (by omega)]
  congr 1
  omega

theorem reserved_headWord (op : BitVec 8) (s : BitVec 4) (c : BitVec 1) (imm : BitVec 16) :
    (headWord op s c imm).extractLsb' 17 3 = 0 := by
  apply BitVec.eq_of_getLsbD_eq
  intro i hi
  simp only [headWord, BitVec.getLsbD_extractLsb', BitVec.getLsbD_append]
  simp only [hi, decide_true, Bool.true_and]
  rw [if_neg (by omega), if_neg (by omega), if_pos (by omega)]
  simp

theorem nop : Statement .nop := ⟨rfl, fieldOp_headWord .., reserved_headWord ..⟩
theorem prep (sr bs : Word) : Statement (.prep sr bs) := ⟨rfl, fieldOp_headWord .., reserved_headWord ..⟩
theorem rsta : Statement .rsta := ⟨rfl, fieldOp_headWord .., reserved_headWord ..⟩
theorem rsts (st : Nat) : Statement (.rsts st) := ⟨rfl, fieldOp_headWord .., reserved_headWord ..⟩
theorem clre : Statement .clre := ⟨rfl, fieldOp_headWord .., reserved_headWord ..⟩
theorem ldg (st : Nat) (g : Word) : Statement (.ldg st g) := ⟨rfl, fieldOp_headWord .., reserved_headWord ..⟩
theorem ldd (st : Nat) (d : Word) : Statement (.ldd st d) := ⟨rfl, fieldOp_headWord .., reserved_headWord ..⟩
theorem ldc (st : Nat) (k : Coeffs) : Statement (.ldc st k) := ⟨rfl, fieldOp_headWord .., reserved_headWord ..⟩
theorem byp (st : Nat) (v : Bool) : Statement (.byp st v) := ⟨rfl, fieldOp_headWord .., reserved_headWord ..⟩
theorem wrs (c : Chan) (i : Nat) (v : Word) : Statement (.wrs c i v) :=
  ⟨rfl, fieldOp_headWord .., reserved_headWord ..⟩
theorem rds (c : Chan) (i : Nat) : Statement (.rds c i) := ⟨rfl, fieldOp_headWord .., reserved_headWord ..⟩
theorem proc (c : Chan) (n : Nat) : Statement (.proc c n) := ⟨rfl, fieldOp_headWord .., reserved_headWord ..⟩
theorem rdr (r : Nat) : Statement (.rdr r) := ⟨rfl, fieldOp_headWord .., reserved_headWord ..⟩
theorem rdp (c : Chan) (st : Nat) : Statement (.rdp c st) := ⟨rfl, fieldOp_headWord .., reserved_headWord ..⟩

end Sys2Proof.Laws.EncodedLength
end

