-- ==== Sys2Proof/Tests/Slice0.lean ====
section
/-! SUPPORT. The model's own tests. Expected values come from spec/95_test_vectors.md (the vector's id stands in the
comment) or from the rule named; none is the model's own answer. -/

namespace Sys2Proof.Tests

open Sys2Proof Sys2Proof.Machine

/-! ### WellFormed: an ill-formed term for each check -/

theorem test_wf_stage_rsts : (Instr.rsts 16).wf = false := by decide
theorem test_wf_stage_ldg : (Instr.ldg 16 0).wf = false := by decide
theorem test_wf_stage_ldd : (Instr.ldd 16 0).wf = false := by decide
theorem test_wf_stage_ldc : (Instr.ldc 16 resetCoeffs).wf = false := by decide
theorem test_wf_stage_byp : (Instr.byp 16 true).wf = false := by decide
theorem test_wf_stage_rdp : (Instr.rdp .left 16).wf = false := by decide
theorem test_wf_imm_wrs : (Instr.wrs .left 65536 0).wf = false := by decide
theorem test_wf_imm_rds : (Instr.rds .left 65536).wf = false := by decide
theorem test_wf_imm_proc : (Instr.proc .left 65536).wf = false := by decide
theorem test_wf_imm_rdr : (Instr.rdr 65536).wf = false := by decide
theorem test_wf_accepts : (Instr.rsts 15).wf = true ∧ (Instr.rdr 65535).wf = true := by decide

/-! ### Decoding: one word for every constructor (spec/95_test_vectors.md 2.1, spec/30_encoding.md R97, R105) -/

theorem test_decode_nop : decode [0x00000000] = .ok .nop 1 := by decide
theorem test_decode_prep : decode [0x01000000, 0x472C4400, 2] = .ok (.prep 0x472C4400 2) 3 := by decide
theorem test_decode_rsta : decode [0x02000000] = .ok .rsta 1 := by decide
theorem test_decode_rsts : decode [0x03600000] = .ok (.rsts 6) 1 := by decide
theorem test_decode_clre : decode [0x04000000] = .ok .clre 1 := by decide
theorem test_decode_ldg : decode [0x10700000, 0x3F000000] = .ok (.ldg 7 0x3F000000) 2 := by decide
theorem test_decode_ldd : decode [0x11300000, 0x41300000] = .ok (.ldd 3 0x41300000) 2 := by decide
theorem test_decode_ldc :
    decode [0x12600000, 1, 2, 3, 4, 5, 6, 7, 8] = .ok (.ldc 6 ⟨1, 2, 3, 4, 5, 6, 7, 8⟩) 9 := by decide
theorem test_decode_byp : decode [0x13800001] = .ok (.byp 8 true) 1 := by decide
theorem test_decode_wrs : decode [0x20010002, 0x3E800000] = .ok (.wrs .right 2 0x3E800000) 2 := by decide
theorem test_decode_rds : decode [0x2100000F] = .ok (.rds .left 15) 1 := by decide
theorem test_decode_proc : decode [0x22010040] = .ok (.proc .right 64) 1 := by decide
theorem test_decode_rdr : decode [0x30000007] = .ok (.rdr 7) 1 := by decide
theorem test_decode_rdp : decode [0x31610000] = .ok (.rdp .right 6) 1 := by decide

theorem test_encode_ldc : encode (.ldc 6 ⟨1, 2, 3, 4, 5, 6, 7, 8⟩) = [0x12600000, 1, 2, 3, 4, 5, 6, 7, 8] := by decide
theorem test_encode_rdp : encode (.rdp .right 6) = [0x31610000] := by decide
theorem test_encode_byp : encode (.byp 5 true) = [0x13500001] := by decide
theorem test_encode_proc : encode (.proc .right 64) = [0x22010040] := by decide

/-- (E1), (E2), (E3): unassigned opcodes. -/
theorem test_decode_unassigned :
    decode [0xFFFFFFFF] = .illegal .opcode 0xFFFFFFFF 1 ∧ decode [0x05000000] = .illegal .opcode 0x05000000 1 ∧
      decode [0x14300000] = .illegal .opcode 0x14300000 1 := by decide

/-- (E4), (E6), (E9), (E22), (E23), (E24): reserved bits come before the stage and the range. -/
theorem test_decode_reserved :
    decode [0x00000001] = .illegal .rsvd 0x00000001 1 ∧ decode [0x13500002] = .illegal .rsvd 0x13500002 1 ∧
      decode [0x13A20001] = .illegal .rsvd 0x13A20001 1 ∧ decode [0x30010000] = .illegal .rsvd 0x30010000 1 ∧
      decode [0x31310001] = .illegal .rsvd 0x31310001 1 ∧ decode [0x22800001] = .illegal .rsvd 0x22800001 1 := by decide

/-- (E5): an `LDC` with `z` = 1 is illegal and nine words long; with fewer words it is incomplete (P5). -/
theorem test_decode_reserved_ldc :
    decode [0x12620000, 0, 0, 0, 0, 0, 0, 0, 0] = .illegal .rsvd 0x12620000 9 ∧
      decode [0x12600000, 0x3F800000, 0] = .incomplete := by decide

/-- Bits 31..0 of a table word are the head word, the bits above are operand words. -/
theorem test_decodeTableWord :
    decodeTableWord 32 0x31610000 = some (.rdp .right 6) ∧
      decodeTableWord 64 (0x3F000000 * 2 ^ 32 + 0x10700000) = some (.ldg 7 0x3F000000) ∧
      decodeTableWord 32 0xFFFFFFFF = none := by decide

/-! ### Arithmetic (spec/95_test_vectors.md 2.2) -/

/-- (A1) to (A6), (A8). -/
theorem test_fadd :
    fadd 0x3F800000 0x33800000 = 0x3F800000 ∧ fadd 0x3F800000 0x33800001 = 0x3F800001 ∧
      fadd 0x3F800001 0x33800000 = 0x3F800002 ∧ fadd 0x3F800000 0xBF800000 = 0 ∧
      fadd 0x80000000 0x80000000 = 0x80000000 ∧ fadd 0 0x80000000 = 0 ∧
      fadd 0x7F7FFFFF 0x7F7FFFFF = 0x7F800000 := by decide

/-- (A9), (A10). -/
theorem test_fsub : fsub 0x80000000 0 = 0x80000000 ∧ fsub 0x80000000 0x80000000 = 0 := by decide

/-- (A12) to (A16), (A18), (A19). -/
theorem test_fmul :
    fmul 0x3DCCCCCD 0x3DCCCCCD = 0x3C23D70B ∧ fmul 0x00800000 0x3F000000 = 0x00400000 ∧
      fmul 0x00000001 0x3F000000 = 0 ∧ fmul 0x00000003 0x3F000000 = 2 ∧ fmul 0x00000001 0x40000000 = 2 ∧
      fmul 0xBF800000 0 = 0x80000000 ∧ fmul 0x7F7FFFFF 0x40000000 = 0x7F800000 := by decide

/-- (A30), (A31), (A32). -/
theorem test_fmul_twoOverPi :
    fmul twoOverPi 0x3FC90FDB = 0x3F800000 ∧ fmul twoOverPi 0x3F490FDB = 0x3F000000 ∧
      fmul twoOverPi 0x3FC90FDA = 0x3F7FFFFF := by decide

/-- (A20) to (A24), (A27) to (A29). -/
theorem test_fdiv :
    fdiv 0x3F800000 0x40400000 = 0x3EAAAAAB ∧ fdiv 0x40400000 0x40000000 = 0x3FC00000 ∧
      fdiv 0x3F800000 0 = 0x7F800000 ∧ fdiv 0xBF800000 0 = 0xFF800000 ∧ fdiv 0x3F800000 0x80000000 = 0xFF800000 ∧
      fdiv 0x7F800000 0 = 0x7F800000 ∧ fdiv 0x3F800000 0x7F800000 = 0 ∧ fdiv 0 0xC0000000 = 0x80000000 := by decide

/-! ### Stages (spec/95_test_vectors.md 2.4, 2.5) -/

/-- (C1), the example of spec/42_stages.md R186. -/
theorem test_cell_one_pole :
    cellRun ⟨0x3F800000, 0, 0, 0, 0x3F800000, 0xBF000000, 0, 0⟩ resetHist [0x3F800000, 0, 0] =
      ([0x3F800000, 0x3F000000, 0x3E800000], ⟨0, 0, 0x3F800000, 0x3E800000, 0x3F000000, 0x3F800000⟩) := by decide

/-- (C3): all eight coefficients in use. -/
theorem test_cell_order_three :
    cellRun ⟨0x3F000000, 0x3E800000, 0x3E000000, 0x3F800000, 0x3F800000, 0xBF000000, 0x3E800000, 0xBE000000⟩
        resetHist [0x3F800000, 0, 0, 0, 0] =
      ([0x3F000000, 0x3F000000, 0x3E800000, 0x3F880000, 0x3F080000],
        ⟨0, 0, 0, 0x3F080000, 0x3F880000, 0x3E800000⟩) := by decide

/-- (C2), (C4), (C6). -/
theorem test_cell_outputs :
    (cellRun ⟨0x3F800000, 0x3F800000, 0, 0, 0x40000000, 0, 0, 0⟩ resetHist [0x3F800000, 0x40400000]).1 =
        [0x3F000000, 0x40000000] ∧
      (cellRun ⟨0x3DCCCCCD, 0x3E4CCCCD, 0, 0, 0x3F800000, 0xBE99999A, 0, 0⟩ resetHist [0x3F333333, 0x3F666666]).1 =
        [0x3D8F5C29, 0x3E808312] ∧
      cellOut resetCoeffs resetHist 0x80000000 = 0 := by decide

/-- (W1), (W3), (W4), (W14), (W16), (W19): arguments of the arctangent that are zeros or infinities. -/
theorem test_shape :
    shapeOut 0 0x3F800000 = 0x3F800000 ∧ shapeOut 0 0x80000000 = 0x80000000 ∧ shapeOut 0 1 = 1 ∧
      shapeOut 0x7F800000 0x3F000000 = 0x3FC00000 ∧ shapeOut 0x7F7FFFFF 0x40000000 = 0x40400000 ∧
      shapeOut 0x41300000 0x7F800000 = 0x7F800000 := by decide

/-! ### One step of each command (spec/95_test_vectors.md 2.1, 2.3, 2.6, 2.7) -/

/-- The state one step after words are delivered. -/
def after (s : State) (ws : List Word) : State :=
  match step (s.deliver ws) with
  | .next t => t
  | .fault _ => s
  | .refused _ => s

/-- A state whose sample buffers hold one written word each, for a block size of 1. -/
def written : State :=
  { State.reset with
    blksz := 1
    mem := Memory.setWord (Memory.setWord [] .left 0 0x3F8CCCCD) .right 0 0x3E800000 }

/-- `written` with a history that is not zero in stages 2 and 4 of channel 0. -/
def ringing : State :=
  (written.setHist .left .hp1 ⟨0xC2F6E979, 0x3F8CCCCD, 0, 0xC2F6E979, 0x3F8CCCCD, 0⟩).setHist .left .hp2
    ⟨0xC2F6E979, 0x3F8CCCCD, 0, 0xC2F6E979, 0x3F8CCCCD, 0⟩

/-- (Y1). -/
theorem test_step_nop : (after State.reset [0x00000000]).cp = 1 ∧ (after State.reset [0x00000000]).err = false := by
  decide

/-- (Y2), with a block size every implementation accepts. -/
theorem test_step_prep :
    (after State.reset [0x01000000, 0x473B8000, 1]).srate = 0x473B8000 ∧
      (after State.reset [0x01000000, 0x473B8000, 1]).blksz = 1 := by decide

/-- (E18), (E20). -/
theorem test_step_prep_range :
    (after State.reset [0x01000000, 0x473B8000, 0]).ecode = 4 ∧
      (after State.reset [0x01000000, 0x473B8000, 0]).eword = 0x01000000 := by decide

/-- (Y5). -/
theorem test_step_rsta :
    (after ringing [0x02000000]).hist = State.reset.hist ∧ (after ringing [0x02000000]).mem = ringing.mem := by decide

/-- (Y6): stage 2 is cleared, stage 4 is kept. -/
theorem test_step_rsts :
    (after ringing [0x03200000]).histOf .left .hp1 = resetHist ∧
      (after ringing [0x03200000]).histOf .left .hp2 = ⟨0xC2F6E979, 0x3F8CCCCD, 0, 0xC2F6E979, 0x3F8CCCCD, 0⟩ := by
  decide

/-- (Y10): the latch of (E1) cleared. -/
theorem test_step_clre :
    (after State.reset [0xFFFFFFFF]).eword = 0xFFFFFFFF ∧
      (after { State.reset with err := true, ecode := 1, eword := 0xFFFFFFFF } [0x04000000]).eword = 0 := by decide

/-- (Y11), (Y12): a malformed `CLRE`. -/
theorem test_step_clre_malformed :
    (after { State.reset with err := true, ecode := 1, eword := 0xFFFFFFFF } [0x04000001]).ecode = 1 ∧
      (after State.reset [0x04000001]).ecode = 2 := by decide

/-- (I1). -/
theorem test_step_ldg :
    (after State.reset [0x10700000, 0x3F000000]).gainOf .right .vol = 0x3F000000 ∧
      (after State.reset [0x10700000, 0x3F000000]).gainOf .left .out = 0x3F800000 := by decide

/-- (E10). -/
theorem test_step_ldg_stage :
    (after State.reset [0x10200000, 0x3F800000]).ecode = 3 ∧ (after State.reset [0x10200000, 0x3F800000]).cp = 2 := by
  decide

/-- (I2), (E11). -/
theorem test_step_ldd :
    (after State.reset [0x11300000, 0x41300000]).drive = ⟨0x41300000, 0x41300000⟩ ∧
      (after State.reset [0x11100000, 0x41300000]).ecode = 3 := by decide

/-- (I4), (E12). -/
theorem test_step_ldc :
    (after State.reset [0x12600000, 1, 2, 3, 4, 5, 6, 7, 8]).coefOf .right .tone = ⟨1, 2, 3, 4, 5, 6, 7, 8⟩ ∧
      (after State.reset [0x12300000, 1, 2, 3, 4, 5, 6, 7, 8]).ecode = 3 := by decide

/-- (I6), (E8). -/
theorem test_step_byp :
    (after State.reset [0x13500000]).bypassWord .right = 0x00000080 ∧ (after State.reset [0x13000001]).ecode = 3 := by
  decide

/-- (X2), at an index every implementation has. -/
theorem test_step_wrs : (after State.reset [0x20010000, 0x3E800000]).mem.word .right 0 = some 0x3E800000 := by decide

/-- (X2): the read back. -/
theorem test_step_rds : (after written [0x21010000]).responses = [0x3E800000] := by decide

/-- (X1): the reset configuration passes a finite sample and its histories take it in. -/
theorem test_step_proc :
    (after written [0x22000001]).mem.word .left 0 = some 0x3F8CCCCD ∧
      (after written [0x22000001]).histOf .left .tone = ⟨0x3F8CCCCD, 0, 0, 0x3F8CCCCD, 0, 0⟩ := by
  decide +kernel

/-- (E16), (E17). -/
theorem test_step_proc_range :
    (after State.reset [0x22000001]).ecode = 4 ∧ (after State.reset [0x22000000]).err = false := by decide

/-- (Y3). -/
theorem test_step_rdr :
    (after State.reset [0x30000000]).responses = [0x53435031] ∧
      (after State.reset [0x30000006]).responses = [0x00000090] := by decide

/-- (E21). -/
theorem test_step_rdr_range :
    (after State.reset [0x30000008]).ecode = 4 ∧ (after State.reset [0x30000008]).responses = [] := by decide

/-- (Y13). -/
theorem test_step_rdp :
    (after State.reset [0x31600000]).responses = [0x3F800000, 0, 0, 0, 0x3F800000, 0, 0, 0] ∧
      (after State.reset [0x31310000]).responses = [0x00000000] := by decide

/-- (E13), and a stage number outside 1..9. -/
theorem test_step_rdp_stage :
    (after State.reset [0x31800000]).ecode = 3 ∧ (after State.reset [0x31A00000]).responses = [] := by decide

/-- P5: after its `NOP`, the stream ends inside an `LDC`; three more words are counted and nothing is written. -/
theorem test_step_incomplete :
    (after State.reset [0x12600000, 0x3F800000, 0]).cp = 3 ∧
      (after State.reset [0x12600000, 0x3F800000, 0]).held = [0x12600000, 0x3F800000, 0] := by decide

/-- The placed instruction is the one the next step runs. -/
theorem test_withFetchWord :
    (after (State.reset.withFetchWord 64 (0x3F000000 * 2 ^ 32 + 0x10700000)) []).gainOf .left .vol = 0x3F000000 ∧
      (after (State.reset.withFetchWord 32 0x31300000) []).responses = [0x00000000] := by decide

/-! ### Witnesses: for each statement of Certificates/Slice0/Obligations.lean with hypotheses, a concrete input that
meets all of them, one for each clause, at the boundary values of its range -/

theorem written_inv : written.Inv where
  memCanonical := by decide
  memWords := Memory.wordsOnly_setWord
    (Memory.wordsOnly_setWord (m := []) (by intro a h; simp [Memory.byte] at h) blkmax_bounds.1 _) blkmax_bounds.1 _
  copies := by simp only [State.CopiesAgree]; decide
  latch := by simp only [State.LatchOk]; decide
  blockSize := blkmax_bounds.1
  held := ⟨by decide, by decide⟩

theorem written_block (c : Chan) : written.Block c 1 (fun _ => (written.mem.word c 0).getD 0) := by
  intro i hi
  obtain rfl : i = 0 := by omega
  cases c <;> decide

theorem resetHist_word {w : Word} (h : w ∈ resetHist.words) : w = 0 := by simpa [Hist.words, resetHist] using h

theorem resetCoeffs_proper : ProperCoeffs resetCoeffs := by
  refine ⟨fun w h => ?_, by decide⟩
  have h' : w = 0x3F800000 ∨ w = 0 := by
    simp only [Coeffs.words, resetCoeffs, List.mem_cons, List.not_mem_nil, or_false] at h
    tauto
  obtain rfl | rfl := h'
  · decide
  · decide

theorem witness_EncodedInstructionDecodes :
    (Instr.rsts 15).wf = true ∧ (Instr.wrs .right 65535 0xFFFFFFFF).wf = true ∧ (Instr.rdp .right 0).wf = true := by
  decide

theorem witness_DecodedWordsAreTheEncoding :
    decode [0x13F00001, 7] = .ok (.byp 15 true) 1 ∧ decode [0x20010000, 5] = .ok (.wrs .right 0 5) 2 := by decide

theorem witness_UnassignedOpcodeLatched :
    (State.reset.deliver [0x32000000]).held = [] ∧ (State.reset.deliver [0x32000000]).input = 0x32000000 :: [] ∧
      ∀ op : Op, op.code ≠ (0x32000000 : Word).extractLsb' 24 8 := by
  refine ⟨rfl, rfl, fun op => ?_⟩
  cases op <;> decide

theorem witness_ReservedBitsLatched :
    (State.reset.deliver [0x12620000, 1, 2, 3, 4, 5, 6, 7, 8]).held = [] ∧
      (0x12620000 : Word).extractLsb' 24 8 = Op.ldc.code ∧ Op.ldc.length ≤ [1, 2, 3, 4, 5, 6, 7, 8].length + 1 ∧
      (0x12620000 : Word) &&& Op.ldc.format.mbz ≠ 0 ∧
      (0x00000001 : Word).extractLsb' 24 8 = Op.nop.code ∧ (0x00000001 : Word) &&& Op.nop.format.mbz ≠ 0 := by decide

theorem witness_IncompleteCommandIsHeld :
    (State.reset.deliver [0x12600000, 1, 2, 3, 4, 5, 6, 7]).held = [] ∧
      (0x12600000 : Word).extractLsb' 24 8 = Op.ldc.code ∧ [1, 2, 3, 4, 5, 6, 7].length + 1 < Op.ldc.length := by decide

theorem witness_PausedCommandResumes :
    decode (State.reset.deliver [0x10700000]).stream = .incomplete ∧ decode State.reset.stream = .incomplete := by decide

theorem witness_StepRunsTheDecodedInstruction :
    (Instr.ldg 7 5).wf = true ∧
      ({ State.reset with held := [0x10700000], input := [5, 0] } : State).stream = encode (.ldg 7 5) ++ [0] := by decide

theorem witness_StepConsumesTheOpcodesLength :
    decode [0x10700000] = .incomplete ∧
      ({ State.reset with held := [0x10700000], input := [5, 0] } : State).stream = 0x10700000 :: [5, 0] ∧
      decode ({ State.reset with held := [0x10700000], input := [5, 0] } : State).stream ≠ .incomplete ∧
      ∃ t, step { State.reset with held := [0x10700000], input := [5, 0] } = .next t :=
  ⟨by decide, by decide, by decide, _, rfl⟩

theorem witness_FirstErrorWinsAndSticks :
    State.reset.err = false ∧
      ∃ s t : State, s.err = true ∧ step s = .next t ∧ ∀ len, decode s.stream ≠ .ok .clre len :=
  ⟨rfl, { State.reset with err := true, ecode := 1, eword := 5, input := [0x13A00001] }, _, rfl, rfl, by
    intro len h
    have e : decode ({ State.reset with err := true, ecode := 1, eword := 5, input := [0x13A00001] } : State).stream =
      .ok (.byp 10 true) 1 := by decide
    rw [e] at h
    cases h⟩

theorem witness_LatchRecordsTheHeadWord :
    (State.reset.deliver [0x13A00001]).err = false ∧ (State.reset.deliver [0x13A00001]).stream = 0x13A00001 :: [] ∧
      ∃ t, step (State.reset.deliver [0x13A00001]) = .next t ∧ t.err = true :=
  ⟨rfl, rfl, _, rfl, by decide⟩

theorem witness_StageErrorsOnlyLatch :
    (8 ∉ [1, 7, 9] ∧ 0 ∉ [1, 7, 9] ∧ 15 ∉ [1, 7, 9]) ∧ (2 ≠ 3 ∧ 4 ≠ 3) ∧ (3 ∉ [2, 4, 5, 6] ∧ 7 ∉ [2, 4, 5, 6]) ∧
      (10 = 0 ∨ 10 ≤ 10) ∧ (15 = 0 ∨ 10 ≤ 15) ∧ (8 = 0 ∨ 8 = 8 ∨ 10 ≤ 8) := by decide

theorem witness_RangeErrorsOnlyLatch :
    Config.blkmax ≤ Config.blkmax ∧ Config.blkmax ≤ 65535 ∧ written.blksz.toNat < 2 ∧ State.reset.blksz.toNat < 1 ∧
      Config.blkmax < (BitVec.ofNat 32 (Config.blkmax + 1)).toNat ∧ Config.blkmax < (0xFFFFFFFF : Word).toNat ∧ 8 ≤ 8 := by
  have h := blkmax_bounds
  refine ⟨le_refl _, h.2, by decide, by decide, ?_, ?_, by decide⟩
  · rw [BitVec.toNat_ofNat, Nat.mod_eq_of_lt (by omega)]
    omega
  · have : (0xFFFFFFFF : Word).toNat = 4294967295 := rfl
    omega

theorem witness_PrepStartsASession :
    (1 ≤ (1 : Word).toNat ∧ (1 : Word).toNat ≤ Config.blkmax) ∧
      1 ≤ (BitVec.ofNat 32 Config.blkmax).toNat ∧ (BitVec.ofNat 32 Config.blkmax).toNat ≤ Config.blkmax := by
  have h := blkmax_bounds
  rw [BitVec.toNat_ofNat, Nat.mod_eq_of_lt (by omega)]
  exact ⟨⟨by decide, h.1⟩, h.1, le_refl _⟩

/-- For `RstsResetsOneStage`, `LdcInstallsTheTuple` and `RdpEmitsInstalledWords`, then `LdgInstallsTheGain` and
`RdpEmitsInstalledWords`, then `RstsResetsOneStage`, then `BypSetsTheFlag` and `BypassWordFlags`. -/
theorem witness_stage_numbers :
    ((2, FiltStage.hp1) ∈ [(2, .hp1), (4, .hp2), (5, .shelf), (6, .tone)] ∧
        (6, FiltStage.tone) ∈ [(2, .hp1), (4, .hp2), (5, .shelf), (6, .tone)]) ∧
      ((1, GainStage.input) ∈ [(1, .input), (7, .vol), (9, .out)] ∧
        (9, GainStage.out) ∈ [(1, .input), (7, .vol), (9, .out)]) ∧
      9 ∈ [1, 3, 7, 9] ∧ stageOf? 1 = some (.gain .input) ∧ stageOf? 9 = some (.gain .out) := by decide

/-- For `WrsStoresTheSample`, `RdsEmitsTheSample` (a written word, a word never written) and
`MemWriteChangesOneWord`. -/
theorem witness_buffer_words :
    0 < Config.blkmax ∧ Config.blkmax - 1 < Config.blkmax ∧ written.mem.word .left 0 = some 0x3F8CCCCD ∧
      State.reset.mem.word .left 0 = none ∧ (Chan.right, 0) ≠ (Chan.left, 0) := by
  have h := blkmax_bounds
  exact ⟨by omega, by omega, by decide, by decide, by decide⟩

/-- `n` = 0 and `n` = `BLKSZ`, a bypassed filter, a bypassed cabinet. -/
theorem witness_ProcCompletesWithFrame :
    0 ≤ written.blksz.toNat ∧ 1 ≤ written.blksz.toNat ∧ Chan.right ≠ Chan.left ∧
      written.bypOf .left (.filt .shelf) = true ∧ written.bypOf .left .cab = true := by decide

theorem witness_ProcAppliesTheChain :
    0 < [(0x3F8CCCCD : Word)].length ∧ [(0x3F8CCCCD : Word)].length ≤ written.blksz.toNat ∧
      written.Block .left [(0x3F8CCCCD : Word)].length (fun i => [(0x3F8CCCCD : Word)].getD i 0) ∧
      written.bypOf .left (.filt .hp1) = false := by
  refine ⟨by decide, by decide, ?_, by decide⟩
  intro i hi
  obtain rfl : i = 0 := Nat.lt_one_iff.mp hi
  decide

theorem witness_BypassedStageIsIdentity :
    Stage.filt .shelf ≠ .cab ∧ written.bypOf .right (.filt .shelf) = true ∧ written.bypOf .right .cab = true := by decide

theorem witness_StatelessStagesMapTheBlock :
    written.Block .right 1 (fun _ => (written.mem.word .right 0).getD 0) ∧
      written.bypOf .right (.gain .vol) = false ∧ written.bypOf .right .shaper = false :=
  ⟨written_block .right, by decide, by decide⟩

/-- Two states that differ in the other channel, in the cabinet unit's state and in the sample rate. -/
theorem witness_ProcSeesOnlyItsChannel :
    ∃ s s' : State, ∃ xs, s ≠ s' ∧ 1 ≤ s.blksz.toNat ∧ 1 ≤ s'.blksz.toNat ∧ s.Block .left 1 xs ∧ s'.Block .left 1 xs ∧
      s.cabBypassed .left (Config.cabrdy s.rdySamples) = s'.cabBypassed .left (Config.cabrdy s'.rdySamples) ∧
      s.cabBypassed .left (Config.cabrdy s.rdySamples) = true ∧
      s.gain.get .left = s'.gain.get .left ∧ s.drive.get .left = s'.drive.get .left ∧
      s.coef.get .left = s'.coef.get .left ∧ s.byp.get .left = s'.byp.get .left ∧ s.hist.get .left = s'.hist.get .left :=
  ⟨written, { written with drive := ⟨0, 5⟩, srate := 9, cabst := [.reset .left] }, _, by decide, by decide, by decide,
    written_block .left, written_block .left, rfl, rfl, rfl, rfl, rfl, rfl, rfl⟩

/-- The two channels with one block and equal histories. -/
def alike : State :=
  { State.reset with
    blksz := 1, mem := Memory.setWord (Memory.setWord [] .left 0 0x3F8CCCCD) .right 0 0x3F8CCCCD }

theorem alike_inv : alike.Inv where
  memCanonical := by decide
  memWords := Memory.wordsOnly_setWord
    (Memory.wordsOnly_setWord (m := []) (by intro a h; simp [Memory.byte] at h) blkmax_bounds.1 _) blkmax_bounds.1 _
  copies := written_inv.copies
  latch := written_inv.latch
  blockSize := blkmax_bounds.1
  held := written_inv.held

theorem witness_ChannelsCommute :
    (written.Inv ∧ 1 ≤ written.blksz.toNat ∧ written.Block .left 1 (fun _ => (written.mem.word .left 0).getD 0) ∧
      written.Block .right 1 (fun _ => (written.mem.word .right 0).getD 0) ∧
      (∀ c, written.cabBypassed c (Config.cabrdy written.rdySamples) =
        written.cabBypassed c (Config.cabrdy (written.rdySamples + 1))) ∧
      written.cabBypassed .left (Config.cabrdy written.rdySamples) = true) ∧
    (alike.Inv ∧ 1 ≤ alike.blksz.toNat ∧ alike.Block .left 1 (fun _ => 0x3F8CCCCD) ∧
      alike.Block .right 1 (fun _ => 0x3F8CCCCD) ∧ alike.hist.left = alike.hist.right ∧
      alike.cabBypassed .left (Config.cabrdy alike.rdySamples) = true ∧
      alike.cabBypassed .right (Config.cabrdy (alike.rdySamples + 1)) = true) := by
  refine ⟨⟨written_inv, by decide, written_block .left, written_block .right, fun c => by cases c <;> rfl, rfl⟩,
    alike_inv, by decide, ?_, ?_, rfl, rfl, rfl⟩
  · intro i hi
    obtain rfl : i = 0 := by omega
    decide
  · intro i hi
    obtain rfl : i = 0 := by omega
    decide

theorem witness_NestingIsUnobservable :
    written.mem.wf ∧ 0 < 1 ∧ 1 ≤ written.blksz.toNat ∧ written.Block .left 1 (fun _ => (written.mem.word .left 0).getD 0) ∧
      written.cabBypassed .left (Config.cabrdy written.rdySamples) = true :=
  ⟨written_inv.memCanonical, by decide, by decide, written_block .left, rfl⟩

/-- A block of 0.5, 0.25 for a block size of 2. -/
def twoSamples : State :=
  { State.reset with blksz := 2, mem := Memory.setWord (Memory.setWord [] .left 0 0x3F000000) .left 1 0x3E800000 }

/-- The second sample moved to the front, with the histories the first sample leaves. -/
def secondSample : State :=
  { State.reset with
    blksz := 2
    mem := Memory.setWord [] .left 0 0x3E800000
    hist := (twoSamples.runChain .left 1).hist }

/-- A block of 0.5, 0.25 split into two blocks of one sample, from the reset configuration. -/
theorem witness_SplittingABlockChangesNothing :
    1 + 1 ≤ twoSamples.blksz.toNat ∧ 1 ≤ secondSample.blksz.toNat ∧
      twoSamples.Block .left (1 + 1) (fun i => if i = 0 then 0x3F000000 else 0x3E800000) ∧
      twoSamples.cabBypassed .left (Config.cabrdy twoSamples.rdySamples) = true ∧ exec (.proc .left 1) twoSamples = .next (twoSamples.runChain .left 1) ∧
      secondSample.Block .left 1 (fun i => if 1 + i = 0 then 0x3F000000 else 0x3E800000) ∧
      secondSample.gain = twoSamples.gain ∧ secondSample.drive = twoSamples.drive ∧
      secondSample.coef = twoSamples.coef ∧ secondSample.byp = twoSamples.byp ∧
      secondSample.hist = (twoSamples.runChain .left 1).hist ∧
      secondSample.cabBypassed .left (Config.cabrdy secondSample.rdySamples) =
        twoSamples.cabBypassed .left (Config.cabrdy twoSamples.rdySamples) := by
  refine ⟨by decide, by decide, ?_, rfl, ?_, ?_, rfl, rfl, rfl, rfl, by simp only [secondSample], rfl⟩
  · intro i hi
    obtain rfl | rfl : i = 0 ∨ i = 1 := by omega
    · decide +kernel
    · decide +kernel
  · simp only [exec, execProc, show countOk 1 twoSamples = true by decide, if_true]
  · intro i hi
    obtain rfl : i = 0 := by omega
    decide +kernel

/-- Zeros of both signs, the reset configuration, histories of zeros. -/
theorem witness_SilentBlockStaysSilent :
    ∃ s : State, ∃ xs : Nat → Word, 1 ≤ s.blksz.toNat ∧ s.Block .left 1 xs ∧ (∀ i, i < 1 → isZero (xs i) = true) ∧
      s.cabBypassed .left (Config.cabrdy s.rdySamples) = true ∧ s.bypOf .left (.filt .hp1) = false ∧
      (∀ f, ProperCoeffs (s.coefOf .left f) ∧ ∀ w ∈ (s.histOf .left f).words, isZero w = true) ∧
      (∀ g, isFinite (s.gainOf .left g) = true) ∧ isFinite (s.driveOf .left) = true := by
  refine ⟨{ written with mem := Memory.setWord [] .left 0 0x80000000 }, fun _ => 0x80000000, by decide, ?_,
    fun _ _ => (by decide : isZero 0x80000000 = true), rfl, by decide, ?_, ?_, by decide⟩
  · intro i hi
    obtain rfl : i = 0 := by omega
    decide
  · intro f
    have hk : State.coefOf { written with mem := Memory.setWord [] .left 0 0x80000000 } .left f = resetCoeffs := by
      cases f <;> rfl
    have hh : State.histOf { written with mem := Memory.setWord [] .left 0 0x80000000 } .left f = resetHist := by
      cases f <;> rfl
    rw [hk, hh]
    exact ⟨resetCoeffs_proper, fun w h => resetHist_word h ▸ (by decide : isZero 0 = true)⟩
  · intro g
    cases g <;> decide

/-- The premises on the cabinet unit can be met: a unit that gives back the block it is handed meets `cab_chan`,
`cab_silent` and the property of splitting. -/
theorem witness_cabinet_premises :
    CabChan (fun _ _ xs i => xs.getD i 0) ∧ CabSilent (fun _ _ xs i => xs.getD i 0) ∧
      CabSplits (fun _ _ xs i => xs.getD i 0) ∧
      ∀ b ∈ blocksSinceReset .left (written.cabst).reverse, ∀ w ∈ b, isZero w = true := by
  refine ⟨fun _ _ _ _ => rfl, ?_, ?_, by decide⟩
  · intro h c xs i hz hi
    show isZero (xs.getD i 0) = true
    rw [List.getD_eq_getElem _ _ hi]
    exact hz xs (List.mem_cons_self ..) _ (List.getElem_mem hi)
  · intro h c xs ys i
    simp only
    split
    · rw [List.getD_append _ _ _ _ ‹_›]
    · rw [List.getD_append_right _ _ _ _ (by omega)]

/-- `cab_linear` and `cab_once` can be met: the same unit is the convolution with a unit impulse, and its impulse
response is loaded by the first `cabPrepare`. -/
theorem witness_cabinet_linear :
    CabLinear (fun k => if k = 0 then 1 else 0) (fun _ _ xs i => (fnum (xs.getD i 0) : ℝ)) ∧
      CabOnce (fun h => if CabCall.prepare 0 1 ∈ h then some (fun k => if k = 0 then 1 else 0) else none) := by
  refine ⟨?_, ?_, ?_⟩
  · intro h c xs i hi _
    simp only
    rw [Finset.sum_eq_single 0]
    · rw [if_pos rfl, one_mul, Nat.sub_zero, List.getD_append_right _ _ _ _ (by omega), Nat.add_sub_cancel_left]
    · intro k _ hk
      rw [if_neg hk, zero_mul]
    · intro h0
      exact absurd (Finset.mem_range.mpr (by omega)) h0
  · intro h call h0 h1
    have hm : CabCall.prepare 0 1 ∉ h := fun hm => by simp only [if_pos hm, reduceCtorEq] at h0
    have hm' : CabCall.prepare 0 1 ∈ h ++ [call] := by
      by_contra hn
      exact h1 (if_neg hn)
    rcases List.mem_append.mp hm' with h' | h'
    · exact absurd h' hm
    · exact ⟨0, 1, (List.mem_singleton.mp h').symm⟩
  · intro h call g hg
    have hm : CabCall.prepare 0 1 ∈ h := by
      by_contra hn
      simp only [if_neg hn, reduceCtorEq] at hg
    simp only [if_pos hm] at hg
    simp only [if_pos (List.mem_append_left _ hm)]
    exact hg

/-- For the last clause of `ResetConfigurationPassesThrough`: a block of -0 from histories of +0.0 words. -/
theorem witness_reset_zero_sample :
    State.Block { written with mem := Memory.setWord [] .left 0 0x80000000 } .left 1 (fun _ => 0x80000000) ∧
      (∀ f, written.histOf .left f = resetHist) ∧ 0 ≤ 2 ∧ isFinite 0x80000000 = true ∧ isZero 0x80000000 = true := by
  refine ⟨?_, fun f => by cases f <;> rfl, by decide, by decide, by decide⟩
  intro i hi
  obtain rfl : i = 0 := by omega
  decide

theorem witness_ResetConfigurationPassesThrough :
    1 ≤ written.blksz.toNat ∧ written.Block .left 1 (fun _ => (written.mem.word .left 0).getD 0) ∧
      written.gain = State.reset.gain ∧ written.drive = State.reset.drive ∧ written.coef = State.reset.coef ∧
      written.byp = State.reset.byp ∧ (∀ f, ∀ w ∈ (written.histOf .left f).words, isFinite w = true) ∧
      isFinite ((written.mem.word .left 0).getD 0) = true ∧ isFinite 0x7F800000 = false :=
  ⟨by decide, written_block .left, rfl, rfl, rfl, rfl, fun f w h => by
    have hh : written.histOf .left f = resetHist := by cases f <;> rfl
    rw [hh] at h
    rw [resetHist_word h]
    decide, by decide, by decide⟩

/-- For `NaNStaysInTheCell` ((C11) of spec/95_test_vectors.md) and `ZeroA0GivesNoFiniteOutput` ((C7), (C8)). -/
theorem witness_cells_that_fail :
    isNaN (Hist.y1 { resetHist with y1 := 0x7FC00000 }) = true ∧ [(0x3F800000 : Word)] ≠ [] ∧
      isFinite (Hist.y1 { resetHist with y1 := 0xFF800000 }) = false ∧ isFinite 0x7F800000 = false ∧
      0x7F800000 ∈ Hist.words { resetHist with x3 := 0x7F800000 } ∧
      isZero (Coeffs.a0 { resetCoeffs with a0 := 0 }) = true ∧
      isZero (Coeffs.a0 { resetCoeffs with a0 := 0x80000000 }) = true := by decide

/-- A magnitude at the midpoint above the largest finite value, one just below it, and a tie. -/
theorem witness_RoundingIsToNearestEven :
    0 < 1 ∧ (2 ^ 128 - 2 ^ 103) * 2 ^ 149 * 1 ≤ (2 ^ 128 - 2 ^ 103) * 2 ^ 149 ∧
      (2 ^ 128 - 2 ^ 103) * 2 ^ 149 - 1 < (2 ^ 128 - 2 ^ 103) * 2 ^ 149 * 1 ∧ 5 < (2 ^ 128 - 2 ^ 103) * 2 ^ 149 * 2 ∧
      3 < infMag ∧ 3 ≠ roundMag 5 2 := by decide

/-- Finite operands: a sum and a difference that are not zero, one that is, a divisor that is no zero. -/
theorem witness_finite_operands :
    isFinite 0x7F7FFFFF = true ∧ isFinite 0x80000001 = true ∧ fnum 0x7F7FFFFF + fnum 0x80000001 ≠ 0 ∧
      fnum 0x7F7FFFFF - fnum 0x80000001 ≠ 0 ∧ fnum 0x80000000 + fnum 0x80000000 = 0 ∧
      fnum 0x80000000 - fnum 0 = 0 ∧ isZero 0x80000001 = false := by decide

theorem witness_ExactIdentities :
    isNaN 0x80000000 = false ∧ isNaN 0x7F800000 = false ∧ isFinite 0x80000001 = true ∧ isFinite 0x7F7FFFFF = true ∧
      isInf 0xFF800000 = true := by decide

theorem witness_NaNOperandsGiveQuietNaNs :
    isNaN 0x7F800001 = true ∧ isNaN 0xFFFFFFFF = true ∧ isInf 0x7F800000 = true ∧ isInf 0xFF800000 = true ∧
      isFinite 0x80000000 = true ∧ isFinite 0x7F7FFFFF = true ∧ isZero 0x80000000 = true ∧ isZero 0 = true := by decide

/-- A function with the shape and the monotonicity asked of an arctangent: the identity cut off at `f32(π/2)`. -/
def flatAtan (a : Word) : Word := if isNaN a then 0x7FC00000 else fpack (fsign a) (min (fmag a) 0x3FC90FDB)

theorem flatAtan_lt (a : Word) : min (fmag a) 0x3FC90FDB < 2 ^ 31 := lt_of_le_of_lt (Nat.min_le_left _ _) (fmag_lt a)

theorem flatAtan_shape : AtanShape flatAtan where
  atan_nan a h := by simp only [flatAtan, h, if_true]; decide
  atan_zero := by decide
  atan_odd a h := by
    simp only [flatAtan, isNaN_fneg, h, Bool.false_eq_true, if_false, fmag_fneg, fsign_fneg]
    rw [fneg_eq, fsign_fpack _ (flatAtan_lt a), fmag_fpack _ (flatAtan_lt a)]
  atan_inf := by decide
  atan_bound a h := by
    simp only [flatAtan, h, Bool.false_eq_true, if_false]
    rw [isFinite_iff, funits_eq, funits_eq, fmag_fpack _ (flatAtan_lt a), magUnits_le_iff]
    exact ⟨lt_of_le_of_lt (Nat.min_le_right _ _) (by decide), le_trans (Nat.min_le_right _ _) (by decide)⟩
  atan_sign a h := by
    simp only [flatAtan, h, Bool.false_eq_true, if_false]
    exact fsign_fpack _ (flatAtan_lt a)

theorem flatAtan_mono : AtanMono flatAtan := by
  intro a b ha hb h
  simp only [flatAtan, ha, hb, Bool.false_eq_true, if_false]
  unfold fnum at *
  rw [funits_eq, funits_eq, fmag_fpack _ (flatAtan_lt a), fmag_fpack _ (flatAtan_lt b), fsign_fpack _ (flatAtan_lt a),
    fsign_fpack _ (flatAtan_lt b)]
  rw [funits_eq, funits_eq] at h
  have le {m n : Nat} : magUnits m ≤ magUnits n ↔ m ≤ n := magUnits_le_iff
  revert h
  cases fsign a <;> cases fsign b <;> simp only [if_true, Bool.false_eq_true, if_false] <;> intro h
  · have h' : fmag a ≤ fmag b := le.mp (by omega)
    have := le.mpr (min_le_min_right 0x3FC90FDB h')
    omega
  · have h0 : magUnits (fmag a) ≤ magUnits 0 := by simp only [magUnits_zero]; omega
    have h1 : magUnits (fmag b) ≤ magUnits 0 := by simp only [magUnits_zero]; omega
    have e0 : fmag a = 0 := Nat.le_zero.mp (le.mp h0)
    have e1 : fmag b = 0 := Nat.le_zero.mp (le.mp h1)
    simp [e0, e1]
  · omega
  · have h' : fmag b ≤ fmag a := le.mp (by omega)
    have := le.mpr (min_le_min_right 0x3FC90FDB h')
    omega

/-- For `ModelArctangentHasItsShape`. -/
theorem witness_ModelArctangentHasItsShape : AtanShape flatAtan ∧ isNaN 0x7F800000 = false :=
  ⟨flatAtan_shape, by decide⟩

theorem witness_ShaperIdentityAndSilence :
    isFinite 0xFF7FFFFF = true ∧ isInf 0xFF800000 = true ∧ isFinite 0x7F7FFFFF = true ∧ fsign 0x7F7FFFFF = false := by
  decide

theorem witness_ShaperAddsAtMostOne :
    isNaN 0x7F800000 = false ∧ isNaN 0x00000001 = false ∧ isNaN (fmul 0x7F800000 0x00000001) = false := by decide

theorem witness_ShaperIsOdd :
    isNaN 0x7F800000 = false ∧ fsign 0x7F800000 = false ∧ isNaN 0x3F000000 = false ∧
      isNaN (shapeOut 0x7F800000 0x3F000000) = false := by decide

theorem witness_ShaperIsMonotoneInDrive :
    AtanShape flatAtan ∧ AtanMono flatAtan ∧ isFinite 0x3F000000 = true ∧ 0 < fnum 0x3F000000 ∧ isFinite 0 = true ∧
      isFinite 0x7F7FFFFF = true ∧ 0 ≤ fnum 0 ∧ fnum 0 ≤ fnum 0x7F7FFFFF ∧ isFinite 0xBF000000 = true ∧
      fnum 0xBF000000 < 0 :=
  ⟨flatAtan_shape, flatAtan_mono, by decide, by decide, by decide, by decide, by decide, by decide, by decide,
    by decide⟩

/-- A product of 2^-12, and a drive of 2^-26. -/
theorem witness_ShaperSmallSignal :
    (isFinite 0x3F800000 = true ∧ fsign 0x3F800000 = false ∧ isFinite 0xB9800000 = true ∧
      funits (fmul 0x3F800000 0xB9800000) ≤ 2 ^ 137) ∧
    isFinite 0x32800000 = true ∧ fsign 0x32800000 = false ∧ fmag 0x32800000 ≤ 0x32800000 := by decide

/-- One drive and sample for each corner of `ShaperCornerCases`. -/
theorem witness_ShaperCornerCases :
    isNaN 0x7FC00001 = true ∧ (isInf 0xFF800000 = true ∧ isNaN 0x00000001 = false ∧ 0 < fnum 0x00000001) ∧
      (isInf 0x7F800000 = true ∧ isZero 0x80000000 = true) ∧
      (isInf 0xFF800000 = true ∧ isFinite 0x80000001 = true ∧ isZero 0x80000001 = false) ∧
      (isFinite 0x7F7FFFFF = true ∧ isFinite 0xC0000000 = true ∧ isInf (fmul 0x7F7FFFFF 0xC0000000) = true) := by decide

/-- A step from a state that meets the invariant: a `WRS` of word 0. -/
theorem witness_StepKeepsTheInvariant :
    written.Inv ∧ ∃ t, step (written.deliver [0x20010000, 5]) = .next t ∧ t.mem ≠ written.mem ∧
      (written.deliver [0x20010000, 5]).Inv :=
  ⟨written_inv, _, rfl, by decide,
    ⟨written_inv.memCanonical, written_inv.memWords, written_inv.copies, written_inv.latch, written_inv.blockSize,
      written_inv.held⟩⟩

theorem witness_ChannelCopiesStayEqual :
    (written.deliver [0x10700000, 5]).CopiesAgree ∧
      ∃ t, step (written.deliver [0x10700000, 5]) = .next t ∧ t.gain ≠ written.gain :=
  ⟨written_inv.copies, _, rfl, by decide⟩

/-- A legal command, one with an unassigned opcode, and one of nine words with a reserved bit set. -/
theorem witness_WholeCommandsRunToTheEnd :
    (∀ ws ∈ [[(0x10F00000 : Word), 5], [0xFFFFFFFF], [0x12620000, 1, 2, 3, 4, 5, 6, 7, 8]], ∃ w rest, ws = w :: rest ∧
      ws.length = (if w.extractLsb' 24 8 = 0x01 then 3
        else if w.extractLsb' 24 8 ∈ [(0x10 : BitVec 8), 0x11, 0x20] then 2
        else if w.extractLsb' 24 8 = 0x12 then 9 else 1)) ∧
      (State.reset.deliver [0x10F00000, 5, 0xFFFFFFFF, 0x12620000, 1, 2, 3, 4, 5, 6, 7, 8]).held = [] ∧
      (State.reset.deliver [0x10F00000, 5, 0xFFFFFFFF, 0x12620000, 1, 2, 3, 4, 5, 6, 7, 8]).input =
        [[(0x10F00000 : Word), 5], [0xFFFFFFFF], [0x12620000, 1, 2, 3, 4, 5, 6, 7, 8]].flatten := by
  refine ⟨?_, rfl, rfl⟩
  intro ws h
  simp only [List.mem_cons, List.not_mem_nil, or_false] at h
  obtain rfl | rfl | rfl := h
  · exact ⟨_, _, rfl, by decide⟩
  · exact ⟨_, _, rfl, by decide⟩
  · exact ⟨_, _, rfl, by decide⟩

theorem witness_AccessMatrixHolds : ∃ t, exec (.proc .left 1) written = .next t ∧ t.hist ≠ written.hist :=
  ⟨_, rfl, by decide +kernel⟩

/-- For the clauses on the latch: a command that raises, one that raises nothing. -/
theorem witness_latch_column :
    (∃ t, exec (.rdr 8) written = .next t ∧ written.causeOf (.rdr 8) = some .range) ∧
      ∃ t, exec (.rdr 7) written = .next t ∧ written.causeOf (.rdr 7) = none ∧ (Instr.rdr 7).op ≠ .clre :=
  ⟨⟨_, rfl, by decide⟩, _, rfl, by decide, by decide⟩

theorem witness_ResponsesAreOnlyAppended :
    (∃ t, step (State.reset.deliver [0x31600000]) = .next t ∧ t.responses.length = 8) ∧
      ∃ t, step (State.reset.deliver [0x31800000]) = .next t ∧ State.reset.err = false ∧ t.err = true :=
  ⟨⟨_, rfl, by decide⟩, _, rfl, rfl, by decide⟩

end Sys2Proof.Tests
end

/-! ## What executing an instruction can do

Every instruction either errs, and then only the latch can change, or completes with one effect. -/

namespace Sys2Proof.Machine

/-! ### Stage numbers (spec/10_state.md R21) and the operand checks of spec/60_exceptions.md R291 -/

/-- The number of a stage: the inverse of `stageOf?` (`stageOf?_eq_some`). -/
def stageNum : Stage → Nat
  | .gain .input => 1
  | .filt .hp1 => 2
  | .shaper => 3
  | .filt .hp2 => 4
  | .filt .shelf => 5
  | .filt .tone => 6
  | .gain .vol => 7
  | .cab => 8
  | .gain .out => 9

theorem stageOf?_stageNum (st : Stage) : stageOf? (stageNum st) = some st := by
  rcases st with (_ | _ | _) | (_ | _ | _ | _) | _ | _ <;> rfl

theorem stageNum_bounds (st : Stage) : 1 ≤ stageNum st ∧ stageNum st ≤ 9 := by
  rcases st with (_ | _ | _) | (_ | _ | _ | _) | _ | _ <;> decide

theorem stageOf?_of_ge {n : Nat} (h : 10 ≤ n) : stageOf? n = none := by
  obtain ⟨k, rfl⟩ := Nat.exists_eq_add_of_le' h
  rfl

theorem stageOf?_eq_some {n : Nat} {st : Stage} : stageOf? n = some st ↔ n = stageNum st := by
  constructor
  · intro h
    have hn : n < 10 := by
      by_contra hge
      rw [stageOf?_of_ge (Nat.not_lt.mp hge)] at h
      cases h
    interval_cases n <;> cases h <;> rfl
  · rintro rfl
    exact stageOf?_stageNum st

theorem stageOf?_eq_none {n : Nat} : stageOf? n = none ↔ n = 0 ∨ 10 ≤ n := by
  constructor
  · intro h
    by_contra hn
    have hlo : 1 ≤ n := by omega
    have hhi : n < 10 := by omega
    interval_cases n <;> cases h
  · rintro (rfl | h)
    · rfl
    · exact stageOf?_of_ge h

theorem gainOperand?_eq_some {n : Nat} {g : GainStage} : gainOperand? n = some g ↔ n = stageNum (.gain g) := by
  rw [← stageOf?_eq_some]
  unfold gainOperand?
  split <;> simp_all

theorem filtOperand?_eq_some {n : Nat} {f : FiltStage} : filtOperand? n = some f ↔ n = stageNum (.filt f) := by
  rw [← stageOf?_eq_some]
  unfold filtOperand?
  split <;> simp_all

theorem gainOperand?_isSome (n : Nat) : (gainOperand? n).isSome = true ↔ n = 1 ∨ n = 7 ∨ n = 9 := by
  simp only [Option.isSome_iff_exists, gainOperand?_eq_some]
  constructor
  · rintro ⟨g, rfl⟩
    cases g <;> decide
  · rintro (rfl | rfl | rfl)
    exacts [⟨.input, rfl⟩, ⟨.vol, rfl⟩, ⟨.out, rfl⟩]

theorem filtOperand?_isSome (n : Nat) : (filtOperand? n).isSome = true ↔ n = 2 ∨ n = 4 ∨ n = 5 ∨ n = 6 := by
  simp only [Option.isSome_iff_exists, filtOperand?_eq_some]
  constructor
  · rintro ⟨f, rfl⟩
    cases f <;> decide
  · rintro (rfl | rfl | rfl | rfl)
    exacts [⟨.hp1, rfl⟩, ⟨.hp2, rfl⟩, ⟨.shelf, rfl⟩, ⟨.tone, rfl⟩]

theorem isShaperOperand_iff (n : Nat) : isShaperOperand n = true ↔ n = 3 := by
  rw [isShaperOperand, beq_iff_eq, stageOf?_eq_some]
  rfl

/-- `RDP` can use every stage but the cabinet. -/
theorem installedOperand?_eq_none (s : State) (c : Chan) (n : Nat) :
    (stageOf? n).bind (s.installed? c) = none ↔ n = 0 ∨ n = 8 ∨ 10 ≤ n := by
  cases h : stageOf? n with
  | none =>
    have := stageOf?_eq_none.mp h
    simp only [Option.bind_none, true_iff]
    omega
  | some st =>
    obtain rfl := stageOf?_eq_some.mp h
    rcases st with (_ | _ | _) | (_ | _ | _ | _) | _ | _ <;> simp [State.installed?, stageNum]

theorem sysReg?_eq_none (s : State) (r : Nat) : s.sysReg? r = none ↔ 8 ≤ r := by
  constructor
  · intro h
    by_contra hr
    have hlt : r < 8 := by omega
    interval_cases r <;> cases h
  · intro h
    obtain ⟨k, rfl⟩ := Nat.exists_eq_add_of_le' h
    rfl

/-- A read of a system register changes at most the model's counter of `CABRDY` samples (spec/10_state.md R36). -/
theorem sysReg?_frame {s t : State} {r : Nat} {v : Word} (h : s.sysReg? r = some (v, t)) :
    t = { s with rdySamples := t.rdySamples } := by
  have hr : r < 8 := by
    by_contra hge
    rw [(sysReg?_eq_none s r).mpr (by omega)] at h
    cases h
  interval_cases r <;> cases h <;> rfl

/-! ### The completed commands -/

/-- `s.Completes i t`: the instruction raises nothing in `s` and leaves `t`. One constructor per command, with the
checks the command has passed; `exec_cases` ties it to `exec`. -/
inductive State.Completes (s : State) : Instr → State → Prop where
  | nop : s.Completes .nop s
  | prep {sr bs : Word} (lo : 1 ≤ bs.toNat) (hi : bs.toNat ≤ Config.blkmax) :
      s.Completes (.prep sr bs) (({ s with srate := sr, blksz := bs }.clearHists).cabPrepare sr bs)
  | rsta : s.Completes .rsta s.clearHists.cabResetBoth
  | rsts {n : Nat} {st : Stage} (h : stageOf? n = some st) : s.Completes (.rsts n) (s.resetStage st)
  | clre : s.Completes .clre s.clearLatch
  | ldg {n : Nat} {g : GainStage} (v : Word) (h : gainOperand? n = some g) :
      s.Completes (.ldg n v) (s.installGain g v)
  | ldd (v : Word) : s.Completes (.ldd 3 v) (s.installDrive v)
  | ldc {n : Nat} {f : FiltStage} (k : Coeffs) (h : filtOperand? n = some f) :
      s.Completes (.ldc n k) (s.installCoeffs f k)
  | byp {n : Nat} {st : Stage} (v : Bool) (h : stageOf? n = some st) : s.Completes (.byp n v) (s.installBypass st v)
  | wrs {i : Nat} (c : Chan) (v : Word) (h : i < Config.blkmax) : s.Completes (.wrs c i v) (s.memWrite c i v)
  | rds {i : Nat} (c : Chan) (h : i < Config.blkmax) :
      s.Completes (.rds c i) ((s.memRead c i).2.emit (s.memRead c i).1)
  | proc {n : Nat} (c : Chan) (h : n ≤ s.blksz.toNat) : s.Completes (.proc c n) (s.runChain c n)
  | rdr {r : Nat} {v : Word} {u : State} (h : s.sysReg? r = some (v, u)) : s.Completes (.rdr r) (u.emit v)
  | rdp {n : Nat} {c : Chan} {vs : List Word} (h : (stageOf? n).bind (s.installed? c) = some vs) :
      s.Completes (.rdp c n) (s.emitAll vs)

/-- Everything executing an instruction can do (spec/60_exceptions.md R291, R292): it raises its cause and nothing else
happens, or it completes. -/
theorem exec_cases (i : Instr) (s : State) :
    (∃ e, s.causeOf i = some e ∧ exec i s = .next (s.reject e i)) ∨
    (s.causeOf i = none ∧ ∃ t, s.Completes i t ∧ exec i s = .next t) := by
  cases i with
  | nop => exact .inr ⟨rfl, _, .nop, rfl⟩
  | prep sr bs =>
    by_cases h : 1 ≤ bs.toNat ∧ bs.toNat ≤ Config.blkmax
    · exact .inr ⟨if_neg (by omega), _, .prep h.1 h.2, by simp [exec, execPrep, blockSizeOk, h]⟩
    · exact .inl ⟨.range, if_pos (by omega), by simp [exec, execPrep, blockSizeOk, h]⟩
  | rsta => exact .inr ⟨rfl, _, .rsta, rfl⟩
  | rsts n =>
    cases h : stageOf? n with
    | none => exact .inl ⟨.stage, if_pos (stageOf?_eq_none.mp h), by simp [exec, execRsts, h]⟩
    | some st =>
      exact .inr ⟨if_neg (by simp [← stageOf?_eq_none, h]), _, .rsts h, by simp [exec, execRsts, h]⟩
  | clre => exact .inr ⟨rfl, _, .clre, rfl⟩
  | ldg n v =>
    cases h : gainOperand? n with
    | none => exact .inl ⟨.stage, if_neg (by simp [← gainOperand?_isSome, h]), by simp [exec, execLdg, h]⟩
    | some g =>
      exact .inr ⟨if_pos (by simp [← gainOperand?_isSome, h]), _, .ldg v h, by simp [exec, execLdg, h]⟩
  | ldd n v =>
    by_cases h : n = 3
    · subst h
      exact .inr ⟨rfl, _, .ldd v, rfl⟩
    · exact .inl ⟨.stage, if_neg h, by simp [exec, execLdd, isShaperOperand_iff, h]⟩
  | ldc n k =>
    cases h : filtOperand? n with
    | none => exact .inl ⟨.stage, if_neg (by simp [← filtOperand?_isSome, h]), by simp [exec, execLdc, h]⟩
    | some f =>
      exact .inr ⟨if_pos (by simp [← filtOperand?_isSome, h]), _, .ldc k h, by simp [exec, execLdc, h]⟩
  | byp n v =>
    cases h : stageOf? n with
    | none => exact .inl ⟨.stage, if_pos (stageOf?_eq_none.mp h), by simp [exec, execByp, h]⟩
    | some st =>
      exact .inr ⟨if_neg (by simp [← stageOf?_eq_none, h]), _, .byp v h, by simp [exec, execByp, h]⟩
  | wrs c i v =>
    by_cases h : i < Config.blkmax
    · exact .inr ⟨if_neg (by omega), _, .wrs c v h, by simp [exec, execWrs, inBuffer, h]⟩
    · exact .inl ⟨.range, if_pos (by omega), by simp [exec, execWrs, inBuffer, h]⟩
  | rds c i =>
    by_cases h : i < Config.blkmax
    · exact .inr ⟨if_neg (by omega), _, .rds c h, by simp [exec, execRds, inBuffer, h]⟩
    · exact .inl ⟨.range, if_pos (by omega), by simp [exec, execRds, inBuffer, h]⟩
  | proc c n =>
    by_cases h : n ≤ s.blksz.toNat
    · exact .inr ⟨if_neg (by omega), _, .proc c h, by simp [exec, execProc, countOk, h]⟩
    · exact .inl ⟨.range, if_pos (by omega), by simp [exec, execProc, countOk, h]⟩
  | rdr r =>
    cases h : s.sysReg? r with
    | none => exact .inl ⟨.range, if_pos ((sysReg?_eq_none s r).mp h), by simp [exec, execRdr, h]⟩
    | some vt =>
      exact .inr ⟨if_neg (by simp [← sysReg?_eq_none s, h]), _, .rdr h, by simp [exec, execRdr, h]⟩
  | rdp c n =>
    cases h : (stageOf? n).bind (s.installed? c) with
    | none => exact .inl ⟨.stage, if_pos ((installedOperand?_eq_none s c n).mp h), by simp [exec, execRdp, h]⟩
    | some vs =>
      exact .inr ⟨if_neg (by simp [← installedOperand?_eq_none s c, h]), _, .rdp h, by simp [exec, execRdp, h]⟩

/-- `exec_cases` for a known next state. -/
theorem exec_next_cases {i : Instr} {s t : State} (h : exec i s = .next t) :
    (∃ e, s.causeOf i = some e ∧ t = s.reject e i) ∨ (s.causeOf i = none ∧ s.Completes i t) := by
  obtain ⟨e, he, h'⟩ | ⟨hn, u, hu, h'⟩ := exec_cases i s <;> cases h.symm.trans h'
  · exact .inl ⟨e, he, rfl⟩
  · exact .inr ⟨hn, hu⟩

end Sys2Proof.Machine

/-! ## The access matrix (spec/10_state.md R44) -/

namespace Sys2Proof.Machine

/-- `s` with the fields that a command of opcode `op` may write when it completes taken from `t`: the rows of the access
matrix (spec/10_state.md R44), with the model's two counters beside them (log entries 4 and 7). -/
def State.withWrites (s t : State) : Op → State
  | .nop => s
  | .prep => { s with srate := t.srate, blksz := t.blksz, hist := t.hist, cabst := t.cabst }
  | .rsta => { s with hist := t.hist, cabst := t.cabst }
  | .rsts => { s with hist := t.hist, cabst := t.cabst }
  | .clre => { s with err := t.err, ecode := t.ecode, eword := t.eword }
  | .ldg => { s with gain := t.gain }
  | .ldd => { s with drive := t.drive }
  | .ldc => { s with coef := t.coef }
  | .byp => { s with byp := t.byp }
  | .wrs => { s with mem := t.mem }
  | .rds => { s with responses := t.responses, draws := t.draws }
  | .proc => { s with
      mem := t.mem, hist := t.hist, cabst := t.cabst, draws := t.draws, rdySamples := t.rdySamples }
  | .rdr => { s with responses := t.responses, rdySamples := t.rdySamples }
  | .rdp => { s with responses := t.responses }

theorem State.resetStage_frame (s : State) (st : Stage) :
    s.resetStage st = { s with hist := (s.resetStage st).hist, cabst := (s.resetStage st).cabst } := by
  cases st <;> rfl

/-- A completed command writes what the matrix lets it write, and nothing else. -/
theorem State.Completes.frame {s t : State} {i : Instr} (h : s.Completes i t) : t = s.withWrites t i.op := by
  cases h with
  | rsts _ => exact s.resetStage_frame _
  | rds c _ =>
    rw [State.memRead_frame]
    rfl
  | proc c _ => exact s.runChain_audioFrame c _
  | rdr hr =>
    rw [sysReg?_frame hr]
    rfl
  | nop | prep | rsta | clre | ldg | ldd | ldc | byp | wrs | rdp => rfl

/-- The table of `State.withWrites` read by columns. -/
theorem State.withWrites_columns (s u : State) (op : Op) :
    let t := s.withWrites u op
    (t.gain = s.gain ∨ op = .ldg) ∧ (t.drive = s.drive ∨ op = .ldd) ∧ (t.coef = s.coef ∨ op = .ldc) ∧
    (t.hist = s.hist ∨ op ∈ [.prep, .rsta, .rsts, .proc]) ∧ (t.byp = s.byp ∨ op = .byp) ∧
    (t.mem = s.mem ∨ op ∈ [.wrs, .proc]) ∧ (t.srate = s.srate ∨ op = .prep) ∧
    (t.blksz = s.blksz ∨ op = .prep) ∧ (t.cabst = s.cabst ∨ op ∈ [.prep, .rsta, .rsts, .proc]) ∧
    (t.responses = s.responses ∨ op ∈ [.rds, .rdr, .rdp]) ∧
    (op ≠ .clre → t.err = s.err ∧ t.ecode = s.ecode ∧ t.eword = s.eword) ∧
    (t.rdySamples = s.rdySamples ∨ op ∈ [.proc, .rdr]) ∧ (t.draws = s.draws ∨ op ∈ [.rds, .proc]) ∧
    t.cp = s.cp ∧ t.held = s.held ∧ t.input = s.input := by
  cases op <;> simp [State.withWrites]

/-- Settles O58: an erring command changes the latch alone, a completed one has the frame of its opcode. -/
theorem accessMatrixHolds : Obligations.AccessMatrixHolds := by
  intro i s t h
  obtain ⟨e, he, rfl⟩ | ⟨hn, hc⟩ := exec_next_cases h
  · have latch : ∀ e', s.causeOf i = some e' → s.reject e i =
        if s.err then s else { s with err := true, ecode := Cause.code e', eword := i.head } := by
      intro e' he'
      cases he.symm.trans he'
      rfl
    exact ⟨.inl (s.reject_gain e i), .inl (s.reject_drive e i), .inl (s.reject_coef e i), .inl (s.reject_hist e i),
      .inl (s.reject_byp e i), .inl (s.reject_mem e i), .inl (s.reject_srate e i), .inl (s.reject_blksz e i),
      .inl (s.reject_cabst e i), .inl (s.reject_responses e i), latch, fun hn => absurd (he.symm.trans hn) nofun,
      .inl (s.reject_rdySamples e i), .inl (s.reject_draws e i), s.reject_cp e i, s.reject_held e i,
      s.reject_input e i⟩
  · have hcols := s.withWrites_columns t i.op
    rw [← hc.frame] at hcols
    obtain ⟨gain, drive, coef, hist, byp, mem, srate, blksz, cabst, responses, latch, rest⟩ := hcols
    exact ⟨gain, drive, coef, hist, byp, mem, srate, blksz, cabst, responses,
      fun e he => absurd (hn.symm.trans he) nofun, fun _ => latch, rest⟩

end Sys2Proof.Machine

/-! ## The invariant of the state -/

namespace Sys2Proof.Machine

/-! ### The installed values of the two channels (spec/10_state.md R24, R43) -/

theorem PerChan.map_agree {α : Type} {p : PerChan α} (h : p.left = p.right) (f : α → α) :
    (p.map f).left = (p.map f).right :=
  congrArg f h

theorem State.CopiesAgree.of_eq {s t : State} (h : s.CopiesAgree) (gain : t.gain = s.gain) (drive : t.drive = s.drive)
    (coef : t.coef = s.coef) (byp : t.byp = s.byp) : t.CopiesAgree := by
  unfold State.CopiesAgree
  rw [gain, drive, coef, byp]
  exact h

/-- An installer writes both copies; no other command writes installed values. -/
theorem State.Completes.copiesAgree {s t : State} {i : Instr} (h : s.Completes i t) (hs : s.CopiesAgree) :
    t.CopiesAgree := by
  have hframe := h.frame
  obtain ⟨gain, drive, coef, byp⟩ := hs
  cases h with
  | ldg v _ => exact ⟨PerChan.map_agree gain _, drive, coef, byp⟩
  | ldd v => exact ⟨gain, rfl, coef, byp⟩
  | ldc k _ => exact ⟨gain, drive, PerChan.map_agree coef _, byp⟩
  | byp v _ => exact ⟨gain, drive, coef, PerChan.map_agree byp _⟩
  | nop | prep | rsta | rsts | clre | wrs | rds | proc | rdr | rdp =>
    rw [hframe]
    exact ⟨gain, drive, coef, byp⟩

theorem State.raise_copiesAgree {s : State} (h : s.CopiesAgree) (e : Cause) (w : Word) : (s.raise e w).CopiesAgree :=
  h.of_eq (s.raise_gain e w) (s.raise_drive e w) (s.raise_coef e w) (s.raise_byp e w)

/-- Executing an instruction keeps the copies equal, whether it errs or completes. -/
theorem exec_copiesAgree {i : Instr} {s t : State} (hs : s.CopiesAgree) (h : exec i s = .next t) : t.CopiesAgree := by
  obtain ⟨e, _, rfl⟩ | ⟨_, hc⟩ := exec_next_cases h
  · exact State.raise_copiesAgree hs e i.head
  · exact hc.copiesAgree hs

theorem step_copiesAgree {s t : State} (hs : s.CopiesAgree) (h : step s = .next t) : t.CopiesAgree := by
  obtain ⟨_, h'⟩ | ⟨e, w, len, _, h'⟩ | ⟨i, len, _, h'⟩ := step_cases s <;> rw [h'] at h
  · cases h
    exact hs
  · cases h
    exact State.raise_copiesAgree (s := s.consume len) hs e w
  · exact exec_copiesAgree (s := s.consume len) hs h

/-! ### The error latch (spec/10_state.md R32, R33) -/

theorem Cause.code_bounds (e : Cause) : 1 ≤ Cause.code e ∧ Cause.code e ≤ 4 := by cases e <;> decide

theorem State.raise_latchOk {s : State} (h : s.LatchOk) (e : Cause) (w : Word) : (s.raise e w).LatchOk := by
  obtain ⟨_, hr⟩ | ⟨_, hr⟩ := s.raise_cases e w <;> rw [hr]
  · exact h
  · exact ⟨nofun, fun _ => Cause.code_bounds e⟩

/-- `CLRE` clears the whole latch; no other command that completes touches it. -/
theorem State.Completes.latchOk {s t : State} {i : Instr} (h : s.Completes i t) (hs : s.LatchOk) : t.LatchOk := by
  have hframe := h.frame
  cases h with
  | clre => exact ⟨fun _ => ⟨rfl, rfl⟩, nofun⟩
  | nop | prep | rsta | rsts | ldg | ldd | ldc | byp | wrs | rds | proc | rdr | rdp =>
    rw [hframe]
    exact hs

/-! ### The block size (spec/10_state.md R35) -/

/-- `PREP` takes a block size only after its check; no other command sets one. -/
theorem State.Completes.blockSizeOk {s t : State} {i : Instr} (h : s.Completes i t) (hs : s.BlockSizeOk) :
    t.BlockSizeOk := by
  have hframe := h.frame
  cases h with
  | prep _ hi => exact hi
  | nop | rsta | rsts | clre | ldg | ldd | ldc | byp | wrs | rds | proc | rdr | rdp =>
    rw [hframe]
    exact hs

/-! ### The sample buffers (spec/20_memory.md R60, R70) -/

/-- An induction principle for the buffers: what every write inside them keeps, every completed command keeps. For
`PROC` this rests on its block being no longer than `BLKSZ`, and `BLKSZ` at most `BLKMAX`. -/
theorem State.Completes.mem_induction {P : Memory → Prop}
    (hw : ∀ m c i v, i < Config.blkmax → P m → P (Memory.setWord m c i v)) {s t : State} {i : Instr}
    (h : s.Completes i t) (hb : s.BlockSizeOk) (hs : P s.mem) : P t.mem := by
  have hframe := h.frame
  cases h with
  | wrs c v hi => exact hw s.mem c _ v hi hs
  | proc c hn =>
    exact State.runChain_mem_induction c _ (fun m i v hi => hw m c i v (hi.trans_le (hn.trans hb))) s hs
  | nop | prep | rsta | rsts | clre | ldg | ldd | ldc | byp | rds | rdr | rdp =>
    rw [hframe]
    exact hs

/-! ### The words held of an incomplete command (spec/30_encoding.md R96) -/

theorem State.Completes.held_eq {s t : State} {i : Instr} (h : s.Completes i t) : t.held = s.held := by
  rw [h.frame]
  cases i <;> rfl

theorem State.Completes.cp_eq {s t : State} {i : Instr} (h : s.Completes i t) : t.cp = s.cp := by
  rw [h.frame]
  cases i <;> rfl

theorem State.HeldOk.of_eq {s t : State} (h : s.HeldOk) (held : t.held = s.held) (cp : t.cp = s.cp) : t.HeldOk := by
  unfold State.HeldOk
  rw [held, cp]
  exact h

/-- Held words that still make no whole command are all counted by `cp`: those held before, and those that come. -/
theorem State.hold_heldOk {s : State} (h : s.HeldOk) (hd : decode s.stream = .incomplete) : s.hold.HeldOk := by
  refine ⟨hd, ?_⟩
  rw [State.hold_held, State.hold_cp, State.stream, List.length_append]
  exact Nat.add_le_add_right h.2 _

/-! ### The whole invariant -/

theorem State.hold_inv {s : State} (h : s.Inv) (hd : decode s.stream = .incomplete) : s.hold.Inv :=
  ⟨h.memCanonical, h.memWords, h.copies, h.latch, h.blockSize, State.hold_heldOk h.held hd⟩

/-- Once a whole command is consumed, no word is held. -/
theorem State.consume_inv {s : State} (h : s.Inv) (len : Nat) : (s.consume len).Inv :=
  ⟨h.memCanonical, h.memWords, h.copies, h.latch, h.blockSize, rfl, Nat.zero_le _⟩

theorem State.raise_inv {s : State} (h : s.Inv) (e : Cause) (w : Word) : (s.raise e w).Inv where
  memCanonical := by rw [State.raise_mem]; exact h.memCanonical
  memWords := by rw [State.raise_mem]; exact h.memWords
  copies := State.raise_copiesAgree h.copies e w
  latch := State.raise_latchOk h.latch e w
  blockSize := by rw [State.BlockSizeOk, State.raise_blksz]; exact h.blockSize
  held := h.held.of_eq (s.raise_held e w) (s.raise_cp e w)

theorem State.Completes.inv {s t : State} {i : Instr} (hc : s.Completes i t) (h : s.Inv) : t.Inv where
  memCanonical := hc.mem_induction (P := fun m => m.wf) (fun _ c i v _ hm => Memory.wf_setWord hm c i v) h.blockSize
    h.memCanonical
  memWords := hc.mem_induction (P := Memory.WordsOnly) (fun _ _ _ v hi hm => Memory.wordsOnly_setWord hm hi v) h.blockSize
    h.memWords
  copies := hc.copiesAgree h.copies
  latch := hc.latchOk h.latch
  blockSize := hc.blockSizeOk h.blockSize
  held := h.held.of_eq hc.held_eq hc.cp_eq

theorem exec_inv {i : Instr} {s t : State} (hs : s.Inv) (h : exec i s = .next t) : t.Inv := by
  obtain ⟨e, _, rfl⟩ | ⟨_, hc⟩ := exec_next_cases h
  · exact State.raise_inv hs e i.head
  · exact hc.inv hs

/-- Settles O53: a step holds an incomplete command, latches a decoding error of a consumed one, or executes it. -/
theorem stepKeepsTheInvariant : Obligations.StepKeepsTheInvariant := by
  intro s t hs h
  obtain ⟨hd, h'⟩ | ⟨e, w, len, _, h'⟩ | ⟨i, len, _, h'⟩ := step_cases s <;> rw [h'] at h
  · cases h
    exact State.hold_inv hs hd
  · cases h
    exact State.raise_inv (State.consume_inv hs len) e w
  · exact exec_inv (State.consume_inv hs len) h

/-! ### Reset and the outside (spec/10_state.md R42; spec/70_reset_and_hazards.md R320) -/

/-- The hardware reset event meets the invariant: no word is written, the latch is clear, no word is held. -/
theorem State.hardwareReset_inv (s : State) : s.hardwareReset.Inv where
  memCanonical := List.Pairwise.nil
  memWords := nofun
  copies := ⟨rfl, rfl, rfl, rfl⟩
  latch := ⟨fun _ => ⟨rfl, rfl⟩, nofun⟩
  blockSize := Nat.zero_le _
  held := ⟨rfl, Nat.zero_le _⟩

/-- The reset state is what the hardware reset event leaves of itself. -/
theorem State.reset_inv : State.reset.Inv := State.reset.hardwareReset_inv

theorem State.deliver_inv {s : State} (h : s.Inv) (ws : List Word) : (s.deliver ws).Inv :=
  ⟨h.memCanonical, h.memWords, h.copies, h.latch, h.blockSize, h.held⟩

/-- Settles O54: nothing is installed in one channel alone, written, latched or held after a reset, and a delivery
touches no field of the invariant. -/
theorem resetMeetsTheInvariant : Obligations.ResetMeetsTheInvariant :=
  ⟨State.reset_inv, State.hardwareReset_inv, fun _ ws h => State.deliver_inv h ws⟩

/-- Settles O55: the part of the invariant that speaks of the two channels' copies, kept by itself. -/
theorem channelCopiesStayEqual : Obligations.ChannelCopiesStayEqual :=
  ⟨State.reset_inv.copies, fun _ _ => step_copiesAgree, fun _ _ h => h, fun s => s.hardwareReset_inv.copies⟩

/-! ### The reset values -/

theorem State.reset_bypOf (c : Chan) (st : Stage) :
    State.reset.bypOf c st = true ↔ (st = .filt .shelf ∨ st = .cab) := by
  rcases st with (_ | _ | _) | (_ | _ | _ | _) | _ | _ <;> cases c <;> decide

/-- After reset there is no word to run: the sequencer waits (log entry 2). -/
theorem step_reset : step State.reset = .next State.reset := rfl

/-- Settles O56: both channels' copies of every register are the reset value of that register. -/
theorem resetValues : Obligations.ResetValues := by
  refine ⟨?gain, ?drive, ?coef, ?hist, State.reset_bypOf, fun _ _ => rfl, rfl, rfl, rfl, rfl, rfl, rfl, rfl, rfl, rfl,
    rfl, step_reset, fun _ => rfl⟩
  case gain =>
    intro c g
    cases c <;> cases g <;> rfl
  case drive =>
    intro c
    cases c <;> rfl
  case coef =>
    intro c f
    cases c <;> cases f <;> rfl
  case hist =>
    intro c f w hw
    have hh : State.reset.histOf c f = resetHist := by cases c <;> cases f <;> rfl
    rw [hh] at hw
    simpa [Hist.words, resetHist] using hw

end Sys2Proof.Machine

/-! ## The words that show the flags (spec/10_state.md R32, R38) -/

namespace Sys2Proof.Machine

/-- A field added above every bit that is set so far is put there without a carry. -/
theorem getLsbD_add_shiftLeft {w : Word} {k : Nat} (h : ∀ j, k ≤ j → w.getLsbD j = false) (v : Word) (j : Nat) :
    (w + (v <<< k)).getLsbD j = (w.getLsbD j || (v <<< k).getLsbD j) := by
  have disjoint : w &&& (v <<< k) = 0#32 := by
    apply BitVec.eq_of_getLsbD_eq
    intro i _
    by_cases hi : i < k
    · simp [hi]
    · simp [h i (by omega)]
  rw [BitVec.add_eq_or_of_and_eq_zero _ _ disjoint, BitVec.getLsbD_or]

@[simp] theorem getLsbD_flagWord (b : Bool) (j : Nat) : (flagWord b).getLsbD j = (decide (j = 0) && b) := by
  cases b
  · simp [flagWord]
  · simp [flagWord, BitVec.getLsbD_one]

/-- A flag at bit `k` is bit `k` and no other. -/
theorem getLsbD_flagWord_shiftLeft (b : Bool) {k : Nat} (hk : k < 32) (j : Nat) :
    (flagWord b <<< k).getLsbD j = (decide (j = k) && b) := by
  rw [BitVec.getLsbD_shiftLeft, getLsbD_flagWord]
  by_cases h : j = k
  · simp [h, hk]
  · have : j < k ∨ j - k ≠ 0 := by omega
    rcases this with h' | h' <;> simp [h, h']

/-- A flag added at bit `k`, above every bit set so far. -/
theorem getLsbD_add_flag {w : Word} {k : Nat} (h : ∀ j, k ≤ j → w.getLsbD j = false) (hk : k < 32) (b : Bool)
    (j : Nat) : (w + (flagWord b <<< k)).getLsbD j = (w.getLsbD j || (decide (j = k) && b)) := by
  rw [getLsbD_add_shiftLeft h, getLsbD_flagWord_shiftLeft b hk]

/-- Bits above the added flag stay clear. -/
theorem getLsbD_add_flag_above {w : Word} {k : Nat} (h : ∀ j, k ≤ j → w.getLsbD j = false) (hk : k < 32) (b : Bool) :
    ∀ j, k + 1 ≤ j → (w + (flagWord b <<< k)).getLsbD j = false := by
  intro j hj
  rw [getLsbD_add_flag h hk, h j (by omega), decide_eq_false (by omega : j ≠ k)]
  rfl

theorem getLsbD_flagWord_above (b : Bool) : ∀ j, 1 ≤ j → (flagWord b).getLsbD j = false := by
  intro j hj
  rw [getLsbD_flagWord, decide_eq_false (by omega : j ≠ 0), Bool.false_and]

/-- `STATUS` bit by bit. -/
theorem State.getLsbD_statusWord (s : State) (rdy : Bool) (j : Nat) :
    (s.statusWord rdy).getLsbD j =
      ((decide (j = 0) && s.err) || (decide (j = 1) && rdy) || (decide (4 ≤ j) && s.ecode.getLsbD (j - 4))) := by
  have h0 := getLsbD_flagWord_above s.err
  have h1 := getLsbD_add_flag_above h0 (by decide) rdy
  have code : ((s.ecode.setWidth 32) <<< 4).getLsbD j = (decide (4 ≤ j) && s.ecode.getLsbD (j - 4)) := by
    rw [BitVec.getLsbD_shiftLeft, BitVec.getLsbD_setWidth]
    by_cases hj : j < 32
    · have : j - 4 < 32 := by omega
      by_cases h4 : 4 ≤ j
      · simp [h4, hj, this]
      · simp [h4, Nat.not_le.mp h4]
    · simp [hj, BitVec.getLsbD_of_ge s.ecode (j - 4) (by omega)]
  unfold State.statusWord
  rw [getLsbD_add_shiftLeft fun i hi => h1 i (by omega), getLsbD_add_flag h0 (by decide), getLsbD_flagWord, code]

/-- Settles O20: each field of `STATUS` read off its bits. -/
theorem statusWordFields : Obligations.StatusWordFields := by
  intro s rdy
  refine ⟨?err, ?rdy, ?gap, ?ecode, ?high⟩
  case err =>
    rw [State.getLsbD_statusWord]
    simp
  case rdy =>
    rw [State.getLsbD_statusWord]
    simp
  case gap =>
    apply BitVec.eq_of_getLsbD_eq
    intro j hj
    have : ¬4 ≤ 2 + j := by omega
    simp [State.getLsbD_statusWord, this]
    omega
  case ecode =>
    apply BitVec.eq_of_getLsbD_eq
    intro j hj
    simp [State.getLsbD_statusWord, hj]
    omega
  case high =>
    apply BitVec.eq_of_getLsbD_eq
    intro j hj
    have h1 : 8 + j ≠ 1 := by omega
    have h4 : 4 ≤ 8 + j - 4 := by omega
    simp [State.getLsbD_statusWord, h1, BitVec.getLsbD_of_ge s.ecode (8 + j - 4) h4]

/-- `BYPASSc` bit by bit: bit `stageNum st - 1` is the flag of stage `st`, bits 31:9 are clear. -/
theorem State.getLsbD_bypassWord (s : State) (c : Chan) (j : Nat) :
    (s.bypassWord c).getLsbD j =
      ((decide (j = 0) && s.bypOf c (.gain .input)) || (decide (j = 1) && s.bypOf c (.filt .hp1)) ||
        (decide (j = 2) && s.bypOf c .shaper) || (decide (j = 3) && s.bypOf c (.filt .hp2)) ||
        (decide (j = 4) && s.bypOf c (.filt .shelf)) || (decide (j = 5) && s.bypOf c (.filt .tone)) ||
        (decide (j = 6) && s.bypOf c (.gain .vol)) || (decide (j = 7) && s.bypOf c .cab) ||
        (decide (j = 8) && s.bypOf c (.gain .out))) := by
  have h0 := getLsbD_flagWord_above (s.bypOf c (.gain .input))
  have h1 := getLsbD_add_flag_above h0 (by decide) (s.bypOf c (.filt .hp1))
  have h2 := getLsbD_add_flag_above h1 (by decide) (s.bypOf c .shaper)
  have h3 := getLsbD_add_flag_above h2 (by decide) (s.bypOf c (.filt .hp2))
  have h4 := getLsbD_add_flag_above h3 (by decide) (s.bypOf c (.filt .shelf))
  have h5 := getLsbD_add_flag_above h4 (by decide) (s.bypOf c (.filt .tone))
  have h6 := getLsbD_add_flag_above h5 (by decide) (s.bypOf c (.gain .vol))
  have h7 := getLsbD_add_flag_above h6 (by decide) (s.bypOf c .cab)
  unfold State.bypassWord
  rw [getLsbD_add_flag h7 (by decide), getLsbD_add_flag h6 (by decide), getLsbD_add_flag h5 (by decide),
    getLsbD_add_flag h4 (by decide), getLsbD_add_flag h3 (by decide), getLsbD_add_flag h2 (by decide),
    getLsbD_add_flag h1 (by decide), getLsbD_add_flag h0 (by decide), getLsbD_flagWord]

/-- Settles O21, stage by stage. -/
theorem bypassWordFlags : Obligations.BypassWordFlags := by
  intro s c
  constructor
  · intro n st h
    obtain rfl := stageOf?_eq_some.mp h
    rw [State.getLsbD_bypassWord]
    rcases st with (_ | _ | _) | (_ | _ | _ | _) | _ | _ <;> simp [stageNum]
  · apply BitVec.eq_of_getLsbD_eq
    intro j hj
    have above : ∀ k, k < 9 → decide (9 + j = k) = false := fun k hk => decide_eq_false (by omega)
    simp [State.getLsbD_bypassWord, above]

end Sys2Proof.Machine

/-! ## What `PROC` sees (spec/43_process.md R213, R214, R217) -/

namespace Sys2Proof.Machine

/-! ### Blocks: written words read and written -/

theorem State.Block.memWrite {s : State} {c : Chan} {n : Nat} {xs : Nat → Word} (h : s.Block c n xs) (i : Nat)
    (v : Word) : (s.memWrite c i v).Block c n (Function.update xs i v) := by
  intro j hj
  rw [State.memWrite_mem]
  by_cases hji : j = i
  · subst hji
    rw [Memory.word_setWord_same, Function.update_self]
  · rw [Memory.word_setWord_other_index _ _ _ hji, Function.update_of_ne hji]
    exact h j hj

/-- Reading written words in order returns them and has no effect. -/
theorem State.readFrom_written {s : State} {c : Chan} {xs : Nat → Word} (k i : Nat)
    (h : ∀ j, i ≤ j → j < i + k → s.mem.word c j = some (xs j)) : s.readFrom c i k = ((List.range' i k).map xs, s) := by
  induction k generalizing i with
  | zero => rfl
  | succ k ih =>
    have first : s.mem.word c i = some (xs i) := h i (by omega) (by omega)
    have others := ih (i + 1) fun j hj hjk => h j (by omega) (by omega)
    simp only [State.readFrom, State.memRead_written first, others, List.range'_succ, List.map_cons]

theorem State.readFrom_block {s : State} {c : Chan} {n : Nat} {xs : Nat → Word} (h : s.Block c n xs) :
    s.readFrom c 0 n = ((List.range n).map xs, s) := by
  rw [List.range_eq_range']
  exact State.readFrom_written n 0 fun j _ hj => h j (by omega)

/-! ### The cabinet step by its cases (spec/42_stages.md R181, R199) -/

theorem State.cabStep_bypassed {s : State} {c : Chan} (n : Nat)
    (h : s.cabBypassed c (Config.cabrdy s.rdySamples) = true) :
    s.cabStep c n = { s with rdySamples := s.rdySamples + 1 } :=
  if_pos h

theorem State.cabStep_running {s : State} {c : Chan} {n : Nat} {xs : Nat → Word}
    (h : s.cabBypassed c (Config.cabrdy s.rdySamples) = false) (hb : s.Block c n xs) :
    s.cabStep c n =
      State.writeFrom
        { s with
          rdySamples := s.rdySamples + 1
          cabst := s.cabst ++ [.process c ((List.range n).map xs)] } c 0
        (cabBlock s.cabst c ((List.range n).map xs)) := by
  have hb' : State.Block { s with rdySamples := s.rdySamples + 1 } c n xs := hb
  have hoff : ¬State.cabBypassed { s with rdySamples := s.rdySamples + 1 } c (Config.cabrdy s.rdySamples) = true := by
    rw [Bool.not_eq_true]
    exact h
  simp only [State.cabStep, State.sampleCabrdy, if_neg hoff, State.readFrom_block hb', State.cabProcess]

/-! ### Stages other than the cabinet do not touch its port -/

theorem State.sampleStep_port (s : State) (c : Chan) (st : Stage) (i : Nat) :
    (s.sampleStep c st i).cabst = s.cabst ∧ (s.sampleStep c st i).rdySamples = s.rdySamples := by
  unfold State.sampleStep
  obtain ⟨v, _, hread⟩ | ⟨_, hread⟩ := s.memRead_cases c i <;> rw [hread] <;> cases st <;> exact ⟨rfl, rfl⟩

theorem State.sampleLoop_port (s : State) (c : Chan) (st : Stage) (n : Nat) :
    (s.sampleLoop c st n).cabst = s.cabst ∧ (s.sampleLoop c st n).rdySamples = s.rdySamples := by
  induction n with
  | zero => exact ⟨rfl, rfl⟩
  | succ n ih =>
    obtain ⟨cabst, rdy⟩ := (s.sampleLoop c st n).sampleStep_port c st n
    exact ⟨cabst.trans ih.1, rdy.trans ih.2⟩

/-- A stage other than the cabinet does nothing if it is bypassed, and else takes every sample in turn. -/
theorem State.runStage_of_ne_cab (s : State) (c : Chan) (n : Nat) {st : Stage} (h : st ≠ .cab) :
    s.runStage c n st = if s.bypOf c st then s else s.sampleLoop c st n := by
  cases st with
  | cab => exact absurd rfl h
  | gain | filt | shaper => rfl

theorem State.runStages_port (s : State) (c : Chan) (n : Nat) (sts : List Stage) (h : ∀ st ∈ sts, st ≠ .cab) :
    (s.runStages c n sts).cabst = s.cabst ∧ (s.runStages c n sts).rdySamples = s.rdySamples := by
  induction sts generalizing s with
  | nil => exact ⟨rfl, rfl⟩
  | cons st sts ih =>
    obtain ⟨hst, hsts⟩ := List.forall_mem_cons.mp h
    have hstage : (s.runStage c n st).cabst = s.cabst ∧ (s.runStage c n st).rdySamples = s.rdySamples := by
      rw [s.runStage_of_ne_cab c n hst]
      split
      · exact ⟨rfl, rfl⟩
      · exact s.sampleLoop_port c st n
    obtain ⟨cabst, rdy⟩ := ih (s.runStage c n st) hsts
    exact ⟨cabst.trans hstage.1, rdy.trans hstage.2⟩

theorem State.runStages_append (s : State) (c : Chan) (n : Nat) (as bs : List Stage) :
    s.runStages c n (as ++ bs) = (s.runStages c n as).runStages c n bs := by
  induction as generalizing s with
  | nil => rfl
  | cons a as ih => exact ih (s.runStage c n a)

/-- The stages of the chain before the cabinet (spec/10_state.md R21). -/
def stagesBeforeCab : List Stage :=
  [.gain .input, .filt .hp1, .shaper, .filt .hp2, .filt .shelf, .filt .tone, .gain .vol]

theorem chain_eq_cab_between : chain = stagesBeforeCab ++ [.cab, .gain .out] := rfl

theorem stagesBeforeCab_ne_cab : ∀ st ∈ stagesBeforeCab, st ≠ .cab := by decide

theorem State.runStages_chain (s : State) (c : Chan) (n : Nat) :
    s.runStages c n chain = ((s.runStages c n stagesBeforeCab).cabStep c n).runStage c n (.gain .out) := by
  rw [chain_eq_cab_between, State.runStages_append]
  rfl

/-! ### Two states that agree on one channel -/

/-- The two states agree on what `PROC c, n` reads and writes outside the cabinet's port: channel `c`'s registers,
flags and histories, and its block of `n` written words. -/
structure State.SameChan (c : Chan) (n : Nat) (s s' : State) : Prop where
  gain : s.gain.get c = s'.gain.get c
  drive : s.drive.get c = s'.drive.get c
  coef : s.coef.get c = s'.coef.get c
  byp : s.byp.get c = s'.byp.get c
  hist : s.hist.get c = s'.hist.get c
  block : ∃ xs, s.Block c n xs ∧ s'.Block c n xs

/-- The two states agree on the cabinet's port as far as channel `c` can see it: on whether it is bypassed, and where it
runs, on the calls that concern the channel (`cab_chan`, spec/42_stages.md R198). -/
structure State.SameCab (c : Chan) (s s' : State) : Prop where
  bypassed : s.cabBypassed c (Config.cabrdy s.rdySamples) = s'.cabBypassed c (Config.cabrdy s'.rdySamples)
  calls : s.cabBypassed c (Config.cabrdy s.rdySamples) = true ∨
    (CabChan Config.cabWord ∧ s.cabst.filter (CabCall.concerns c) = s'.cabst.filter (CabCall.concerns c))

section Agreement

variable {c : Chan} {n : Nat} {s s' : State}

theorem State.SameChan.memWrite (h : State.SameChan c n s s') (i : Nat) (v : Word) :
    State.SameChan c n (s.memWrite c i v) (s'.memWrite c i v) := by
  obtain ⟨xs, hb, hb'⟩ := h.block
  exact ⟨h.gain, h.drive, h.coef, h.byp, h.hist, _, hb.memWrite i v, hb'.memWrite i v⟩

theorem State.SameChan.setHist (h : State.SameChan c n s s') (f : FiltStage) (hv : Hist) :
    State.SameChan c n (s.setHist c f hv) (s'.setHist c f hv) where
  gain := h.gain
  drive := h.drive
  coef := h.coef
  byp := h.byp
  hist := by rw [State.setHist_hist, State.setHist_hist, PerChan.get_set_same, PerChan.get_set_same, h.hist]
  block := h.block

/-- The cabinet's port is no part of the agreement. -/
theorem State.SameChan.withPort (h : State.SameChan c n s s') (calls calls' : List CabCall) (k k' : Nat) :
    State.SameChan c n { s with cabst := calls, rdySamples := k } { s' with cabst := calls', rdySamples := k' } :=
  ⟨h.gain, h.drive, h.coef, h.byp, h.hist, h.block⟩

theorem State.SameChan.bypOf_eq (h : State.SameChan c n s s') (st : Stage) : s.bypOf c st = s'.bypOf c st :=
  congrArg (·.get st) h.byp

/-- A stage function's output and the history it leaves depend on the channel alone. -/
theorem State.SameChan.stageSample (h : State.SameChan c n s s') (st : Stage) (x : Word) :
    (s.stageSample c st x).1 = (s'.stageSample c st x).1 ∧
      State.SameChan c n (s.stageSample c st x).2 (s'.stageSample c st x).2 := by
  cases st with
  | gain g =>
    have hg : s.gainOf c g = s'.gainOf c g := congrArg (·.get g) h.gain
    exact ⟨congrArg (gainOut · x) hg, h⟩
  | filt f =>
    have hk : s.coefOf c f = s'.coefOf c f := congrArg (·.get f) h.coef
    have hh : s.histOf c f = s'.histOf c f := congrArg (·.get f) h.hist
    simp only [State.stageSample, hk, hh, true_and]
    exact h.setHist f _
  | shaper => exact ⟨congrArg (shapeOut · x) h.drive, h⟩
  | cab => exact ⟨rfl, h⟩

theorem State.SameChan.sampleStep (h : State.SameChan c n s s') (st : Stage) {i : Nat} (hi : i < n) :
    State.SameChan c n (s.sampleStep c st i) (s'.sampleStep c st i) := by
  obtain ⟨xs, hb, hb'⟩ := h.block
  obtain ⟨hout, hnext⟩ := h.stageSample st (xs i)
  rw [State.sampleStep_written st (hb i hi), State.sampleStep_written st (hb' i hi), hout]
  exact hnext.memWrite i _

theorem State.SameChan.sampleLoop (h : State.SameChan c n s s') (st : Stage) (k : Nat) (hk : k ≤ n) :
    State.SameChan c n (s.sampleLoop c st k) (s'.sampleLoop c st k) := by
  induction k with
  | zero => exact h
  | succ k ih => exact (ih (by omega)).sampleStep st hk

theorem State.SameChan.runStage (h : State.SameChan c n s s') {st : Stage} (hst : st ≠ .cab) :
    State.SameChan c n (s.runStage c n st) (s'.runStage c n st) := by
  rw [s.runStage_of_ne_cab c n hst, s'.runStage_of_ne_cab c n hst, h.bypOf_eq st]
  split
  · exact h
  · exact h.sampleLoop st n (Nat.le_refl n)

theorem State.SameChan.runStages (h : State.SameChan c n s s') (sts : List Stage) (hsts : ∀ st ∈ sts, st ≠ .cab) :
    State.SameChan c n (s.runStages c n sts) (s'.runStages c n sts) := by
  induction sts generalizing s s' with
  | nil => exact h
  | cons st sts ih =>
    obtain ⟨hst, hrest⟩ := List.forall_mem_cons.mp hsts
    exact ih (h.runStage hst) hrest

theorem State.SameChan.writeFrom (h : State.SameChan c n s s') (vs : List Word) (i : Nat) :
    State.SameChan c n (s.writeFrom c i vs) (s'.writeFrom c i vs) := by
  induction vs generalizing s s' i with
  | nil => exact h
  | cons v vs ih => exact ih (h.memWrite i v) (i + 1)

/-- Given `cab_chan`, the block the unit returns depends only on the calls that concern the channel. -/
theorem cabBlock_eq_of_concerns (hc : CabChan Config.cabWord) {calls calls' : List CabCall}
    (h : calls.filter (CabCall.concerns c) = calls'.filter (CabCall.concerns c)) (xs : List Word) :
    cabBlock calls c xs = cabBlock calls' c xs := by
  have hword : Config.cabWord calls c xs = Config.cabWord calls' c xs := by
    funext i
    rw [hc calls, hc calls', h]
  unfold cabBlock
  rw [hword]

/-- The cabinet step keeps the agreement: it does nothing in both states, or returns the same block in both. -/
theorem State.SameChan.cabStep (h : State.SameChan c n s s') (hcab : State.SameCab c s s') :
    State.SameChan c n (s.cabStep c n) (s'.cabStep c n) := by
  cases hoff : s.cabBypassed c (Config.cabrdy s.rdySamples) with
  | true =>
    rw [State.cabStep_bypassed n hoff, State.cabStep_bypassed n (hcab.bypassed.symm.trans hoff)]
    exact h.withPort _ _ _ _
  | false =>
    obtain ⟨xs, hb, hb'⟩ := h.block
    obtain ⟨hchan, hcalls⟩ := hcab.calls.resolve_left (by simp [hoff])
    rw [State.cabStep_running hoff hb, State.cabStep_running (hcab.bypassed.symm.trans hoff) hb',
      cabBlock_eq_of_concerns hchan hcalls]
    exact (h.withPort _ _ _ _).writeFrom _ 0

/-- The stages before the cabinet leave its port and the bypass flags alone. -/
theorem State.SameCab.runStages (h : State.SameCab c s s') (sts : List Stage) (hsts : ∀ st ∈ sts, st ≠ .cab) :
    State.SameCab c (s.runStages c n sts) (s'.runStages c n sts) := by
  have off (u : State) : (u.runStages c n sts).cabBypassed c (Config.cabrdy (u.runStages c n sts).rdySamples) =
      u.cabBypassed c (Config.cabrdy u.rdySamples) := by
    rw [(u.runStages_port c n sts hsts).2, u.runStages_audioFrame c n sts]
    rfl
  refine ⟨?_, ?_⟩
  · rw [off s, off s']
    exact h.bypassed
  · rw [off s, (s.runStages_port c n sts hsts).1, (s'.runStages_port c n sts hsts).1]
    exact h.calls

/-- The chain keeps the agreement: the stages before the cabinet, the cabinet, and the output gain each do. -/
theorem State.SameChan.runChain (h : State.SameChan c n s s') (hcab : State.SameCab c s s') :
    State.SameChan c n (s.runChain c n) (s'.runChain c n) := by
  unfold State.runChain
  split
  · exact h
  · rw [State.runStages_chain, State.runStages_chain]
    have before := h.runStages stagesBeforeCab stagesBeforeCab_ne_cab
    have cab := before.cabStep (hcab.runStages stagesBeforeCab stagesBeforeCab_ne_cab)
    exact cab.runStage (by decide)

theorem exec_proc_of_le (h : n ≤ s.blksz.toNat) : exec (.proc c n) s = .next (s.runChain c n) := by
  simp [exec, execProc, countOk, h]

end Agreement

/-- Settles O34: the chain keeps the agreement of the two states on the channel. -/
theorem procSeesOnlyItsChannel : Obligations.ProcSeesOnlyItsChannel := by
  intro s s' c n xs hn hn' hb hb' hoff hcalls hgain hdrive hcoef hbyp hhist
  have before : State.SameChan c n s s' := ⟨hgain, hdrive, hcoef, hbyp, hhist, xs, hb, hb'⟩
  have after := before.runChain ⟨hoff, hcalls⟩
  obtain ⟨ys, hy, hy'⟩ := after.block
  exact ⟨_, _, ys, exec_proc_of_le hn, exec_proc_of_le hn', hy, hy', after.hist⟩

end Sys2Proof.Machine

/-! ## Writing a sample buffer (spec/20_memory.md R65) -/

namespace Sys2Proof.Machine

/-- The written word reads back. -/
theorem State.word_memWrite_same (s : State) (c : Chan) (i : Nat) (v : Word) :
    (s.memWrite c i v).mem.word c i = some v := by
  rw [State.memWrite_mem, Memory.word_setWord_same]

/-- Every other word inside the buffers is unchanged: `BLKMAX` is at most 65535 (spec/20_memory.md R61), so the two
channels' buffers do not overlap. -/
theorem State.word_memWrite_other (s : State) {c d : Chan} {i j : Nat} (v : Word) (hi : i < Config.blkmax)
    (hj : j < Config.blkmax) (h : (d, j) ≠ (c, i)) : (s.memWrite c i v).mem.word d j = s.mem.word d j := by
  obtain ⟨_, hmax⟩ := blkmax_bounds
  rw [State.memWrite_mem]
  exact s.mem.word_setWord_other v (by omega) (by omega) h

/-- A buffer write touches the memory alone. -/
theorem State.memWrite_frame (s : State) (c : Chan) (i : Nat) (v : Word) :
    s.memWrite c i v = { s with mem := (s.memWrite c i v).mem } := rfl

/-- Settles O29: the written word, every other word, and the rest of the state, one lemma each. -/
theorem memWriteChangesOneWord : Obligations.MemWriteChangesOneWord := fun s c i v hi =>
  ⟨s.word_memWrite_same c i v, fun _ _ hj hne => s.word_memWrite_other v hi hj hne, s.memWrite_frame c i v⟩

end Sys2Proof.Machine

/-! ## Head words: fields and reserved bits (spec/30_encoding.md R91, R95)

A head word is its four fields over a zero field `z`, and the `MBZ` mask of a format covers the fields that the format
does not use. -/

namespace Sys2Proof.Machine

/-! ### The fields of a word put together, and a word put together from its fields -/

@[simp] theorem extract_stage_headWord (op : BitVec 8) (s : BitVec 4) (c : BitVec 1) (imm : BitVec 16) :
    (headWord op s c imm).extractLsb' 20 4 = s := by
  rw [headWord, BitVec.extractLsb'_append_eq_of_le (by decide), BitVec.extractLsb'_append_eq_of_le (by decide),
    BitVec.extractLsb'_append_eq_of_le (by decide)]
  exact BitVec.extractLsb'_append_eq_right

@[simp] theorem extract_chan_headWord (op : BitVec 8) (s : BitVec 4) (c : BitVec 1) (imm : BitVec 16) :
    (headWord op s c imm).extractLsb' 16 1 = c := by
  rw [headWord, BitVec.extractLsb'_append_eq_of_le (by decide)]
  exact BitVec.extractLsb'_append_eq_right

@[simp] theorem extract_imm_headWord (op : BitVec 8) (s : BitVec 4) (c : BitVec 1) (imm : BitVec 16) :
    (headWord op s c imm).extractLsb' 0 16 = imm :=
  BitVec.extractLsb'_append_eq_right

/-- A word whose field `z` is zero is put together from its other four fields. -/
theorem headWord_of_fields {w : Word} (hz : w.extractLsb' 17 3 = 0#3) :
    headWord (fieldOp w) (w.extractLsb' 20 4) (w.extractLsb' 16 1) (w.extractLsb' 0 16) = w := by
  have hz' : (0 : BitVec 3) = w.extractLsb' 17 3 := hz.symm
  rw [headWord, fieldOp, hz',
    BitVec.extractLsb'_append_extractLsb'_eq_extractLsb' (start₁ := 20) (len₁ := 4) rfl,
    BitVec.extractLsb'_append_extractLsb'_eq_extractLsb' (start₁ := 17) (len₁ := 3) rfl,
    BitVec.extractLsb'_append_extractLsb'_eq_extractLsb' (start₁ := 16) (len₁ := 1) rfl,
    BitVec.extractLsb'_append_extractLsb'_eq_extractLsb' (start₁ := 0) (len₁ := 16) rfl]
  exact BitVec.extractLsb'_eq_self

/-! ### The fields as the decoder reads them and as the encoder writes them -/

theorem fieldStage_lt (w : Word) : fieldStage w < 16 := (w.extractLsb' 20 4).isLt

theorem fieldImm_lt (w : Word) : fieldImm w < 65536 := (w.extractLsb' 0 16).isLt

theorem ofNat_fieldStage (w : Word) : BitVec.ofNat 4 (fieldStage w) = w.extractLsb' 20 4 := by
  rw [fieldStage, BitVec.ofNat_toNat, BitVec.setWidth_eq]

theorem ofNat_fieldImm (w : Word) : BitVec.ofNat 16 (fieldImm w) = w.extractLsb' 0 16 := by
  rw [fieldImm, BitVec.ofNat_toNat, BitVec.setWidth_eq]

theorem fieldStage_headWord (op : BitVec 8) {st : Nat} (h : st < 16) (c : BitVec 1) (imm : BitVec 16) :
    fieldStage (headWord op (BitVec.ofNat 4 st) c imm) = st := by
  rw [fieldStage, extract_stage_headWord, BitVec.toNat_ofNat, Nat.mod_eq_of_lt h]

theorem fieldImm_headWord (op : BitVec 8) (s : BitVec 4) (c : BitVec 1) {n : Nat} (h : n < 65536) :
    fieldImm (headWord op s c (BitVec.ofNat 16 n)) = n := by
  rw [fieldImm, extract_imm_headWord, BitVec.toNat_ofNat, Nat.mod_eq_of_lt h]

/-- The channel field as a one-bit word. -/
theorem fieldChan_eq (w : Word) : fieldChan w = if w.extractLsb' 16 1 = 1#1 then .right else .left := by
  have hbit : w.extractLsb' 16 1 = BitVec.ofBool (w.getLsbD 16) := by
    apply BitVec.eq_of_getLsbD_eq
    intro i hi
    obtain rfl : i = 0 := by omega
    simp
  rw [fieldChan, hbit]
  cases w.getLsbD 16 <;> rfl

theorem bit_fieldChan (w : Word) : (fieldChan w).bit = w.extractLsb' 16 1 := by
  rw [fieldChan_eq]
  obtain h | h := BitVec.eq_zero_or_eq_one (w.extractLsb' 16 1) <;> rw [h] <;> rfl

theorem fieldChan_headWord (op : BitVec 8) (s : BitVec 4) (c : Chan) (imm : BitVec 16) :
    fieldChan (headWord op s c.bit imm) = c := by
  rw [fieldChan_eq, extract_chan_headWord]
  cases c <;> rfl

theorem fieldFlag_eq (w : Word) : fieldFlag w = (w.extractLsb' 0 16).getLsbD 0 := by
  simp [fieldFlag]

theorem fieldFlag_headWord (op : BitVec 8) (s : BitVec 4) (c : BitVec 1) (v : Bool) :
    fieldFlag (headWord op s c (if v then 1 else 0)) = v := by
  rw [fieldFlag_eq, extract_imm_headWord]
  cases v <;> rfl

/-- The immediate of format SV: only bit 0 is used (spec/30_encoding.md R95). -/
theorem flag_of_fieldFlag {w : Word} (h : w.extractLsb' 0 16 &&& 0xFFFE#16 = 0#16) :
    (if fieldFlag w then 1 else 0) = w.extractLsb' 0 16 := by
  rw [fieldFlag_eq]
  generalize w.extractLsb' 0 16 = imm at h
  have hone : imm &&& 1#16 = imm := by
    calc imm &&& 1#16 = imm &&& 0xFFFE#16 ||| imm &&& 1#16 := by rw [h, BitVec.zero_or]
      _ = imm &&& BitVec.allOnes 16 := BitVec.and_or_distrib_left.symm
      _ = imm := BitVec.and_allOnes
  rw [← hone, BitVec.and_one_eq_setWidth_ofBool_getLsbD]
  cases imm.getLsbD 0 <;> rfl

/-! ### The reserved bits -/

/-- The fields that a format does not use are zero: the table of spec/30_encoding.md R95 by fields. It is what the `MBZ`
mask says (`and_mbz_eq_zero_iff`). -/
def UnusedClear (s : BitVec 4) (c : BitVec 1) (imm : BitVec 16) : Format → Prop
  | .z => s = 0#4 ∧ c = 0#1 ∧ imm = 0#16
  | .s => c = 0#1 ∧ imm = 0#16
  | .sv => c = 0#1 ∧ imm &&& 0xFFFE#16 = 0#16
  | .ci => s = 0#4
  | .r => s = 0#4 ∧ c = 0#1
  | .cs => imm = 0#16

/-- Bits that a mask covers whole are zero in a word that the mask finds clear. -/
theorem extract_eq_zero_of_and {w m : Word} (h : w &&& m = 0) {start len : Nat}
    (hm : m.extractLsb' start len = BitVec.allOnes len) : w.extractLsb' start len = 0#len := by
  have hw := congrArg (BitVec.extractLsb' start len) h
  rw [BitVec.extractLsb'_and, hm, BitVec.and_allOnes] at hw
  exact hw.trans BitVec.extractLsb'_zero

theorem and_mbz_eq_zero_iff (f : Format) (w : Word) :
    w &&& f.mbz = 0 ↔ w.extractLsb' 17 3 = 0#3 ∧
      UnusedClear (w.extractLsb' 20 4) (w.extractLsb' 16 1) (w.extractLsb' 0 16) f := by
  constructor
  · intro h
    have hz : w.extractLsb' 17 3 = 0#3 := extract_eq_zero_of_and h (by cases f <;> decide)
    refine ⟨hz, ?_⟩
    cases f with
    | z => exact ⟨extract_eq_zero_of_and h rfl, extract_eq_zero_of_and h rfl, extract_eq_zero_of_and h rfl⟩
    | s => exact ⟨extract_eq_zero_of_and h rfl, extract_eq_zero_of_and h rfl⟩
    | sv =>
      have himm := congrArg (BitVec.extractLsb' 0 16) h
      rw [BitVec.extractLsb'_and] at himm
      exact ⟨extract_eq_zero_of_and h rfl, himm⟩
    | ci => exact extract_eq_zero_of_and h rfl
    | r => exact ⟨extract_eq_zero_of_and h rfl, extract_eq_zero_of_and h rfl⟩
    | cs => exact extract_eq_zero_of_and h rfl
  · rintro ⟨hz, hu⟩
    have hx : (w &&& f.mbz).extractLsb' 17 3 = 0#3 := by rw [BitVec.extractLsb'_and, hz, BitVec.zero_and]
    rw [← headWord_of_fields hx]
    simp only [fieldOp, BitVec.extractLsb'_and]
    cases f with
    | z =>
      obtain ⟨hs, hc, hi⟩ := hu
      simp [Format.mbz, hs, hc, hi, headWord]
    | s =>
      obtain ⟨hc, hi⟩ := hu
      simp [Format.mbz, hc, hi, headWord]
    | sv =>
      obtain ⟨hc, hi⟩ := hu
      simp [Format.mbz, hc, hi, headWord]
    | ci =>
      have hs : w.extractLsb' 20 4 = 0#4 := hu
      simp [Format.mbz, hs, headWord]
    | r =>
      obtain ⟨hs, hc⟩ := hu
      simp [Format.mbz, hs, hc, headWord]
    | cs =>
      have hi : w.extractLsb' 0 16 = 0#16 := hu
      simp [Format.mbz, hi, headWord]


/-! ### An instruction's head word -/

/-- The head word holds the opcode (spec/30_encoding.md R91, R97). -/
theorem fieldOp_head (i : Instr) : fieldOp i.head = i.op.code := by
  cases i <;> exact Laws.EncodedLength.fieldOp_headWord ..

/-- The head word has its reserved bits zero (spec/30_encoding.md R95). -/
theorem head_and_mbz (i : Instr) : i.head &&& i.op.format.mbz = 0 := by
  rw [and_mbz_eq_zero_iff]
  cases i with
  | byp st v => cases v <;> simp [Instr.head, Instr.op, Op.format, UnusedClear, Laws.EncodedLength.reserved_headWord]
  | nop | prep | rsta | rsts | clre | ldg | ldd | ldc | wrs | rds | proc | rdr | rdp =>
    simp [Instr.head, Instr.op, Op.format, UnusedClear, Laws.EncodedLength.reserved_headWord]

@[simp] theorem op_build (op : Op) (w : Word) (rest : List Word) : (op.build w rest).op = op := by cases op <;> rfl

/-- What the decoder builds is a term that a head word can hold. -/
theorem wf_build (op : Op) (w : Word) (rest : List Word) : (op.build w rest).wf = true := by
  have hst : stageFits (fieldStage w) = true := decide_eq_true (fieldStage_lt w)
  have himm : immFits (fieldImm w) = true := decide_eq_true (fieldImm_lt w)
  cases op with
  | nop | prep | rsta | clre => rfl
  | rsts | ldg | ldd | ldc | byp | rdp => exact hst
  | wrs | rds | proc | rdr => exact himm

/-- A head word with its reserved bits zero is the head word of the instruction built from it: the fields in use are
read back, the others are zero. -/
theorem head_build {op : Op} {w : Word} (hop : fieldOp w = op.code) (hm : w &&& op.format.mbz = 0)
    (rest : List Word) : (op.build w rest).head = w := by
  obtain ⟨hz, hu⟩ := (and_mbz_eq_zero_iff op.format w).mp hm
  have heta := headWord_of_fields hz
  rw [hop] at heta
  cases op with
  | nop | prep | rsta | clre =>
    obtain ⟨hs, hc, hi⟩ := hu
    rwa [hs, hc, hi] at heta
  | rsts | ldg | ldd | ldc =>
    obtain ⟨hc, hi⟩ := hu
    rwa [hc, hi, ← ofNat_fieldStage] at heta
  | byp =>
    obtain ⟨hc, hi⟩ := hu
    rwa [hc, ← flag_of_fieldFlag hi, ← ofNat_fieldStage] at heta
  | wrs | rds | proc =>
    have hs : w.extractLsb' 20 4 = 0#4 := hu
    rwa [hs, ← bit_fieldChan, ← ofNat_fieldImm] at heta
  | rdr =>
    obtain ⟨hs, hc⟩ := hu
    rwa [hs, hc, ← ofNat_fieldImm] at heta
  | rdp =>
    have hi : w.extractLsb' 0 16 = 0#16 := hu
    rwa [hi, ← bit_fieldChan, ← ofNat_fieldStage] at heta

/-! ### An instruction's operand words -/

theorem encode_length (i : Instr) : (encode i).length = i.op.length := by cases i <;> rfl

/-- The first words after the head word, one by one as the decoder reads them. -/
theorem take_eq_map_opnd {rest : List Word} {n : Nat} (h : n ≤ rest.length) :
    rest.take n = (List.range n).map fun k => opnd rest (k + 1) := by
  apply List.ext_getElem
  · simp [h]
  · intro k hk _
    have hk' : k < rest.length := (List.length_take_le' n rest).trans_lt' hk
    simp [opnd, hk']

/-- The operand words there are, are the operand words of the instruction built from them. -/
theorem operands_build {op : Op} {rest : List Word} (hl : op.length ≤ rest.length + 1) (w : Word) :
    (op.build w rest).operands = rest.take (op.length - 1) := by
  rw [take_eq_map_opnd (by omega)]
  cases op <;> rfl

/-- Building from an instruction's own head word and operand words gives it back. -/
theorem build_encode {i : Instr} (h : i.wf = true) (rest : List Word) :
    i.op.build i.head (i.operands ++ rest) = i := by
  cases i with
  | nop | prep | rsta | clre => rfl
  | rsts st => exact congrArg Instr.rsts (fieldStage_headWord _ (of_decide_eq_true h) _ _)
  | ldg st g => exact congrArg (Instr.ldg · g) (fieldStage_headWord _ (of_decide_eq_true h) _ _)
  | ldd st d => exact congrArg (Instr.ldd · d) (fieldStage_headWord _ (of_decide_eq_true h) _ _)
  | ldc st k => exact congrArg (Instr.ldc · k) (fieldStage_headWord _ (of_decide_eq_true h) _ _)
  | byp st v =>
    exact congrArg₂ Instr.byp (fieldStage_headWord _ (of_decide_eq_true h) _ _) (fieldFlag_headWord ..)
  | wrs c n v =>
    exact congrArg₂ (Instr.wrs · · v) (fieldChan_headWord ..) (fieldImm_headWord _ _ _ (of_decide_eq_true h))
  | rds c n => exact congrArg₂ Instr.rds (fieldChan_headWord ..) (fieldImm_headWord _ _ _ (of_decide_eq_true h))
  | proc c n => exact congrArg₂ Instr.proc (fieldChan_headWord ..) (fieldImm_headWord _ _ _ (of_decide_eq_true h))
  | rdr r => exact congrArg Instr.rdr (fieldImm_headWord _ _ _ (of_decide_eq_true h))
  | rdp c st =>
    exact congrArg₂ Instr.rdp (fieldChan_headWord ..) (fieldStage_headWord _ (of_decide_eq_true h) _ _)

/-! ### Decoding and encoding -/

/-- Settles O1: the encoding has an assigned opcode, all its operand words and no reserved bit, so it decodes, and what
is built from it is the instruction. -/
theorem encodedInstructionDecodes : Obligations.EncodedInstructionDecodes := by
  intro i rest hwf
  have hlen : i.op.length ≤ (i.operands ++ rest).length + 1 := by
    rw [← encode_length, encode, List.length_append, List.length_cons]
    omega
  have hop : Op.ofCode? (fieldOp i.head) = some i.op := by rw [fieldOp_head, Op.ofCode?_code]
  rw [encode_length, encode, List.cons_append, decode_legal hop hlen (head_and_mbz i), build_encode hwf]

/-- Settles O2: only the legal answer of the decoder is an instruction, and there the head word and the operand words
are those of the instruction built from them. -/
theorem decodedWordsAreTheEncoding : Obligations.DecodedWordsAreTheEncoding := by
  intro ws i len h
  obtain ⟨_, h'⟩ | ⟨w, rest, rfl, ⟨_, h'⟩ | ⟨op, hop, ⟨_, h'⟩ | ⟨_, _, h'⟩ | ⟨hl, hm, h'⟩⟩⟩ := decode_cases ws <;>
    cases h.symm.trans h'
  have hlen : (encode (op.build w rest)).length = op.length := by rw [encode_length, op_build]
  refine ⟨wf_build op w rest, hlen.symm, ?_⟩
  calc (w :: rest).take op.length
      = w :: rest.take (op.length - 1) := List.take_cons (Op.length_pos op)
    _ = encode (op.build w rest) := by
      rw [encode, head_build (Op.ofCode?_eq_some.mp hop).symm hm, operands_build hl]

/-- Settles O3: the decoder run on each of the spec's words. -/
theorem wordsOfTheSpecDecode : Obligations.WordsOfTheSpecDecode := by
  unfold Obligations.WordsOfTheSpecDecode
  decide

end Sys2Proof.Machine

/-! ## Fetching a command (spec/30_encoding.md R92, R93, R96, R100 to R102)

A step takes as many words from the stream as the head word's opcode says, however the command ends. -/

namespace Sys2Proof.Machine

/-! ### The length a head word gives its command (spec/30_encoding.md R93) -/

/-- The words that a command with head word `w` takes: one where the opcode is unassigned (spec/30_encoding.md R93).
What the decoder answers has this length (`decode_cons_cases`). -/
def headLength (w : Word) : Nat := (Op.ofCode? (fieldOp w)).elim 1 Op.length

theorem headLength_of_op {w : Word} {op : Op} (h : Op.ofCode? (fieldOp w) = some op) : headLength w = op.length := by
  rw [headLength, h, Option.elim_some]

theorem headLength_of_unassigned {w : Word} (h : Op.ofCode? (fieldOp w) = none) : headLength w = 1 := by
  rw [headLength, h, Option.elim_none]

theorem headLength_pos (w : Word) : 1 ≤ headLength w := by
  cases h : Op.ofCode? (fieldOp w) with
  | none => rw [headLength_of_unassigned h]
  | some op => exact (headLength_of_op h).symm ▸ Op.length_pos op

/-- The table of spec/30_encoding.md R93. -/
theorem headLength_eq (w : Word) :
    headLength w = if fieldOp w = 0x01 then 3 else if fieldOp w ∈ [(0x10 : BitVec 8), 0x11, 0x20] then 2
      else if fieldOp w = 0x12 then 9 else 1 := by
  cases h : Op.ofCode? (fieldOp w) with
  | none =>
    have hne := Op.ofCode?_eq_none.mp h
    have hmem : fieldOp w ∉ [(0x10 : BitVec 8), 0x11, 0x20] := by
      simp only [List.mem_cons, List.not_mem_nil, or_false, not_or]
      exact ⟨(hne .ldg).symm, (hne .ldd).symm, (hne .wrs).symm⟩
    have hprep : fieldOp w ≠ 0x01 := (hne .prep).symm
    have hldc : fieldOp w ≠ 0x12 := (hne .ldc).symm
    rw [headLength_of_unassigned h, if_neg hprep, if_neg hmem, if_neg hldc]
  | some op =>
    rw [headLength_of_op h, ← Op.ofCode?_eq_some.mp h]
    cases op <;> rfl

/-- What the decoder answers by the length of the command: it is not all there, or it is illegal or an instruction of
exactly that length. -/
theorem decode_cons_cases (w : Word) (rest : List Word) :
    (rest.length + 1 < headLength w ∧ decode (w :: rest) = .incomplete) ∨
    (headLength w ≤ rest.length + 1 ∧ ((∃ e, decode (w :: rest) = .illegal e w (headLength w)) ∨
      ∃ i, decode (w :: rest) = .ok i (headLength w))) := by
  obtain ⟨hnil, _⟩ | ⟨w', rest', hcons, h⟩ := decode_cases (w :: rest)
  · cases hnil
  · cases hcons
    obtain ⟨hop, h⟩ | ⟨op, hop, h⟩ := h
    · rw [headLength_of_unassigned hop]
      exact .inr ⟨by omega, .inl ⟨_, h⟩⟩
    · rw [headLength_of_op hop]
      obtain h | ⟨hl, _, h⟩ | ⟨hl, _, h⟩ := h
      · exact .inl h
      · exact .inr ⟨hl, .inl ⟨_, h⟩⟩
      · exact .inr ⟨hl, .inr ⟨_, h⟩⟩

/-- Words that do not make a whole command are fewer than the head word asks for, whatever comes after them. -/
theorem length_lt_of_incomplete {held more rest : List Word} {w : Word} (h : decode held = .incomplete)
    (hw : held ++ more = w :: rest) : held.length < headLength w := by
  cases held with
  | nil => exact headLength_pos w
  | cons v vs =>
    cases hw
    obtain ⟨hlt, _⟩ | ⟨_, ⟨e, h'⟩ | ⟨i, h'⟩⟩ := decode_cons_cases w vs
    · exact hlt
    · cases h.symm.trans h'
    · cases h.symm.trans h'

/-! ### A step by what the decoder answers -/

theorem step_of_incomplete {s : State} (h : decode s.stream = .incomplete) : step s = .next s.hold := by
  rw [step, h]

theorem step_of_illegal {s : State} {e : Cause} {w : Word} {len : Nat} (h : decode s.stream = .illegal e w len) :
    step s = .next ((s.consume len).raise e w) := by
  rw [step, h]

theorem step_of_ok {s : State} {i : Instr} {len : Nat} (h : decode s.stream = .ok i len) :
    step s = exec i (s.consume len) := by
  rw [step, h]

theorem State.stream_of_held_nil {s : State} (h : s.held = []) : s.stream = s.input := by
  rw [State.stream, h, List.nil_append]

/-- At a command boundary the words of a command leave the input, and `cp` counts them all. -/
theorem State.consume_of_held_nil {s : State} (h : s.held = []) (len : Nat) :
    s.consume len = { s with input := s.input.drop len, cp := s.cp + len } := by
  simp [State.consume, State.stream, h]

/-- A decoding error at a command boundary. -/
theorem step_illegal_of_held_nil {s : State} {e : Cause} {w : Word} {len : Nat} (h : s.held = [])
    (hd : decode s.input = .illegal e w len) :
    step s = .next (if s.err then { s with input := s.input.drop len, cp := s.cp + len }
      else { s with
        input := s.input.drop len, cp := s.cp + len, err := true, ecode := Cause.code e, eword := w }) := by
  rw [← State.stream_of_held_nil h] at hd
  rw [step_of_illegal hd, State.consume_of_held_nil h, State.raise]

/-- Settles O4: the decoder answers `E_OPCODE` and one word. -/
theorem unassignedOpcodeLatched : Obligations.UnassignedOpcodeLatched := by
  refine ⟨fun s w rest hheld hin hop => ?_, Op.ofCode?_eq_none.mp (by decide), by decide⟩
  have hd : decode s.input = .illegal .opcode w 1 := by
    rw [hin, decode_unassigned (Op.ofCode?_eq_none.mpr hop)]
  rw [step_illegal_of_held_nil hheld hd, hin]
  rfl

/-- Settles O5: the decoder answers `E_RSVD` and the length of the opcode. -/
theorem reservedBitsLatched : Obligations.ReservedBitsLatched := by
  intro s op w rest hheld hin hop hlen hm
  have hd : decode s.input = .illegal .rsvd w op.length := by
    rw [hin, decode_reserved (Op.ofCode?_eq_some.mpr hop.symm) hlen hm]
  have hdrop : (w :: rest).drop op.length = rest.drop (op.length - 1) := List.drop_cons (Op.length_pos op)
  rw [step_illegal_of_held_nil hheld hd, hin, hdrop]
  rfl

/-! ### The pause inside a command (spec/30_encoding.md R96) -/

theorem State.hold_stream (s : State) : s.hold.stream = s.stream := List.append_nil _

theorem State.hold_hold (s : State) : s.hold.hold = s.hold := by
  rw [State.hold, State.hold_stream]
  rfl

theorem step_hold {s : State} (h : decode s.stream = .incomplete) : step s.hold = .next s.hold := by
  rw [step_of_incomplete (s.hold_stream.symm ▸ h), State.hold_hold]

/-- Settles O6: the words are held, and a second hold changes nothing. -/
theorem incompleteCommandIsHeld : Obligations.IncompleteCommandIsHeld := by
  intro s op w rest hheld hin hop hlen
  have hstream : s.stream = w :: rest := by rw [State.stream_of_held_nil hheld, hin]
  have hd : decode s.stream = .incomplete := by
    rw [hstream, decode_short (Op.ofCode?_eq_some.mpr hop.symm) hlen]
  refine ⟨s.hold, step_of_incomplete hd, ?_, ⟨rfl, ?_⟩, step_hold hd⟩
  · rw [State.hold, hstream, hin, List.length_cons]
  · rw [State.hold_held, hstream]
    exact List.cons_ne_nil w rest

theorem State.deliver_stream (s : State) (ws : List Word) : (s.deliver ws).stream = s.stream ++ ws :=
  (List.append_assoc ..).symm

theorem State.hold_deliver_stream (s : State) (ws : List Word) :
    (s.hold.deliver ws).stream = (s.deliver ws).stream := by
  rw [State.deliver_stream, State.hold_stream, State.deliver_stream]

/-- A second pause: the words of both deliveries are held, and each is counted once. -/
theorem State.hold_deliver_hold (s : State) (ws : List Word) : (s.hold.deliver ws).hold = (s.deliver ws).hold := by
  simp [State.hold, State.deliver, State.stream, Nat.add_assoc]

/-- The held words of a command that completes are not counted again. -/
theorem State.hold_deliver_consume (s : State) (ws : List Word) {len : Nat} (h : s.stream.length ≤ len) :
    (s.hold.deliver ws).consume len = (s.deliver ws).consume len := by
  have hcp : s.cp + s.input.length + (len - s.stream.length) = s.cp + (len - s.held.length) := by
    rw [State.stream, List.length_append] at h ⊢
    omega
  rw [State.consume, State.hold_deliver_stream, State.consume, State.deliver_cp, State.hold_cp, State.deliver_held,
    State.hold_held, hcp]
  rfl

/-- Settles O7: held or not, the same words are decoded; where the command completes, it is longer than what was
held. -/
theorem pausedCommandResumes : Obligations.PausedCommandResumes := by
  intro s ws hd
  refine ⟨s.hold, step_of_incomplete hd, ?_⟩
  have hsame := s.hold_deliver_stream ws
  cases hstream : (s.deliver ws).stream with
  | nil =>
    have hdec : decode (s.deliver ws).stream = .incomplete := hstream ▸ rfl
    rw [step_of_incomplete (hsame ▸ hdec), step_of_incomplete hdec, State.hold_deliver_hold]
  | cons w rest =>
    have hlt := length_lt_of_incomplete hd ((s.deliver_stream ws).symm.trans hstream)
    have hconsume := s.hold_deliver_consume ws hlt.le
    obtain ⟨_, hdec⟩ | ⟨_, ⟨e, hdec⟩ | ⟨i, hdec⟩⟩ := decode_cons_cases w rest <;> rw [← hstream] at hdec
    · rw [step_of_incomplete (hsame ▸ hdec), step_of_incomplete hdec, State.hold_deliver_hold]
    · rw [step_of_illegal (hsame ▸ hdec), step_of_illegal hdec, hconsume]
    · rw [step_of_ok (hsame ▸ hdec), step_of_ok hdec, hconsume]

/-! ### What a step consumes -/

/-- Settles O8: what is at the front of the stream is what the decoder finds there. -/
theorem stepRunsTheDecodedInstruction : Obligations.StepRunsTheDecodedInstruction := by
  intro s i rest hwf hstream
  have hd : decode s.stream = .ok i (encode i).length := hstream ▸ encodedInstructionDecodes i rest hwf
  rw [step_of_ok hd, State.consume, hstream, List.drop_left]

/-- Executing an instruction touches neither the stream nor `cp`. -/
theorem exec_stream_frame {i : Instr} {s t : State} (h : exec i s = .next t) :
    t.cp = s.cp ∧ t.held = s.held ∧ t.input = s.input := by
  obtain ⟨-, -, -, -, -, -, -, -, -, -, -, -, -, -, hstream⟩ := accessMatrixHolds i s t h
  exact hstream

/-- A step that finds a whole command consumes its words, and nothing of what follows. -/
theorem step_consumes {s t : State} {w : Word} {rest : List Word} (hstream : s.stream = w :: rest)
    (hd : decode s.stream ≠ .incomplete) (h : step s = .next t) :
    t.cp = (s.consume (headLength w)).cp ∧ t.held = (s.consume (headLength w)).held ∧
      t.input = (s.consume (headLength w)).input := by
  obtain ⟨_, hdec⟩ | ⟨_, ⟨e, hdec⟩ | ⟨i, hdec⟩⟩ := decode_cons_cases w rest <;> rw [← hstream] at hdec
  · exact absurd hdec hd
  · cases h.symm.trans (step_of_illegal hdec)
    exact ⟨State.raise_cp .., State.raise_held .., State.raise_input ..⟩
  · exact exec_stream_frame ((step_of_ok hdec).symm.trans h)

/-- Settles O9: the length of the head word, the held words among them counted before. -/
theorem stepConsumesTheOpcodesLength : Obligations.StepConsumesTheOpcodesLength := by
  intro s t w rest hheld hstream hd h
  obtain ⟨hcp, hnil, hin⟩ := step_consumes hstream hd h
  have hlt := length_lt_of_incomplete hheld hstream
  rw [State.consume_cp] at hcp
  exact ⟨headLength w, headLength_eq w, by omega, hnil, hin⟩

end Sys2Proof.Machine

/-! ## The response stream (spec/30_encoding.md R94) -/

namespace Sys2Proof.Machine

theorem installed?_length {s : State} {c : Chan} {st : Stage} {vs : List Word} (h : s.installed? c st = some vs) :
    vs.length ≤ 8 := by
  cases st with
  | gain g | filt f | shaper =>
    cases h
    simp [Coeffs.words]
  | cab => cases h

/-- A completed command appends at most the eight words of a coefficient tuple. -/
theorem State.Completes.responses_appended {s t : State} {i : Instr} (h : s.Completes i t) :
    ∃ ws, t.responses = s.responses ++ ws ∧ ws.length ≤ 8 := by
  have hframe := h.frame
  cases h with
  | @rds i c _ =>
    refine ⟨[(s.memRead c i).1], ?_, by simp⟩
    rw [State.emit_responses, State.memRead_frame]
  | @rdr r v u hr =>
    refine ⟨[v], ?_, by simp⟩
    rw [State.emit_responses, sysReg?_frame hr]
  | rdp hvs =>
    obtain ⟨st, _, hst⟩ := Option.bind_eq_some_iff.mp hvs
    exact ⟨_, rfl, installed?_length hst⟩
  | nop | prep | rsta | rsts | clre | ldg | ldd | ldc | byp | wrs | proc =>
    rw [hframe]
    exact ⟨[], (List.append_nil _).symm, Nat.zero_le 8⟩

/-- A completed command latches no error. -/
theorem State.Completes.err_clear {s t : State} {i : Instr} (h : s.Completes i t) (hs : s.err = false) :
    t.err = false := by
  have hframe := h.frame
  cases h with
  | clre => rfl
  | nop | prep | rsta | rsts | ldg | ldd | ldc | byp | wrs | rds | proc | rdr | rdp =>
    rw [hframe]
    exact hs

/-- Settles O59: a wait and an error append nothing, a completed command appends its words and latches no error. -/
theorem responsesAreOnlyAppended : Obligations.ResponsesAreOnlyAppended := by
  intro s t h
  obtain ⟨_, h'⟩ | ⟨e, w, len, _, h'⟩ | ⟨i, len, _, h'⟩ := step_cases s <;> rw [h'] at h
  · cases h
    exact ⟨[], (List.append_nil _).symm, Nat.zero_le 8, fun _ _ => rfl⟩
  · cases h
    refine ⟨[], ?_, Nat.zero_le 8, fun _ _ => rfl⟩
    rw [State.raise_responses, State.consume_responses, List.append_nil]
  · obtain ⟨e, _, rfl⟩ | ⟨_, hc⟩ := exec_next_cases h
    · refine ⟨[], ?_, Nat.zero_le 8, fun _ _ => rfl⟩
      rw [State.reject_responses, State.consume_responses, List.append_nil]
    · obtain ⟨ws, happ, hlen⟩ := hc.responses_appended
      refine ⟨ws, happ, hlen, fun hs ht => ?_⟩
      rw [hc.err_clear hs] at ht
      cases ht

end Sys2Proof.Machine

/-! ## Rounding to nearest, ties to even (spec/40_numerics.md R132) -/

namespace Sys2Proof.Machine

/-! ### The nearest integer -/

/-- `roundHalfEven` stands between the two half way points, and on one only if it is even. -/
theorem roundHalfEven_between (n : Nat) {d : Nat} (hd : 0 < d) :
    (2 * n < (2 * roundHalfEven n d + 1) * d ∨
      2 * n = (2 * roundHalfEven n d + 1) * d ∧ roundHalfEven n d % 2 = 0) ∧
    (2 * roundHalfEven n d * d < 2 * n + d ∨
      2 * roundHalfEven n d * d = 2 * n + d ∧ roundHalfEven n d % 2 = 0) := by
  have hn : d * (n / d) + n % d = n := Nat.div_add_mod n d
  have hr : n % d < d := Nat.mod_lt n hd
  unfold roundHalfEven
  generalize n / d = q at *
  generalize n % d = r at *
  have hq : q % 2 = 0 ∨ q % 2 = 1 := Nat.mod_two_eq_zero_or_one q
  dsimp only
  split_ifs with hlt htie
  · constructor <;> left <;> nlinarith
  · obtain hq | hq := hq <;> rw [hq]
    · exact ⟨.inr ⟨by rw [← hn]; linarith, hq⟩, .inl (by nlinarith)⟩
    · exact ⟨.inl (by nlinarith), .inr ⟨by rw [← hn]; linarith, by omega⟩⟩
  · have hgt : d < 2 * r := by omega
    constructor <;> left <;> nlinarith

theorem le_roundHalfEven {k n d : Nat} (hd : 0 < d) (h : k * d ≤ n) : k ≤ roundHalfEven n d := by
  have hq : k ≤ n / d := (Nat.le_div_iff_mul_le hd).mpr h
  unfold roundHalfEven
  dsimp only
  split_ifs <;> omega

theorem roundHalfEven_le {k n d : Nat} (h : n < k * d) : roundHalfEven n d ≤ k := by
  have hq : n / d < k := Nat.div_lt_of_lt_mul (by rwa [Nat.mul_comm])
  unfold roundHalfEven
  dsimp only
  split_ifs <;> omega

/-! ### The magnitude that stands between its half way points -/

/-- `m` is where rounding to nearest, ties to even, puts `n` / `d` units when no magnitude is the last: `n` / `d` is on
`m`'s side of half way to any other magnitude, or half way and `m` is even. -/
structure RoundsTo (n d m : Nat) : Prop where
  above : ∀ q, m < q → 2 * n < (magUnits m + magUnits q) * d ∨ 2 * n = (magUnits m + magUnits q) * d ∧ m % 2 = 0
  below : ∀ q, q < m → (magUnits q + magUnits m) * d < 2 * n ∨ (magUnits q + magUnits m) * d = 2 * n ∧ m % 2 = 0

/-- `roundMag` before infinity cuts it off. -/
def roundOpen (n d : Nat) : Nat :=
  ((n / d).log2 - 23) * 2 ^ 23 + roundHalfEven n (d * 2 ^ ((n / d).log2 - 23))

theorem roundMag_eq (n d : Nat) : roundMag n d = min (roundOpen n d) infMag := rfl

/-- The exponent `roundMag` takes: the whole part has 24 bits above it, and fewer only at exponent 0. -/
theorem div_log2_bounds (N : Nat) :
    N < 2 ^ 24 * 2 ^ (N.log2 - 23) ∧ (N.log2 - 23 ≠ 0 → 2 ^ 23 * 2 ^ (N.log2 - 23) ≤ N) := by
  rw [← Nat.pow_add, ← Nat.pow_add]
  constructor
  · calc N < 2 ^ (N.log2 + 1) := Nat.lt_log2_self
      _ ≤ 2 ^ (24 + (N.log2 - 23)) := Nat.pow_le_pow_right (by decide) (by omega)
  · intro hs
    rw [show 23 + (N.log2 - 23) = N.log2 by omega]
    exact Nat.log2_self_le (by rintro rfl; exact hs (by decide))

/-- The units of 24 bits at an exponent, the carry out of the 24 bits included. -/
theorem magUnits_of_shape {sh r : Nat} (h : r ≤ 2 ^ 24) (h' : sh ≠ 0 → 2 ^ 23 ≤ r) :
    magUnits (sh * 2 ^ 23 + r) = r * 2 ^ sh := by
  by_cases hc : r = 2 ^ 24
  · rw [magUnits, if_neg (by omega), hc, show (sh * 2 ^ 23 + 2 ^ 24) % 2 ^ 23 = 0 by omega,
      show (sh * 2 ^ 23 + 2 ^ 24) / 2 ^ 23 - 1 = sh + 1 by omega, Nat.pow_succ]
    omega
  by_cases hr : 2 ^ 23 ≤ r
  · rw [magUnits, if_neg (by omega), show (sh * 2 ^ 23 + r) / 2 ^ 23 - 1 = sh by omega,
      show 2 ^ 23 + (sh * 2 ^ 23 + r) % 2 ^ 23 = r by omega]
  · obtain rfl : sh = 0 := by
      by_contra hs
      exact hr (h' hs)
    rw [magUnits, if_pos (by omega)]
    omega

/-- The next magnitude is at least one step of the exponent further. -/
theorem le_magUnits_succ {sh r : Nat} (h : r ≤ 2 ^ 24) (h' : sh ≠ 0 → 2 ^ 23 ≤ r) :
    (r + 1) * 2 ^ sh ≤ magUnits (sh * 2 ^ 23 + r + 1) := by
  by_cases hc : r = 2 ^ 24
  · rw [show sh * 2 ^ 23 + r + 1 = (sh + 1) * 2 ^ 23 + (2 ^ 23 + 1) by omega,
      magUnits_of_shape (by omega) (by omega), hc, Nat.pow_succ]
    omega
  · rw [Nat.add_assoc, magUnits_of_shape (by omega) (by omega)]

theorem roundOpen_roundsTo (n : Nat) {d : Nat} (hd : 0 < d) : RoundsTo n d (roundOpen n d) := by
  obtain ⟨hN, hN'⟩ := div_log2_bounds (n / d)
  unfold roundOpen
  generalize (n / d).log2 - 23 = sh at *
  have hD : 0 < d * 2 ^ sh := Nat.mul_pos hd (Nat.two_pow_pos sh)
  have hn : n < 2 ^ 24 * (d * 2 ^ sh) := by
    have := (Nat.div_lt_iff_lt_mul hd).mp hN
    linarith
  have hn' : sh ≠ 0 → 2 ^ 23 * (d * 2 ^ sh) ≤ n := fun hs => by
    have := (Nat.le_div_iff_mul_le hd).mp (hN' hs)
    linarith
  have hk : roundHalfEven n (d * 2 ^ sh) ≤ 2 ^ 24 := roundHalfEven_le hn
  have hk' : sh ≠ 0 → 2 ^ 23 ≤ roundHalfEven n (d * 2 ^ sh) := fun hs => le_roundHalfEven hD (hn' hs)
  obtain ⟨habove, hbelow⟩ := roundHalfEven_between n hD
  generalize roundHalfEven n (d * 2 ^ sh) = k at *
  have hunits : magUnits (sh * 2 ^ 23 + k) = k * 2 ^ sh := magUnits_of_shape hk hk'
  have heven : (sh * 2 ^ 23 + k) % 2 = k % 2 := by omega
  constructor <;> intro q hq <;> rw [hunits, heven]
  · have hstep : (k + 1) * 2 ^ sh ≤ magUnits q :=
      le_trans (le_magUnits_succ hk hk') (magUnits_le_iff.mpr hq)
    have hfar : (2 * k + 1) * (d * 2 ^ sh) ≤ (k * 2 ^ sh + magUnits q) * d :=
      calc (2 * k + 1) * (d * 2 ^ sh) = (k * 2 ^ sh + (k + 1) * 2 ^ sh) * d := by ring
        _ ≤ _ := Nat.mul_le_mul_right d (by omega)
    omega
  · by_cases hlow : sh ≠ 0 ∧ k = 2 ^ 23
    · -- the magnitudes below are closer together, but `n` / `d` is not below `m`
      obtain ⟨hs, rfl⟩ := hlow
      have hlt : magUnits q < 2 ^ 23 * 2 ^ sh := hunits ▸ magUnits_lt_iff.mpr hq
      have := Nat.mul_lt_mul_of_pos_right hlt hd
      have := hn' hs
      left
      linarith
    · have hk0 : k ≠ 0 := by omega
      have hstep : magUnits q ≤ (k - 1) * 2 ^ sh := by
        rw [← magUnits_of_shape (by omega) (by omega)]
        exact magUnits_le_iff.mpr (by omega)
      have hfar : (magUnits q + k * 2 ^ sh) * d + d * 2 ^ sh ≤ 2 * k * (d * 2 ^ sh) :=
        calc (magUnits q + k * 2 ^ sh) * d + d * 2 ^ sh
            ≤ ((k - 1) * 2 ^ sh + k * 2 ^ sh) * d + d * 2 ^ sh := by gcongr
          _ = ((k - 1 + 1) + k) * (d * 2 ^ sh) := by ring
          _ = 2 * k * (d * 2 ^ sh) := by rw [Nat.sub_add_cancel (by omega)]; ring
      omega

/-! ### Where infinity begins, and which magnitude is nearest -/

/-- The midpoint above the largest finite value, in units (spec/40_numerics.md R132). -/
def overflowUnits : Nat := (2 ^ 128 - 2 ^ 103) * 2 ^ 149

theorem overflowUnits_midpoint : 2 * overflowUnits = magUnits (infMag - 1) + magUnits infMag := by decide

/-- The distance of `n` / `d` units from a magnitude, times `d`. -/
def unitsFar (n d q : Nat) : Nat := ((magUnits q * d : Nat) - (n : Nat) : Int).natAbs

theorem RoundsTo.overflow_iff {n d m : Nat} (hd : 0 < d) (h : RoundsTo n d m) :
    overflowUnits * d ≤ n ↔ infMag ≤ m := by
  have hmid : 2 * (overflowUnits * d) = (magUnits (infMag - 1) + magUnits infMag) * d := by
    rw [← overflowUnits_midpoint, Nat.mul_assoc]
  constructor
  · intro hn
    by_contra hm
    by_cases hlast : m = infMag - 1
    · -- the largest finite magnitude is odd, so a tie goes up to infinity
      have hodd : m % 2 ≠ 0 := by rw [hlast]; decide
      have := h.above infMag (by omega)
      rw [hlast] at this hodd
      omega
    · have hlt : (magUnits m + magUnits infMag) * d < (magUnits (infMag - 1) + magUnits infMag) * d :=
        Nat.mul_lt_mul_of_pos_right (Nat.add_lt_add_right (magUnits_lt_iff.mpr (by omega)) _) hd
      have := h.above infMag (by omega)
      omega
  · intro hm
    have hle : (magUnits (infMag - 1) + magUnits infMag) * d ≤ (magUnits (infMag - 1) + magUnits m) * d :=
      Nat.mul_le_mul_right d (Nat.add_le_add_left (magUnits_le_iff.mpr hm) _)
    have := h.below (infMag - 1) (lt_of_lt_of_le (by decide) hm)
    omega

/-- The magnitude `n` / `d` rounds to is the nearest, and the even one of two that are equally near. -/
theorem RoundsTo.nearest {n d m q : Nat} (hd : 0 < d) (h : RoundsTo n d m) (hq : q ≠ m) :
    unitsFar n d m < unitsFar n d q ∨ unitsFar n d m = unitsFar n d q ∧ m % 2 = 0 := by
  rw [unitsFar, unitsFar]
  obtain hlt | hlt := Nat.lt_or_gt_of_ne hq
  · have := h.below q hlt
    have := Nat.mul_lt_mul_of_pos_right (magUnits_lt_iff.mpr hlt) hd
    rw [Nat.add_mul] at *
    omega
  · have := h.above q hlt
    have := Nat.mul_lt_mul_of_pos_right (magUnits_lt_iff.mpr hlt) hd
    rw [Nat.add_mul] at *
    omega

end Sys2Proof.Machine

/-! ## The four operations case by case (spec/40_numerics.md R133 to R136) -/

namespace Sys2Proof.Machine

/-! ### Classes and zeros -/

/-- An infinity is no NaN, no zero and not finite. -/
theorem isInf_classes {w : Word} (h : isInf w = true) :
    isNaN w = false ∧ isZero w = false ∧ isFinite w = false := by
  have hm := (isInf_iff w).mp h
  have hpos : 0 < infMag := by decide
  simp only [Bool.eq_false_iff, ne_eq]
  refine ⟨?_, ?_, ?_⟩
  · rw [isNaN_iff]; omega
  · rw [isZero_iff]; omega
  · rw [isFinite_iff]; omega

theorem isFinite_of_isZero {w : Word} (h : isZero w = true) : isFinite w = true := by
  rw [isFinite_iff, (isZero_iff w).mp h]
  decide

theorem isNaN_of_isQuietNaN {w : Word} (h : isQuietNaN w = true) : isNaN w = true := by
  unfold isQuietNaN at h
  exact (Bool.and_eq_true_iff.mp h).1

/-- A pattern that is no NaN is finite or an infinity. -/
theorem isFinite_or_isInf {w : Word} (h : isNaN w = false) : isFinite w = true ∨ isInf w = true := by
  rw [Bool.eq_false_iff, ne_eq, isNaN_iff] at h
  rw [isFinite_iff, isInf_iff]
  omega

theorem magUnits_eq_zero_iff {m : Nat} : magUnits m = 0 ↔ m = 0 := magUnits_strictMono.injective.eq_iff (b := 0)

theorem funits_eq_zero_iff {w : Word} : funits w = 0 ↔ isZero w = true := by
  rw [funits_eq, isZero_iff, magUnits_eq_zero_iff]

theorem funits_pos {w : Word} (h : isZero w = false) : 0 < funits w := by
  rw [Nat.pos_iff_ne_zero, ne_eq, funits_eq_zero_iff, h]
  exact Bool.false_ne_true

@[simp] theorem natAbs_fnum (w : Word) : (fnum w).natAbs = funits w := by
  unfold fnum
  split <;> omega

theorem fnum_eq_zero_iff {w : Word} : fnum w = 0 ↔ isZero w = true := by
  rw [← funits_eq_zero_iff, ← natAbs_fnum, Int.natAbs_eq_zero]

@[simp] theorem funits_fneg (w : Word) : funits (fneg w) = funits w := by
  rw [funits_eq, fmag_fneg, ← funits_eq]

@[simp] theorem fnum_fneg (w : Word) : fnum (fneg w) = -fnum w := by
  unfold fnum
  rw [fsign_fneg, funits_fneg]
  cases fsign w <;> simp

theorem fnum_neg_iff {w : Word} : fnum w < 0 ↔ fsign w = true ∧ isZero w = false := by
  rw [Bool.eq_false_iff, ne_eq, ← funits_eq_zero_iff]
  unfold fnum
  cases fsign w
  · simp
  · simp only [if_true, true_and]
    omega

/-- The two zeros are the patterns 0 and 0x80000000. -/
theorem eq_zero_of_isZero {w : Word} (h : isZero w = true) : w = 0 ∨ w = 0x80000000 := by
  rw [isZero_iff] at h
  cases hs : fsign w
  · exact .inl (word_ext hs h)
  · exact .inr (word_ext hs h)

/-- A pattern from the exclusive or of two signs. -/
theorem fpack_bne {m : Word} (hm : fsign m = false) (s t : Bool) :
    fpack (s != t) (fmag m) = if s = t then m else fneg m := by
  rw [fneg_eq, hm]
  by_cases h : s = t
  · rw [if_pos h, bne_eq_false_iff_eq.mpr h, ← hm, fpack_eta]
  · rw [if_neg h, bne_iff_ne.mpr h]
    rfl

/-! ### Addition and subtraction (spec/40_numerics.md R133) -/

section Operations
variable {a b : Word}

theorem fadd_nan (h : isNaN a = true ∨ isNaN b = true) : fadd a b = nangen .add a b := by
  rw [fadd, if_pos (by simpa using h)]

theorem fadd_inf_opposite (ha : isInf a = true) (hb : isInf b = true) (hs : fsign a ≠ fsign b) :
    fadd a b = nangen .add a b := by
  simp [fadd, ha, hb, hs]

theorem fadd_inf_left (ha : isInf a = true) (hb : isNaN b = false) (hs : isInf b = true → fsign a = fsign b) :
    fadd a b = a := by
  simp only [fadd, ha, hb, (isInf_classes ha).1]
  cases h : isInf b
  · simp
  · simp [hs h]

theorem fadd_inf_right (ha : isFinite a = true) (hb : isInf b = true) : fadd a b = b := by
  simp [fadd, isFinite_classes ha, hb, isInf_classes hb]

/-- A sum of finite operands: an exact zero is +0 unless both terms are -0, any other sum is rounded once. -/
theorem fadd_finite (ha : isFinite a = true) (hb : isFinite b = true) :
    fadd a b = if fnum a + fnum b = 0 then (if a = 0x80000000 ∧ b = 0x80000000 then 0x80000000 else 0)
      else fpack (decide (fnum a + fnum b < 0)) (roundMag (fnum a + fnum b).natAbs 1) := by
  simp only [fadd, isFinite_classes ha, isFinite_classes hb, Bool.or_self, Bool.false_eq_true, if_false]
  by_cases hz : isZero a = true ∧ isZero b = true
  · obtain ⟨hza, hzb⟩ := hz
    have ht : fnum a + fnum b = 0 := by rw [fnum_eq_zero_iff.mpr hza, fnum_eq_zero_iff.mpr hzb]; rfl
    rw [if_pos (by simp [hza, hzb]), if_pos ht]
    obtain rfl | rfl := eq_zero_of_isZero hza <;> obtain rfl | rfl := eq_zero_of_isZero hzb <;> decide
  · rw [if_neg (by simpa using hz)]
    by_cases ht : fnum a + fnum b = 0
    · rw [if_pos ht, if_pos ht, if_neg]
      rintro ⟨rfl, rfl⟩
      exact hz (by decide)
    · rw [if_neg ht, if_neg ht]

theorem isQuietNaN_fsub (h : isNaN a = true ∨ isNaN b = true) : isQuietNaN (fsub a b) = true := by
  unfold fsub
  split
  · exact isQuietNaN_nangen _ _ _
  · rename_i hb
    rw [fadd_nan (.inl (h.resolve_right hb))]
    exact isQuietNaN_nangen _ _ _

theorem fsub_eq (hb : isNaN b = false) : fsub a b = fadd a (fneg b) := by
  rw [fsub, if_neg (by simp [hb])]

/-! ### Multiplication (spec/40_numerics.md R134) -/

theorem isQuietNaN_fmul
    (h : isNaN a = true ∨ isNaN b = true ∨ isZero a = true ∧ isInf b = true ∨ isInf a = true ∧ isZero b = true) :
    isQuietNaN (fmul a b) = true := by
  have hq : fmul a b = nangen .mul a b := by
    unfold fmul
    dsimp only
    split_ifs with h1 h2
    · rfl
    · rfl
    all_goals
      simp only [Bool.or_eq_true, Bool.and_eq_true] at h1 h2
      tauto
  rw [hq]
  exact isQuietNaN_nangen _ _ _

theorem fmul_inf (ha : isInf a = true ∨ isInf b = true) (hna : isNaN a = false) (hnb : isNaN b = false)
    (hza : isZero a = false) (hzb : isZero b = false) : fmul a b = fpack (fsign a != fsign b) infMag := by
  simp [fmul, hna, hnb, hza, hzb, ha]

theorem roundMag_zero {d : Nat} (hd : 0 < d) : roundMag 0 d = 0 := by
  simpa using roundMag_exact (m := 0) hd (Nat.zero_le _)

/-- A product of finite operands, rounded once; a zero needs no rounding. -/
theorem fmul_finite (ha : isFinite a = true) (hb : isFinite b = true) :
    fmul a b = fpack (fsign a != fsign b) (roundMag (funits a * funits b) (2 ^ 149)) := by
  simp only [fmul, isFinite_classes ha, isFinite_classes hb, Bool.or_self, Bool.and_false, Bool.false_and,
    Bool.false_eq_true, if_false]
  split_ifs with hz
  · have hu : funits a * funits b = 0 := by
      rw [Nat.mul_eq_zero, funits_eq_zero_iff, funits_eq_zero_iff]
      simpa using hz
    rw [hu, roundMag_zero (by decide)]
  · rfl

/-! ### Division (spec/40_numerics.md R135) -/

theorem isQuietNaN_fdiv
    (h : isNaN a = true ∨ isNaN b = true ∨ isZero a = true ∧ isZero b = true ∨ isInf a = true ∧ isInf b = true) :
    isQuietNaN (fdiv a b) = true := by
  have hq : fdiv a b = nangen .div a b := by
    unfold fdiv
    dsimp only
    split_ifs with h1 h2
    · rfl
    · rfl
    all_goals
      simp only [Bool.or_eq_true, Bool.and_eq_true] at h1 h2
      tauto
  rw [hq]
  exact isQuietNaN_nangen _ _ _

theorem fdiv_inf_left (ha : isInf a = true) (hb : isFinite b = true) :
    fdiv a b = fpack (fsign a != fsign b) infMag := by
  simp [fdiv, ha, isInf_classes ha, isFinite_classes hb]

theorem fdiv_inf_right (ha : isFinite a = true) (hb : isInf b = true) : fdiv a b = fpack (fsign a != fsign b) 0 := by
  simp [fdiv, hb, isInf_classes hb, isFinite_classes ha]

theorem fdiv_by_zero (ha : isFinite a = true) (hza : isZero a = false) (hb : isZero b = true) :
    fdiv a b = fpack (fsign a != fsign b) infMag := by
  simp [fdiv, hza, hb, isFinite_classes ha, isFinite_classes (isFinite_of_isZero hb)]

/-- A quotient of finite operands, rounded once; a zero needs no rounding. -/
theorem fdiv_finite (ha : isFinite a = true) (hb : isFinite b = true) (hzb : isZero b = false) :
    fdiv a b = fpack (fsign a != fsign b) (roundMag (funits a * 2 ^ 149) (funits b)) := by
  simp only [fdiv, isFinite_classes ha, isFinite_classes hb, hzb, Bool.or_self, Bool.and_false, Bool.false_eq_true,
    if_false]
  split_ifs with hz
  · rw [funits_eq_zero_iff.mpr hz, Nat.zero_mul, roundMag_zero (funits_pos hzb)]
  · rfl

end Operations

end Sys2Proof.Machine

/-! ## The operands that are not finite, and division by zero (spec/40_numerics.md R133 to R136) -/

namespace Sys2Proof.Machine

theorem fpack_inf (s t : Bool) : fpack (s != t) infMag = if s = t then 0x7F800000 else fneg 0x7F800000 :=
  fpack_bne (m := 0x7F800000) (by decide) s t

theorem fpack_zero (s t : Bool) : fpack (s != t) 0 = if s = t then 0 else fneg 0 :=
  fpack_bne (m := 0) (by decide) s t

section Infinities
variable {a b : Word}

/-- The row of two infinities in the tables of the four operations. -/
theorem operations_inf_inf (ha : isInf a = true) (hb : isInf b = true) :
    (if fsign a = fsign b then fadd a b = a ∧ isQuietNaN (fsub a b) = true
      else isQuietNaN (fadd a b) = true ∧ fsub a b = a) ∧
    fmul a b = fpack (fsign a != fsign b) infMag ∧ isQuietNaN (fdiv a b) = true := by
  obtain ⟨hna, hza, _⟩ := isInf_classes ha
  obtain ⟨hnb, hzb, _⟩ := isInf_classes hb
  have hb' : isInf (fneg b) = true := by rw [isInf_fneg, hb]
  refine ⟨?_, fmul_inf (.inl ha) hna hnb hza hzb, isQuietNaN_fdiv (.inr (.inr (.inr ⟨ha, hb⟩)))⟩
  rw [fsub_eq hnb]
  split_ifs with hs
  · refine ⟨fadd_inf_left ha hnb fun _ => hs, ?_⟩
    rw [fadd_inf_opposite ha hb' (by simp [hs])]
    exact isQuietNaN_nangen _ _ _
  · refine ⟨?_, fadd_inf_left ha (by rw [isNaN_fneg, hnb]) fun _ => ?_⟩
    · rw [fadd_inf_opposite ha hb hs]
      exact isQuietNaN_nangen _ _ _
    · rw [fsign_fneg]
      exact Bool.eq_not_of_ne hs

/-- The rows of an infinity and a finite operand in the tables of the four operations. -/
theorem operations_inf_finite (ha : isInf a = true) (hb : isFinite b = true) :
    fadd a b = a ∧ fadd b a = a ∧ fsub a b = a ∧ fsub b a = fneg a ∧
    (if isZero b then isQuietNaN (fmul a b) = true ∧ isQuietNaN (fmul b a) = true
      else fmul a b = fpack (fsign a != fsign b) infMag ∧ fmul b a = fpack (fsign a != fsign b) infMag) ∧
    fdiv a b = fpack (fsign a != fsign b) infMag ∧ fdiv b a = fpack (fsign a != fsign b) 0 := by
  obtain ⟨hna, hza, _⟩ := isInf_classes ha
  obtain ⟨hnb, hib⟩ := isFinite_classes hb
  have hsum {c : Word} (hc : isFinite c = true) : fadd a c = a :=
    fadd_inf_left ha (isFinite_classes hc).1 fun h => by rw [(isFinite_classes hc).2] at h; cases h
  have hsign : (fsign b != fsign a) = (fsign a != fsign b) := bne_comm
  refine ⟨hsum hb, fadd_inf_right hb ha, ?_, ?_, ?_, fdiv_inf_left ha hb, hsign ▸ fdiv_inf_right hb ha⟩
  · rw [fsub_eq hnb, hsum (by rw [isFinite_fneg, hb])]
  · rw [fsub_eq hna, fadd_inf_right hb (by rw [isInf_fneg, ha])]
  · cases hzb : isZero b
    · exact ⟨fmul_inf (.inl ha) hna hnb hza hzb, hsign ▸ fmul_inf (.inr ha) hnb hna hzb hza⟩
    · exact ⟨isQuietNaN_fmul (.inr (.inr (.inr ⟨ha, hzb⟩))), isQuietNaN_fmul (.inr (.inr (.inl ⟨hzb, ha⟩)))⟩

end Infinities

/-- Settles O44: row by row of the rules' tables. -/
theorem nanOperandsGiveQuietNaNs : Obligations.NaNOperandsGiveQuietNaNs := by
  intro a b
  dsimp only
  rw [← fpack_inf, ← fpack_zero]
  refine ⟨fun h => ?_, operations_inf_inf, operations_inf_finite, fun ha hb => ?_⟩
  · have hadd : isQuietNaN (fadd a b) = true := fadd_nan h ▸ isQuietNaN_nangen _ _ _
    have hmul : isQuietNaN (fmul a b) = true := isQuietNaN_fmul (or_assoc.mp (.inl h))
    have hdiv : isQuietNaN (fdiv a b) = true := isQuietNaN_fdiv (or_assoc.mp (.inl h))
    exact ⟨hadd, isQuietNaN_fsub h, hmul, hdiv⟩
  · cases hza : isZero a
    · exact fdiv_by_zero ha hza hb
    · exact isQuietNaN_fdiv (.inr (.inr (.inl ⟨hza, hb⟩)))

end Sys2Proof.Machine

/-! ## The exact identities of 1.0 and the zeros (spec/40_numerics.md R144) -/

namespace Sys2Proof.Machine

theorem funits_one : funits 0x3F800000 = 2 ^ 149 := by decide

/-- The units of a finite word over 1 round to the word's own magnitude. -/
theorem roundMag_funits {x : Word} (hx : isFinite x = true) {d : Nat} (hd : 0 < d) :
    roundMag (funits x * d) d = fmag x := by
  rw [funits_eq]
  exact roundMag_exact hd ((isFinite_iff x).mp hx).le

/-- 1.0 times a pattern that is no NaN is the pattern. -/
theorem fmul_one {x : Word} (hx : isNaN x = false) : fmul 0x3F800000 x = x := by
  have hs : (fsign 0x3F800000 != fsign x) = fsign x := by
    rw [show fsign 0x3F800000 = false by decide, Bool.false_bne]
  obtain hf | hi := isFinite_or_isInf hx
  · rw [fmul_finite (by decide) hf, hs, funits_one, Nat.mul_comm, roundMag_funits hf (Nat.two_pow_pos 149), fpack_eta]
  · rw [fmul_inf (.inr hi) (by decide) hx (by decide) (isInf_classes hi).2.1, hs, ← (isInf_iff x).mp hi, fpack_eta]

/-- A pattern that is no NaN over 1.0 is the pattern. -/
theorem fdiv_one {x : Word} (hx : isNaN x = false) : fdiv x 0x3F800000 = x := by
  have hs : (fsign x != fsign 0x3F800000) = fsign x := by
    rw [show fsign 0x3F800000 = false by decide, Bool.bne_false]
  obtain hf | hi := isFinite_or_isInf hx
  · rw [fdiv_finite hf (by decide) (by decide), hs, funits_one, roundMag_funits hf (Nat.two_pow_pos 149), fpack_eta]
  · rw [fdiv_inf_left hi (by decide), hs, ← (isInf_iff x).mp hi, fpack_eta]

/-- Adding a zero keeps every pattern that is no NaN, but -0 + +0 is +0. -/
theorem fadd_zero {x z : Word} (hx : isNaN x = false) (hz : isZero z = true) :
    fadd x z = if x = 0x80000000 ∧ z = 0 then 0 else x := by
  obtain hf | hi := isFinite_or_isInf hx
  · rw [fadd_finite hf (isFinite_of_isZero hz), fnum_eq_zero_iff.mpr hz, Int.add_zero]
    by_cases hzx : isZero x = true
    · rw [if_pos (fnum_eq_zero_iff.mpr hzx)]
      obtain rfl | rfl := eq_zero_of_isZero hzx <;> obtain rfl | rfl := eq_zero_of_isZero hz <;> decide
    · have hx0 : x ≠ 0x80000000 := fun h => hzx (by rw [h]; decide)
      have hs : decide (fnum x < 0) = fsign x := by
        rw [Bool.eq_iff_iff, decide_eq_true_iff, fnum_neg_iff]
        simp [hzx]
      have hm := roundMag_funits hf (d := 1) (by decide)
      rw [Nat.mul_one] at hm
      rw [if_neg (fun h => hzx (fnum_eq_zero_iff.mp h)), if_neg (fun h => hx0 h.1), natAbs_fnum, hs, hm, fpack_eta]
  · have hzf := isFinite_classes (isFinite_of_isZero hz)
    rw [fadd_inf_left hi hzf.1 (by simp [hzf.2]), if_neg]
    rintro ⟨rfl, _⟩
    revert hi
    decide

/-- Settles O43. -/
theorem exactIdentities : Obligations.ExactIdentities := by
  refine ⟨fun x hx => ?_, fun x hx => ?_, fun x hx => ?_⟩
  · have hpos : fadd x 0 = if x = 0x80000000 then 0 else x := by simpa using fadd_zero hx (z := 0) (by decide)
    have hneg : fadd x 0x80000000 = x := by simpa using fadd_zero hx (z := 0x80000000) (by decide)
    refine ⟨fmul_one hx, fdiv_one hx, hpos, hneg, ?_, ?_⟩
    · rw [fsub_eq (by decide)]
      exact hneg
    · rw [fsub_eq (by decide)]
      exact hpos
  · have hu {z : Word} (hz : isZero z = true) : fmul z x = fpack (fsign z != fsign x) 0 := by
      rw [fmul_finite (isFinite_of_isZero hz) hx, funits_eq_zero_iff.mpr hz, Nat.zero_mul,
        roundMag_zero (Nat.two_pow_pos 149)]
    rw [hu (by decide), hu (by decide)]
    cases fsign x <;> decide
  · have hq {z : Word} (hz : isZero z = true) : isNaN (fmul z x) = true :=
      isNaN_of_isQuietNaN (isQuietNaN_fmul (.inr (.inr (.inl ⟨hz, hx⟩))))
    exact ⟨hq (by decide), hq (by decide)⟩

end Sys2Proof.Machine

/-! ## Rounding and the four operations on finite operands (spec/40_numerics.md R132 to R135) -/

namespace Sys2Proof.Machine

/-! ### `roundMag` is the nearest magnitude -/

theorem roundMag_overflow {n d : Nat} (hd : 0 < d) (hn : overflowUnits * d ≤ n) : roundMag n d = infMag := by
  rw [roundMag_eq]
  exact Nat.min_eq_right (((roundOpen_roundsTo n hd).overflow_iff hd).mp hn)

/-- Below the midpoint above the largest finite value, no magnitude is nearer, and only the even one as near. -/
theorem roundMag_nearest {n d : Nat} (hd : 0 < d) (hn : n < overflowUnits * d) :
    roundMag n d < infMag ∧ ∀ q, q ≠ roundMag n d →
      unitsFar n d (roundMag n d) < unitsFar n d q ∨
        unitsFar n d (roundMag n d) = unitsFar n d q ∧ roundMag n d % 2 = 0 := by
  have h := roundOpen_roundsTo n hd
  have hlt : roundOpen n d < infMag := by
    by_contra hge
    have := (h.overflow_iff hd).mpr (Nat.not_lt.mp hge)
    omega
  rw [roundMag_eq, Nat.min_eq_left hlt.le]
  exact ⟨hlt, fun q hq => h.nearest hd hq⟩

/-- A word of the rounded magnitude is the nearest, whatever its sign. -/
theorem nearestEven_fpack (s : Bool) (n : Nat) {d : Nat} (hd : 0 < d) : NearestEven (fpack s (roundMag n d)) n d := by
  have hm : fmag (fpack s (roundMag n d)) = roundMag n d := fmag_fpack s (roundMag_lt n d)
  refine ⟨fun hn => ?_, fun hn => ?_⟩
  · rw [isInf_iff, hm]
    exact roundMag_overflow hd hn
  · obtain ⟨hlt, hnear⟩ := roundMag_nearest hd hn
    refine ⟨(isFinite_iff _).mpr (hm.symm ▸ hlt), fun v _ hv => ?_⟩
    dsimp only
    rw [funits_eq, funits_eq, hm]
    exact hnear (fmag v) (hm ▸ hv)

/-! ### The operations -/

/-- A finite sum that is not zero has its own sign and is rounded to nearest. -/
theorem fadd_nearest {a b : Word} (ha : isFinite a = true) (hb : isFinite b = true) (ht : fnum a + fnum b ≠ 0) :
    fsign (fadd a b) = decide (fnum a + fnum b < 0) ∧ NearestEven (fadd a b) (fnum a + fnum b).natAbs 1 := by
  rw [fadd_finite ha hb, if_neg ht]
  exact ⟨fsign_fpack _ (roundMag_lt _ _), nearestEven_fpack _ _ Nat.one_pos⟩

theorem fneg_eq_negZero_iff {w : Word} : fneg w = 0x80000000 ↔ w = 0 := by
  constructor
  · intro h
    rw [← fneg_fneg w, h]
    decide
  · rintro rfl
    decide

/-- Settles O42: the operations round the exact result once (`fadd_finite`, `fmul_finite`, `fdiv_finite`), and
`roundMag` takes the nearest magnitude (`roundOpen_roundsTo`). -/
theorem roundingIsToNearestEven : Obligations.RoundingIsToNearestEven := by
  refine ⟨fun n d hd => ?_, fun a b ha hb => ?_⟩
  · have hunits {q : Nat} (hq : q ≤ infMag) : funits (fpack false q) = magUnits q := by
      rw [funits_eq, fmag_fpack _ (lt_of_le_of_lt hq (by decide))]
    refine ⟨roundMag_overflow hd, fun hn => ?_⟩
    obtain ⟨hlt, hnear⟩ := roundMag_nearest hd hn
    refine ⟨hlt, fun q hq hne => ?_⟩
    dsimp only
    rw [hunits hlt.le, hunits hq.le]
    exact hnear q hne
  · have hb' : isFinite (fneg b) = true := by rw [isFinite_fneg, hb]
    have hsub : fsub a b = fadd a (fneg b) := fsub_eq (isFinite_classes hb).1
    have hdiff : fnum a - fnum b = fnum a + fnum (fneg b) := by rw [fnum_fneg, Int.sub_eq_add_neg]
    rw [hsub, hdiff]
    refine ⟨fadd_nearest ha hb, fun ht => ?_, fadd_nearest ha hb', fun ht => ?_, ?_, fun hzb => ?_⟩
    · rw [fadd_finite ha hb, if_pos ht]
    · rw [fadd_finite ha hb', if_pos ht]
      simp only [fneg_eq_negZero_iff]
    · rw [fmul_finite ha hb]
      exact ⟨fsign_fpack _ (roundMag_lt _ _), nearestEven_fpack _ _ (Nat.two_pow_pos 149)⟩
    · rw [fdiv_finite ha hb hzb]
      exact ⟨fsign_fpack _ (roundMag_lt _ _), nearestEven_fpack _ _ (funits_pos hzb)⟩

end Sys2Proof.Machine

/-! ## The arctangent (spec/40_numerics.md R140)

A function with the shape of an arctangent is odd, so its values at the positive arguments make it. In these, monotone
and faithful are what `ArctanMag` says of a function of magnitudes. -/

namespace Sys2Proof.Machine

/-! ### A function of words by its magnitudes -/

/-- The magnitude of `f` at the positive argument of magnitude `m`. -/
def magOf (f : Word → Word) (m : Nat) : Nat := fmag (f (fpack false m))

theorem magOf_lt (f : Word → Word) (m : Nat) : magOf f m < 2 ^ 31 := fmag_lt _

/-- The real arctangent of `u` units of 2^-149, in these units. -/
noncomputable def arctanReal (u : ℝ) : ℝ := Real.arctan (u / 2 ^ 149) * 2 ^ 149

theorem arctanReal_neg (u : ℝ) : arctanReal (-u) = -arctanReal u := by
  rw [arctanReal, neg_div, Real.arctan_neg, neg_mul, arctanReal]

theorem arctanReal_nonneg {u : ℝ} (h : 0 ≤ u) : 0 ≤ arctanReal u :=
  mul_nonneg (Real.arctan_nonneg.mpr (by positivity)) (by positivity)

theorem arctanReal_lt_halfPi (u : ℝ) : arctanReal u < magUnits 0x3FC90FDB := by
  have hpi : Real.pi / 2 * 2 ^ 149 < magUnits 0x3FC90FDB := by
    have h := Real.pi_lt_d20
    rw [show magUnits 0x3FC90FDB = 13176795 * 2 ^ 126 by decide]
    push_cast
    linarith
  exact lt_trans (mul_lt_mul_of_pos_right (Real.arctan_lt_pi_div_two _) (by positivity)) hpi

theorem lt_two_pow_of_le_infMag {m : Nat} (h : m ≤ infMag) : m < 2 ^ 31 := lt_of_le_of_lt h (by decide)

theorem fnum_of_pos {w : Word} (h : fsign w = false) : fnum w = magUnits (fmag w) := by
  rw [fnum, h, funits_eq]
  rfl

theorem fnum_fpack_pos {m : Nat} (h : m ≤ infMag) : fnum (fpack false m) = magUnits m := by
  rw [fnum_of_pos (fsign_fpack _ (lt_two_pow_of_le_infMag h)), fmag_fpack _ (lt_two_pow_of_le_infMag h)]

/-- A word whose value is not negative has its magnitude's units, a negative zero included. -/
theorem fnum_of_nonneg {w : Word} (h : 0 ≤ fnum w) : fnum w = magUnits (fmag w) := by
  rw [← funits_eq, ← natAbs_fnum, Int.natAbs_of_nonneg h]

theorem isNaN_false_iff {w : Word} : isNaN w = false ↔ fmag w ≤ infMag := by
  rw [Bool.eq_false_iff, ne_eq, isNaN_iff, Nat.not_lt]

theorem isNaN_fpack {m : Nat} (s : Bool) (h : m ≤ infMag) : isNaN (fpack s m) = false := by
  rw [isNaN_false_iff, fmag_fpack s (lt_two_pow_of_le_infMag h)]
  exact h

theorem isFinite_fpack {m : Nat} (s : Bool) (h : m < infMag) : isFinite (fpack s m) = true := by
  rw [isFinite_iff, fmag_fpack s (lt_two_pow_of_le_infMag h.le)]
  exact h

/-! ### What the shape says of the magnitudes -/

section Shape
variable {f : Word → Word}

/-- A function of the shape is made of its magnitudes. -/
theorem AtanShape.eq_fpack (hf : AtanShape f) {a : Word} (ha : isNaN a = false) :
    f a = fpack (fsign a) (magOf f (fmag a)) := by
  refine word_ext ?_ ?_
  · rw [fsign_fpack _ (magOf_lt _ _), hf.atan_sign a ha]
  rw [fmag_fpack _ (magOf_lt _ _), magOf]
  cases hs : fsign a
  · rw [← hs, fpack_eta]
  · have hpos : fpack false (fmag a) = fneg a := by rw [fneg_eq, hs]; rfl
    rw [hpos, hf.atan_odd a ha, fmag_fneg]

theorem AtanShape.fnum_apply_pos (hf : AtanShape f) {m : Nat} (hm : m ≤ infMag) :
    fnum (f (fpack false m)) = magUnits (magOf f m) := by
  rw [fnum_of_pos, magOf]
  rw [hf.atan_sign _ (isNaN_fpack false hm), fsign_fpack _ (lt_two_pow_of_le_infMag hm)]

theorem AtanShape.fnum_apply (hf : AtanShape f) {a : Word} (ha : isNaN a = false) :
    fnum (f a) = if fsign a then -(magUnits (magOf f (fmag a)) : Int) else magUnits (magOf f (fmag a)) := by
  rw [fnum, funits_eq, hf.eq_fpack ha, fsign_fpack _ (magOf_lt _ _), fmag_fpack _ (magOf_lt _ _)]

theorem AtanShape.magOf_zero (hf : AtanShape f) : magOf f 0 = 0 := by
  rw [magOf, show fpack false 0 = 0 by decide, hf.atan_zero.1]
  decide

theorem AtanShape.magOf_infMag (hf : AtanShape f) : magOf f infMag = 0x3FC90FDB := by
  rw [magOf, show fpack false infMag = 0x7F800000 by decide, hf.atan_inf.1]
  decide

theorem AtanShape.magOf_le (hf : AtanShape f) {m : Nat} (hm : m ≤ infMag) : magOf f m ≤ 0x3FC90FDB := by
  have h := (hf.atan_bound _ (isNaN_fpack false hm)).2
  rw [funits_eq, funits_eq, magUnits_le_iff] at h
  exact h

/-- `atan_mono` is about the magnitudes of the finite positive arguments. -/
theorem AtanShape.mono_iff (hf : AtanShape f) :
    AtanMono f ↔ ∀ m n, m ≤ n → n < infMag → magOf f m ≤ magOf f n := by
  constructor
  · intro h m n hmn hn
    have := h (fpack false m) (fpack false n) (isNaN_fpack _ (by omega)) (isNaN_fpack _ (by omega))
    rw [fnum_fpack_pos (by omega), fnum_fpack_pos (by omega), hf.fnum_apply_pos (by omega),
      hf.fnum_apply_pos (by omega), Int.ofNat_le, Int.ofNat_le, magUnits_le_iff, magUnits_le_iff] at this
    exact this hmn
  · intro h a b ha hb hab
    have hmag {m n : Nat} (hn : n ≤ infMag) (hmn : magUnits m ≤ magUnits n) :
        magUnits (magOf f m) ≤ magUnits (magOf f n) := by
      have hmn := magUnits_le_iff.mp hmn
      obtain hn | rfl := Nat.lt_or_eq_of_le hn
      · exact magUnits_le_iff.mpr (h m n hmn hn)
      · exact magUnits_le_iff.mpr (hf.magOf_infMag ▸ hf.magOf_le hmn)
    rw [hf.fnum_apply ha, hf.fnum_apply hb]
    have ha' := isNaN_false_iff.mp ha
    have hb' := isNaN_false_iff.mp hb
    rw [fnum, fnum, funits_eq, funits_eq] at hab
    cases hsa : fsign a <;> cases hsb : fsign b <;>
      simp only [hsa, hsb, if_true, Bool.false_eq_true, if_false] at hab ⊢
    case false.false =>
      have := hmag hb' (m := fmag a) (by omega)
      omega
    case false.true =>
      -- a positive argument is at most a negative one: both are zeros
      have hza : fmag a = 0 := magUnits_eq_zero_iff.mp (by omega)
      have hzb : fmag b = 0 := magUnits_eq_zero_iff.mp (by omega)
      simp [hza, hzb, hf.magOf_zero]
    case true.false => omega
    case true.true =>
      have := hmag ha' (m := fmag b) (by omega)
      omega

/-- `atan_faithful` for a positive argument against a positive word, by their magnitudes. -/
def FaithfulAt (g : Nat → Nat) (m q : Nat) : Prop :=
  (g m < q → arctanReal (magUnits m) < magUnits q) ∧ (q < g m → (magUnits q : ℝ) < arctanReal (magUnits m))

/-- `atan_faithful` for one argument against one word. -/
def NothingBetween (f : Word → Word) (a w : Word) : Prop :=
  ¬(fnum (f a) < fnum w ∧ (fnum w : ℝ) ≤ arctanReal (fnum a)) ∧
    ¬(arctanReal (fnum a) ≤ (fnum w : ℝ) ∧ fnum w < fnum (f a))

theorem AtanShape.nothingBetween_fneg (hf : AtanShape f) {a : Word} (ha : isNaN a = false) {w : Word}
    (h : NothingBetween f (fneg a) (fneg w)) : NothingBetween f a w := by
  obtain ⟨h1, h2⟩ := h
  simp only [hf.atan_odd a ha, fnum_fneg, Int.cast_neg, arctanReal_neg, neg_le_neg_iff, neg_lt_neg_iff] at h1 h2
  exact ⟨fun h => h2 h.symm, fun h => h1 h.symm⟩

theorem AtanShape.nothingBetween_pos (hf : AtanShape f) {m : Nat} (hm : m < infMag) {w : Word}
    (h : FaithfulAt (magOf f) m (fmag w)) : NothingBetween f (fpack false m) w := by
  obtain ⟨habove, hbelow⟩ := h
  have hR := arctanReal_nonneg (Nat.cast_nonneg (α := ℝ) (magUnits m))
  rw [NothingBetween, fnum_fpack_pos hm.le, hf.fnum_apply_pos hm.le, Int.cast_natCast]
  constructor
  · rintro ⟨hlt, hle⟩
    have hw : fnum w = magUnits (fmag w) := fnum_of_nonneg (by omega)
    rw [hw, Int.ofNat_lt, magUnits_lt_iff] at hlt
    rw [hw, Int.cast_natCast] at hle
    exact absurd (habove hlt) (not_lt.mpr hle)
  · rintro ⟨hle, hlt⟩
    have hw : fnum w = magUnits (fmag w) := fnum_of_nonneg (by exact_mod_cast le_trans hR hle)
    rw [hw, Int.ofNat_lt, magUnits_lt_iff] at hlt
    rw [hw, Int.cast_natCast] at hle
    exact absurd (hbelow hlt) (not_lt.mpr hle)

/-- `atan_faithful` is about the magnitudes of the finite positive arguments and words. -/
theorem AtanShape.faithful_iff (hf : AtanShape f) :
    AtanFaithful f ↔ ∀ m q, m < infMag → q < infMag → FaithfulAt (magOf f) m q := by
  constructor
  · intro h m q hm hq
    obtain ⟨h1, h2⟩ := h (fpack false m) (isFinite_fpack _ hm) (fpack false q) (isFinite_fpack _ hq)
    rw [fnum_fpack_pos hm.le, fnum_fpack_pos hq.le, hf.fnum_apply_pos hm.le, Int.ofNat_lt, magUnits_lt_iff,
      Int.cast_natCast, Int.cast_natCast] at h1 h2
    exact ⟨fun hlt => not_le.mp fun hle => h1 ⟨hlt, hle⟩, fun hlt => not_le.mp fun hle => h2 ⟨hle, hlt⟩⟩
  · intro h a ha w hw
    have hpos {b v : Word} (hs : fsign b = false) (hb : isFinite b = true) (hv : isFinite v = true) :
        NothingBetween f b v := by
      have hm := (isFinite_iff b).mp hb
      have := hf.nothingBetween_pos hm (h _ _ hm ((isFinite_iff v).mp hv))
      rwa [← hs, fpack_eta] at this
    cases hs : fsign a
    · exact hpos hs ha hw
    · exact hf.nothingBetween_fneg (isFinite_classes ha).1
        (hpos (by rw [fsign_fneg, hs]; rfl) (by rw [isFinite_fneg, ha]) (by rw [isFinite_fneg, hw]))

/-- Monotone and faithful is to have the magnitudes of an `ArctanMag`. -/
theorem AtanShape.mono_faithful_iff (hf : AtanShape f) :
    AtanMono f ∧ AtanFaithful f ↔ ∃ A : ArctanMag, A.mag = magOf f := by
  rw [hf.mono_iff, hf.faithful_iff]
  constructor
  · rintro ⟨hmono, hfaithful⟩
    exact ⟨⟨magOf f, hmono, hfaithful⟩, rfl⟩
  · rintro ⟨A, hA⟩
    exact hA ▸ ⟨A.mono, A.faithful⟩

end Shape

/-! ### A function made from magnitudes -/

theorem atanOf_nan (g : Nat → Nat) {a : Word} (h : isNaN a = true) : atanOf g a = nangen .atan a 0 := if_pos h

/-- The magnitudes `atanOf` gives an argument that is no NaN. -/
def atanMag (g : Nat → Nat) (m : Nat) : Nat := if m = 0 then 0 else if m = infMag then 0x3FC90FDB else g m

theorem atanMag_zero (g : Nat → Nat) : atanMag g 0 = 0 := if_pos rfl

theorem atanMag_infMag (g : Nat → Nat) : atanMag g infMag = 0x3FC90FDB := by
  rw [atanMag, if_neg (by decide), if_pos rfl]

theorem atanOf_eq_fpack (g : Nat → Nat) {a : Word} (ha : isNaN a = false) :
    atanOf g a = fpack (fsign a) (atanMag g (fmag a)) := by
  obtain ⟨h, _⟩ | ⟨hz, h⟩ | ⟨hi, h⟩ | ⟨h0, h1, h⟩ := atanOf_cases g a
  · rw [ha] at h
    cases h
  · have hm := (isZero_iff a).mp hz
    rw [h, hm, atanMag_zero, ← hm, fpack_eta]
  · rw [h, (isInf_iff a).mp hi, atanMag_infMag]
  · rw [h, atanMag, if_neg h0.ne', if_neg h1.ne]

/-- Bounded magnitudes give a function of the arctangent's shape. -/
theorem atanOf_shape {g : Nat → Nat} (hg : ∀ m, m < infMag → g m ≤ 0x3FC90FDB) : AtanShape (atanOf g) := by
  have hle {a : Word} (ha : isNaN a = false) : atanMag g (fmag a) ≤ 0x3FC90FDB := by
    have := isNaN_false_iff.mp ha
    unfold atanMag
    split_ifs
    · exact Nat.zero_le _
    · exact le_rfl
    · exact hg _ (by omega)
  have hlt {a : Word} (ha : isNaN a = false) : atanMag g (fmag a) < 2 ^ 31 := lt_of_le_of_lt (hle ha) (by decide)
  have hfmag {a : Word} (ha : isNaN a = false) : fmag (atanOf g a) = atanMag g (fmag a) := by
    rw [atanOf_eq_fpack g ha, fmag_fpack _ (hlt ha)]
  have hfsign {a : Word} (ha : isNaN a = false) : fsign (atanOf g a) = fsign a := by
    rw [atanOf_eq_fpack g ha, fsign_fpack _ (hlt ha)]
  have hzero {a : Word} (ha : isZero a = true) : atanOf g a = fpack (fsign a) 0 := by
    rw [atanOf_eq_fpack g (isFinite_classes (isFinite_of_isZero ha)).1, (isZero_iff a).mp ha, atanMag_zero]
  have hinf {a : Word} (ha : isInf a = true) : atanOf g a = fpack (fsign a) 0x3FC90FDB := by
    rw [atanOf_eq_fpack g (isInf_classes ha).1, (isInf_iff a).mp ha, atanMag_infMag]
  exact {
    atan_nan := fun a ha => atanOf_nan g ha ▸ isQuietNaN_nangen _ _ _
    atan_zero := ⟨(hzero (by decide)).trans (by decide), (hzero (by decide)).trans (by decide)⟩
    atan_odd := fun a ha => by
      have ha' : isNaN (fneg a) = false := by rw [isNaN_fneg, ha]
      refine word_ext ?_ ?_
      · rw [fsign_fneg, hfsign ha', hfsign ha, fsign_fneg]
      · rw [fmag_fneg, hfmag ha', hfmag ha, fmag_fneg]
    atan_inf := ⟨(hinf (by decide)).trans (by decide), (hinf (by decide)).trans (by decide)⟩
    atan_bound := fun a ha => by
      rw [isFinite_iff, funits_eq, funits_eq, hfmag ha]
      exact ⟨lt_of_le_of_lt (hle ha) (by decide), magUnits_le_iff.mpr (hle ha)⟩
    atan_sign := fun a ha => hfsign ha }

/-- A function of the shape is `atanOf` of its magnitudes, but for its NaNs. -/
theorem AtanShape.atanOf_magOf {f : Word → Word} (hf : AtanShape f) {a : Word} (ha : isNaN a = false) :
    atanOf (magOf f) a = f a := by
  rw [atanOf_eq_fpack _ ha, hf.eq_fpack ha, atanMag]
  split_ifs with h0 hi
  · rw [h0, hf.magOf_zero]
  · rw [hi, hf.magOf_infMag]
  · rfl

/-! ### The model's arctangent -/

/-- No admissible magnitude is above `f32(π/2)`, for the arctangent is below it. -/
theorem ArctanMag.mag_le (A : ArctanMag) {m : Nat} (hm : m < infMag) : A.mag m ≤ 0x3FC90FDB := by
  by_contra h
  have hlt := (A.faithful m 0x3FC90FDB hm (by decide)).2 (Nat.not_le.mp h)
  exact absurd hlt (not_lt.mpr (arctanReal_lt_halfPi _).le)

theorem ArctanMag.mag_zero (A : ArctanMag) : A.mag 0 = 0 := by
  by_contra h
  have hlt := (A.faithful 0 0 (by decide) (by decide)).2 (Nat.pos_of_ne_zero h)
  simp at hlt

theorem ArctanMag.shape (A : ArctanMag) : AtanShape (atanOf A.mag) := atanOf_shape fun _ => A.mag_le

theorem ArctanMag.magOf_atanOf (A : ArctanMag) {m : Nat} (hm : m < infMag) : magOf (atanOf A.mag) m = A.mag m := by
  have hlt := lt_two_pow_of_le_infMag hm.le
  have hA : A.mag m < 2 ^ 31 := lt_of_le_of_lt (A.mag_le hm) (by decide)
  rw [magOf, atanOf_eq_fpack _ (isNaN_fpack false hm.le), fmag_fpack _ hlt, atanMag, if_neg hm.ne]
  split_ifs with h0
  · rw [fmag_fpack _ (by decide), h0, A.mag_zero]
  · rw [fmag_fpack _ hA]

theorem ArctanMag.mono_atanOf (A : ArctanMag) : AtanMono (atanOf A.mag) :=
  A.shape.mono_iff.mpr fun m n hmn hn => by
    rw [A.magOf_atanOf hn, A.magOf_atanOf (by omega)]
    exact A.mono m n hmn hn

theorem ArctanMag.faithful_atanOf (A : ArctanMag) : AtanFaithful (atanOf A.mag) :=
  A.shape.faithful_iff.mpr fun m q hm hq => by
    rw [FaithfulAt, A.magOf_atanOf hm]
    exact A.faithful m q hm hq

/-- The model's `ATAN32` has all the named properties. -/
theorem atan32_admissible : AtanShape atan32 ∧ AtanMono atan32 ∧ AtanFaithful atan32 :=
  ⟨ArctanMag.shape _, ArctanMag.mono_atanOf _, ArctanMag.faithful_atanOf _⟩

/-- Settles O45: `magOf` gives the magnitudes of an admissible function. -/
theorem modelArctangentHasItsShape : Obligations.ModelArctangentHasItsShape :=
  ⟨atan32_admissible, fun f hf => ⟨magOf f, fun _ => hf.atanOf_magOf, hf.mono_faithful_iff⟩⟩

/-- Settles O46: the model's own arctangent is one. -/
theorem admissibleArctangentExists : Obligations.AdmissibleArctangentExists := ⟨atan32, atan32_admissible⟩

end Sys2Proof.Machine

/-! ## The installer commands (spec/41_install.md R161 to R165)

What a completed command leaves is `State.Completes`, and its frame is `State.Completes.frame`; what is said here is
that a command that meets its checks does complete, and what the registers then read. -/

namespace Sys2Proof.Machine

/-- A command that has passed its checks completes: with `exec_next_cases`, `State.Completes` is what `exec` does. -/
theorem exec_of_completes {s t : State} {i : Instr} (h : s.Completes i t) : exec i s = .next t := by
  cases h with
  | nop | rsta | clre | ldd => rfl
  | prep lo hi => simp [exec, execPrep, blockSizeOk, lo, hi]
  | rsts h => simp [exec, execRsts, h]
  | ldg v h => simp [exec, execLdg, h]
  | ldc k h => simp [exec, execLdc, h]
  | byp v h => simp [exec, execByp, h]
  | wrs c v h => simp [exec, execWrs, inBuffer, h]
  | rds c h => simp [exec, execRds, inBuffer, h]
  | proc c h => simp [exec, execProc, countOk, h]
  | rdr h => simp [exec, execRdr, h]
  | rdp h => simp [exec, execRdp, h]

/-! ### The stage tables of R161, R163 and R164 -/

theorem gainOperand?_of_mem {n : Nat} {g : GainStage} (h : (n, g) ∈ [(1, .input), (7, .vol), (9, .out)]) :
    gainOperand? n = some g :=
  have rows : ∀ p ∈ [(1, GainStage.input), (7, .vol), (9, .out)], gainOperand? p.1 = some p.2 := by decide
  rows _ h

theorem filtOperand?_of_mem {n : Nat} {f : FiltStage} (h : (n, f) ∈ [(2, .hp1), (4, .hp2), (5, .shelf), (6, .tone)]) :
    filtOperand? n = some f :=
  have rows : ∀ p ∈ [(2, FiltStage.hp1), (4, .hp2), (5, .shelf), (6, .tone)], filtOperand? p.1 = some p.2 := by decide
  rows _ h

theorem stageOf?_of_mem {n : Nat} {st : Stage}
    (h : (n, st) ∈ [(1, .gain .input), (2, .filt .hp1), (3, .shaper), (4, .filt .hp2), (5, .filt .shelf),
      (6, .filt .tone), (7, .gain .vol), (8, .cab), (9, .gain .out)]) : stageOf? n = some st :=
  have rows : ∀ p ∈ [(1, Stage.gain .input), (2, .filt .hp1), (3, .shaper), (4, .filt .hp2), (5, .filt .shelf),
      (6, .filt .tone), (7, .gain .vol), (8, .cab), (9, .gain .out)], stageOf? p.1 = some p.2 := by decide
  rows _ h

/-! ### What an installed register reads, in either channel (R165, spec/10_state.md R24) -/

section Reads
variable (s : State) (c : Chan)

@[simp] theorem State.gainOf_installGain_same (g : GainStage) (v : Word) : (s.installGain g v).gainOf c g = v := by
  simp [State.gainOf]

theorem State.gainOf_installGain_other {g g' : GainStage} (v : Word) (h : g' ≠ g) :
    (s.installGain g v).gainOf c g' = s.gainOf c g' := by
  simp [State.gainOf, PerGain.get_set_other _ v h]

@[simp] theorem State.coefOf_installCoeffs_same (f : FiltStage) (k : Coeffs) :
    (s.installCoeffs f k).coefOf c f = k := by
  simp [State.coefOf]

theorem State.coefOf_installCoeffs_other {f f' : FiltStage} (k : Coeffs) (h : f' ≠ f) :
    (s.installCoeffs f k).coefOf c f' = s.coefOf c f' := by
  simp [State.coefOf, PerFilt.get_set_other _ k h]

@[simp] theorem State.bypOf_installBypass_same (st : Stage) (v : Bool) : (s.installBypass st v).bypOf c st = v := by
  simp [State.bypOf]

theorem State.bypOf_installBypass_other {st st' : Stage} (v : Bool) (h : st' ≠ st) :
    (s.installBypass st v).bypOf c st' = s.bypOf c st' := by
  simp [State.bypOf, PerStage.get_set_other _ v h]

end Reads

/-! ### The commands -/

/-- Settles O23: stages 1, 7 and 9 pass the operand check, and what then completes is `State.installGain`. -/
theorem ldgInstallsTheGain : Obligations.LdgInstallsTheGain := by
  intro s n g v hmem
  have hdone : s.Completes (.ldg n v) (s.installGain g v) := .ldg v (gainOperand?_of_mem hmem)
  exact ⟨_, exec_of_completes hdone, fun c => s.gainOf_installGain_same c g v,
    fun c _ hne => s.gainOf_installGain_other c v hne, hdone.frame⟩

/-- Settles O24: stage 3 is the one that `LDD` completes for. -/
theorem lddInstallsTheDrive : Obligations.LddInstallsTheDrive := fun _ d => exec_of_completes (.ldd d)

/-- Settles O25: stages 2, 4, 5 and 6 pass the operand check, and what then completes is `State.installCoeffs`. -/
theorem ldcInstallsTheTuple : Obligations.LdcInstallsTheTuple := by
  intro s n f k hmem
  have hdone : s.Completes (.ldc n k) (s.installCoeffs f k) := .ldc k (filtOperand?_of_mem hmem)
  exact ⟨_, exec_of_completes hdone, fun c => s.coefOf_installCoeffs_same c f k,
    fun c _ hne => s.coefOf_installCoeffs_other c k hne, hdone.frame⟩

/-- Settles O26: the nine numbers name the nine stages, and what then completes is `State.installBypass`. -/
theorem bypSetsTheFlag : Obligations.BypSetsTheFlag := by
  intro s n st v hmem
  have hdone : s.Completes (.byp n v) (s.installBypass st v) := .byp v (stageOf?_of_mem hmem)
  exact ⟨_, exec_of_completes hdone, fun c => s.bypOf_installBypass_same c st v,
    fun c _ hne => s.bypOf_installBypass_other c v hne, hdone.frame⟩

end Sys2Proof.Machine

/-! ## The stages over a block (spec/42_stages.md R182, R183, R188, R190) -/

namespace Sys2Proof.Machine

/-- Settles O32: `runStage` skips a bypassed stage, and a bypassed cabinet step only samples `CABRDY`. -/
theorem bypassedStageIsIdentity : Obligations.BypassedStageIsIdentity := by
  refine fun s c n => ⟨fun st hst hbyp => ?_, fun hoff => ?_⟩
  · rw [s.runStage_of_ne_cab c n hst, if_pos hbyp]
  · exact State.cabStep_bypassed n (by simpa [State.cabBypassed] using hoff)

/-! ### Stages without a history -/

/-- The block, the other bytes and the rest of the state after a stage that maps the first `k` of `n` samples by `f`. -/
structure State.MapsBlock (s : State) (c : Chan) (n k : Nat) (f : Word → Word) (xs : Nat → Word) (t : State) :
    Prop where
  block : t.Block c n fun i => if i < k then f (xs i) else xs i
  bytes : ∀ a, a < wordAddr c 0 ∨ wordAddr c n ≤ a → t.mem.byte a = s.mem.byte a
  frame : t = { s with mem := t.mem }

/-- One sample of a stage that has no effect but its output, `f` of the sample, extends the mapped part by one. -/
theorem State.MapsBlock.sampleStep {s t : State} {c : Chan} {n k : Nat} {st : Stage} {f : Word → Word}
    {xs : Nat → Word} (hst : ∀ m x, State.stageSample { s with mem := m } c st x = (f x, { s with mem := m }))
    (h : s.MapsBlock c n k f xs t) (hk : k < n) : s.MapsBlock c n (k + 1) f xs (t.sampleStep c st k) := by
  have hread : t.mem.word c k = some (xs k) := by simpa using h.block k hk
  have hstep : t.sampleStep c st k = t.memWrite c k (f (xs k)) := by
    rw [State.sampleStep_written st hread, h.frame, hst]
  rw [hstep]
  refine ⟨fun i hi => ?_, fun a ha => ?_, ?_⟩
  · rw [h.block.memWrite k _ i hi]
    by_cases hik : i = k
    · simp [hik]
    · rw [Function.update_of_ne hik]
      simp only [show i < k + 1 ↔ i < k by omega]
  · rw [State.memWrite_mem, Memory.byte_setWord_other _ _ _ _ (by simp only [wordAddr] at *; omega), h.bytes a ha]
  · rw [State.memWrite_frame, h.frame]

/-- A stage that has no effect but its output maps the block by its sample function. -/
theorem State.sampleLoop_mapsBlock {s : State} {c : Chan} {n : Nat} {st : Stage} {f : Word → Word} {xs : Nat → Word}
    (hst : ∀ m x, State.stageSample { s with mem := m } c st x = (f x, { s with mem := m })) (hb : s.Block c n xs)
    {k : Nat} (hk : k ≤ n) : s.MapsBlock c n k f xs (s.sampleLoop c st k) := by
  induction k with
  | zero => exact ⟨by simpa [State.sampleLoop] using hb, fun _ _ => rfl, rfl⟩
  | succ k ih => exact (ih (by omega)).sampleStep hst hk

/-- A running stage other than the cabinet that has no effect but its output maps the block by its sample function. -/
theorem State.runStage_maps {s : State} {c : Chan} {n : Nat} {st : Stage} {f : Word → Word} {xs : Nat → Word}
    (hcab : st ≠ .cab) (hon : s.bypOf c st = false)
    (hst : ∀ m x, State.stageSample { s with mem := m } c st x = (f x, { s with mem := m })) (hb : s.Block c n xs) :
    ∃ t, s.runStage c n st = t ∧ t.Block c n (fun i => f (xs i)) ∧
      (∀ a, (a < wordAddr c 0 ∨ wordAddr c n ≤ a) → t.mem.byte a = s.mem.byte a) ∧ t = { s with mem := t.mem } := by
  have hmaps := State.sampleLoop_mapsBlock hst hb (Nat.le_refl n)
  refine ⟨_, ?_, fun i hi => ?_, hmaps.bytes, hmaps.frame⟩
  · rw [s.runStage_of_ne_cab c n hcab, hon]
    rfl
  · exact (hmaps.block i hi).trans (congrArg some (if_pos hi))

/-- Settles O33: the gain stages and the waveshaper have no history. -/
theorem statelessStagesMapTheBlock : Obligations.StatelessStagesMapTheBlock := fun _ _ _ _ hb =>
  ⟨fun _ hon => State.runStage_maps Stage.noConfusion hon (fun _ _ => rfl) hb,
    fun hon => State.runStage_maps (by decide) hon (fun _ _ => rfl) hb⟩

/-! ### A filter cell whose A0 is a zero -/

/-- A quotient by a zero is an infinity or a NaN. -/
theorem fdiv_zero_not_finite {a z : Word} (hz : isZero z = true) : isFinite (fdiv a z) = false := by
  have hnan {w : Word} (h : isNaN w = true) : isFinite w = false := by
    rw [Bool.eq_false_iff]
    intro hf
    rw [(isFinite_classes hf).1] at h
    cases h
  have hinf (s : Bool) : isFinite (fpack s infMag) = false := by cases s <;> decide
  cases hna : isNaN a
  · obtain hf | hi := isFinite_or_isInf hna
    · cases hza : isZero a
      · rw [fdiv_by_zero hf hza hz]
        exact hinf _
      · exact hnan (isNaN_of_isQuietNaN (isQuietNaN_fdiv (.inr (.inr (.inl ⟨hza, hz⟩)))))
    · rw [fdiv_inf_left hi (isFinite_of_isZero hz)]
      exact hinf _
  · exact hnan (isNaN_of_isQuietNaN (isQuietNaN_fdiv (.inl hna)))

/-- Settles O41: every output is a quotient by A0. -/
theorem zeroA0GivesNoFiniteOutput : Obligations.ZeroA0GivesNoFiniteOutput := by
  intro k h xs hz
  induction xs generalizing h with
  | nil => exact fun w hw => absurd hw List.not_mem_nil
  | cons x xs ih =>
    intro w hw
    obtain rfl | hw := List.mem_cons.mp hw
    · exact fdiv_zero_not_finite hz
    · exact ih _ w hw

end Sys2Proof.Machine

/-! ## Stage-major and sample-major order (spec/42_stages.md R201)

A step of the chain is one sample through one stage. Two steps at different stages and different samples commute, for
they touch different histories and different words; so the steps may be taken in either nesting. -/

namespace Sys2Proof.Machine

/-! ### Writes of different words commute -/

/-- Inside the written word nothing of the old memory is seen. -/
theorem Memory.byte_setWord_within (m m' : Memory) (c : Chan) (i : Nat) (v : Word) {a : Nat}
    (h : wordAddr c i ≤ a ∧ a < wordAddr c i + 4) : (m.setWord c i v).byte a = (m'.setWord c i v).byte a := by
  rw [Memory.byte_setWord, Memory.byte_setWord]
  split_ifs
  · rfl
  · rfl
  · rfl
  · rfl
  · omega

theorem Memory.setWord_comm {m : Memory} (h : m.wf) (c : Chan) {i j : Nat} (hij : i ≠ j) (v w : Word) :
    Memory.setWord (m.setWord c i v) c j w = Memory.setWord (m.setWord c j w) c i v := by
  refine Memory.ext_byte (Memory.wf_setWord (Memory.wf_setWord h c i v) c j w)
    (Memory.wf_setWord (Memory.wf_setWord h c j w) c i v) fun a => ?_
  have hapart := wordAddr_apart_same c hij
  by_cases hi : wordAddr c i ≤ a ∧ a < wordAddr c i + 4
  · rw [Memory.byte_setWord_other _ c j w (by omega), Memory.byte_setWord_within m _ c i v hi]
  · rw [Memory.byte_setWord_other _ c i v (a := a) (by omega)]
    by_cases hj : wordAddr c j ≤ a ∧ a < wordAddr c j + 4
    · exact Memory.byte_setWord_within _ m c j w hj
    · rw [Memory.byte_setWord_other _ c j w (by omega), Memory.byte_setWord_other _ c j w (by omega),
        Memory.byte_setWord_other _ c i v (by omega)]

theorem State.memWrite_comm {s : State} (h : s.mem.wf) (c : Chan) {i j : Nat} (hij : i ≠ j) (v w : Word) :
    (s.memWrite c i v).memWrite c j w = (s.memWrite c j w).memWrite c i v :=
  congrArg (fun m => { s with mem := m }) (Memory.setWord_comm h c hij v w)

/-! ### Steps at different stages and samples commute -/

/-- A stage function sees no buffer. -/
theorem State.stageSample_memWrite (s : State) (c : Chan) (st : Stage) (x : Word) (i : Nat) (v : Word) :
    (s.memWrite c i v).stageSample c st x =
      ((s.stageSample c st x).1, (s.stageSample c st x).2.memWrite c i v) := by
  cases st <;> rfl

theorem State.histOf_setHist_other (s : State) (c : Chan) {f g : FiltStage} (hfg : g ≠ f) (h : Hist) :
    (s.setHist c f h).histOf c g = s.histOf c g := by
  rw [State.histOf, State.setHist_hist, PerChan.get_set_same, PerFilt.get_set_other _ h hfg]
  rfl

theorem PerFilt.set_comm {α : Type} (p : PerFilt α) {f g : FiltStage} (hfg : g ≠ f) (v w : α) :
    (p.set f v).set g w = (p.set g w).set f v := by
  refine PerFilt.ext_get fun e => ?_
  by_cases hf : e = f
  · rw [hf, PerFilt.get_set_other _ w hfg.symm, PerFilt.get_set_same, PerFilt.get_set_same]
  · rw [PerFilt.get_set_other (p.set g w) v hf]
    by_cases hg : e = g
    · rw [hg, PerFilt.get_set_same, PerFilt.get_set_same]
    · rw [PerFilt.get_set_other _ w hg, PerFilt.get_set_other _ v hf, PerFilt.get_set_other _ w hg]

theorem State.setHist_comm (s : State) (c : Chan) {f g : FiltStage} (hfg : g ≠ f) (h k : Hist) :
    (s.setHist c f h).setHist c g k = (s.setHist c g k).setHist c f h := by
  unfold State.setHist
  cases c <;> simp only [PerChan.get, PerChan.set, PerFilt.set_comm _ hfg]

/-- A stage touches no other stage's history (spec/42_stages.md R180). -/
theorem State.stageSample_other (s : State) (c : Chan) {st st' : Stage} (hst : st' ≠ st) (x x' : Word) :
    ((s.stageSample c st x).2.stageSample c st' x').1 = (s.stageSample c st' x').1 ∧
      ((s.stageSample c st x).2.stageSample c st' x').2 = ((s.stageSample c st' x').2.stageSample c st x).2 := by
  cases st with
  | gain | shaper | cab => exact ⟨rfl, rfl⟩
  | filt f =>
    cases st' with
    | gain | shaper | cab => exact ⟨rfl, rfl⟩
    | filt g =>
      have hfg : g ≠ f := fun h => hst (congrArg Stage.filt h)
      have hcoef (k : Hist) (f' g' : FiltStage) : (s.setHist c f' k).coefOf c g' = s.coefOf c g' := rfl
      simp only [State.stageSample, hcoef, State.histOf_setHist_other _ c hfg, State.histOf_setHist_other _ c hfg.symm,
        true_and]
      exact s.setHist_comm c hfg _ _

theorem State.sampleStep_comm {s : State} {c : Chan} {st st' : Stage} {i j : Nat} {x y : Word} (hwf : s.mem.wf)
    (hi : s.mem.word c i = some x) (hj : s.mem.word c j = some y) (hst : st' ≠ st) (hij : i ≠ j) :
    (s.sampleStep c st i).sampleStep c st' j = (s.sampleStep c st' j).sampleStep c st i := by
  have unread {st : Stage} {i j : Nat} {x y : Word} (hj : s.mem.word c j = some y) (hij : i ≠ j) :
      ((s.stageSample c st x).2.memWrite c i (s.stageSample c st x).1).mem.word c j = some y := by
    rw [State.memWrite_mem, State.stageSample_mem, Memory.word_setWord_other_index _ _ _ hij.symm, hj]
  obtain ⟨hout, hstate⟩ := s.stageSample_other c hst x y
  have hout' := (s.stageSample_other c hst.symm y x).1
  rw [State.sampleStep_written st hi, State.sampleStep_written st' (unread hj hij), State.sampleStep_written st' hj,
    State.sampleStep_written st (unread hi hij.symm)]
  simp only [State.stageSample_memWrite, hout, hout', hstate]
  exact State.memWrite_comm (by rw [State.stageSample_mem, State.stageSample_mem]; exact hwf) c hij _ _

/-! ### Steps in any order keep the block written -/

/-- Canonical memory with words 0 to `n` - 1 of the channel written. -/
def State.Ready (s : State) (c : Chan) (n : Nat) : Prop := s.mem.wf ∧ ∃ xs, s.Block c n xs

theorem State.Ready.sampleStep {s : State} {c : Chan} {n : Nat} (h : s.Ready c n) (st : Stage) (i : Nat) :
    (s.sampleStep c st i).Ready c n := by
  obtain ⟨hwf, xs, hb⟩ := h
  obtain ⟨v, hv⟩ := s.sampleStep_mem c st i
  refine ⟨hv ▸ Memory.wf_setWord hwf c i v, Function.update xs i v, fun k hk => ?_⟩
  rw [hv]
  exact hb.memWrite i v k hk

theorem State.Ready.sampleLoop {s : State} {c : Chan} {n : Nat} (h : s.Ready c n) (st : Stage) (k : Nat) :
    (s.sampleLoop c st k).Ready c n := by
  induction k with
  | zero => exact h
  | succ k ih => exact ih.sampleStep st k

theorem State.Ready.sampleStep_comm {s : State} {c : Chan} {n : Nat} (h : s.Ready c n) {st st' : Stage} {i j : Nat}
    (hi : i < n) (hj : j < n) (hst : st' ≠ st) (hij : i ≠ j) :
    (s.sampleStep c st i).sampleStep c st' j = (s.sampleStep c st' j).sampleStep c st i := by
  obtain ⟨hwf, xs, hb⟩ := h
  exact State.sampleStep_comm hwf (hb i hi) (hb j hj) hst hij

/-- A step commutes with another stage's loop over earlier samples. -/
theorem State.Ready.sampleLoop_comm {s : State} {c : Chan} {n : Nat} (h : s.Ready c n) {st st' : Stage} {j k : Nat}
    (hj : j < n) (hk : k ≤ j) (hst : st' ≠ st) :
    (s.sampleStep c st j).sampleLoop c st' k = (s.sampleLoop c st' k).sampleStep c st j := by
  induction k with
  | zero => rfl
  | succ k ih =>
    rw [State.sampleLoop, ih (by omega), State.sampleLoop]
    exact (h.sampleLoop st' k).sampleStep_comm hj (by omega) hst (by omega)

/-! ### The two nestings over a list of stages -/

/-- Sample `i` through every stage of the list. -/
def State.sampleEach (s : State) (c : Chan) (i : Nat) (sts : List Stage) : State :=
  sts.foldl (fun t st => t.sampleStep c st i) s

/-- Every stage of the list over samples 0 to `n` - 1. -/
def State.loopEach (s : State) (c : Chan) (n : Nat) (sts : List Stage) : State :=
  sts.foldl (fun t st => t.sampleLoop c st n) s

theorem State.sampleEach_nil (s : State) (c : Chan) (i : Nat) : s.sampleEach c i [] = s := List.foldl_nil ..

theorem State.loopEach_nil (s : State) (c : Chan) (n : Nat) : s.loopEach c n [] = s := List.foldl_nil ..

theorem State.sampleEach_cons (s : State) (c : Chan) (i : Nat) (st : Stage) (sts : List Stage) :
    s.sampleEach c i (st :: sts) = (s.sampleStep c st i).sampleEach c i sts := List.foldl_cons ..

theorem State.loopEach_cons (s : State) (c : Chan) (n : Nat) (st : Stage) (sts : List Stage) :
    s.loopEach c n (st :: sts) = (s.sampleLoop c st n).loopEach c n sts := List.foldl_cons ..

/-- A step commutes with other stages' loops over earlier samples. -/
theorem State.Ready.loopEach_comm {s : State} {c : Chan} {n : Nat} (h : s.Ready c n) {st : Stage} {sts : List Stage}
    {j k : Nat} (hj : j < n) (hk : k ≤ j) (hst : st ∉ sts) :
    (s.sampleStep c st j).loopEach c k sts = (s.loopEach c k sts).sampleStep c st j := by
  induction sts generalizing s with
  | nil => rw [State.loopEach_nil, State.loopEach_nil]
  | cons st' sts ih =>
    obtain ⟨hne, hrest⟩ := List.ne_and_not_mem_of_not_mem_cons hst
    rw [State.loopEach_cons, State.loopEach_cons, h.sampleLoop_comm hj hk hne.symm]
    exact ih (h.sampleLoop st' k) hrest

/-- One sample more through every stage's loop may as well come after all the loops. -/
theorem State.Ready.loopEach_succ {s : State} {c : Chan} {n k : Nat} (h : s.Ready c n) {sts : List Stage} (hk : k < n)
    (hnd : sts.Nodup) : s.loopEach c (k + 1) sts = (s.loopEach c k sts).sampleEach c k sts := by
  induction sts generalizing s with
  | nil => rw [State.loopEach_nil, State.loopEach_nil, State.sampleEach_nil]
  | cons st sts ih =>
    obtain ⟨hst, hrest⟩ := List.nodup_cons.mp hnd
    have hready := h.sampleLoop st k
    rw [State.loopEach_cons, State.loopEach_cons, State.sampleEach_cons, State.sampleLoop]
    rw [ih (hready.sampleStep st k) hrest, hready.loopEach_comm hk (Nat.le_refl k) hst]

/-! ### The chain's two nestings are these, over the stages that run -/

/-- The stages that take samples one by one: not the cabinet, and not bypassed. -/
def State.live (s : State) (c : Chan) (st : Stage) : Bool := !(decide (st = .cab) || s.bypOf c st)

theorem State.AudioFrame.live_eq {s t : State} (h : s.AudioFrame t) (c : Chan) : t.live c = s.live c := by
  funext st
  have hbyp : t.bypOf c st = s.bypOf c st := by
    rw [h]
    rfl
  rw [State.live, State.live, hbyp]

theorem State.sampleThrough_eq (s : State) (c : Chan) (i : Nat) (sts : List Stage) :
    s.sampleThrough c i sts = s.sampleEach c i (sts.filter (s.live c)) := by
  induction sts generalizing s with
  | nil => rw [State.sampleThrough, List.filter_nil, State.sampleEach_nil]
  | cons st sts ih =>
    rw [State.sampleThrough, List.filter_cons]
    by_cases hoff : st = .cab ∨ s.bypOf c st = true
    · rw [if_pos hoff, if_neg (by simpa [State.live, or_iff_not_imp_left] using hoff), ih]
    · rw [if_neg hoff, if_pos (by simpa [State.live] using hoff), ih, (s.sampleStep_audioFrame c st i).live_eq c,
        State.sampleEach_cons]

theorem State.runStages_eq_loopEach (s : State) (c : Chan) (n : Nat) (sts : List Stage) (h : ∀ st ∈ sts, st ≠ .cab) :
    s.runStages c n sts = s.loopEach c n (sts.filter (s.live c)) := by
  induction sts generalizing s with
  | nil => rw [State.runStages, List.filter_nil, State.loopEach_nil]
  | cons st sts ih =>
    obtain ⟨hst, hrest⟩ := List.forall_mem_cons.mp h
    rw [State.runStages, List.filter_cons, ih _ hrest, (s.runStage_audioFrame c n st).live_eq c,
      s.runStage_of_ne_cab c n hst]
    cases hbyp : s.bypOf c st <;> simp [State.live, hst, hbyp, State.loopEach_cons]

theorem State.sampleMajor_audioFrame (s : State) (c : Chan) (n : Nat) : s.AudioFrame (s.sampleMajor c n) := by
  have each (t : State) (i : Nat) (sts : List Stage) : t.AudioFrame (t.sampleEach c i sts) := by
    induction sts generalizing t with
    | nil => exact .refl t
    | cons st sts ih => exact (t.sampleStep_audioFrame c st i).trans (ih _)
  induction n with
  | zero => exact .refl s
  | succ n ih =>
    rw [State.sampleMajor, State.sampleThrough_eq]
    exact ih.trans (each _ _ _)

/-- Sample by sample through the chain is stage by stage over the stages that run. -/
theorem State.Ready.sampleMajor_eq {s : State} {c : Chan} {n k : Nat} (h : s.Ready c n) (hk : k ≤ n) :
    s.sampleMajor c k = s.loopEach c k (chain.filter (s.live c)) := by
  have hnd : (chain.filter (s.live c)).Nodup := List.Nodup.filter _ (by decide)
  induction k with
  | zero =>
    rw [State.sampleMajor, State.loopEach]
    exact (List.foldl_fixed _).symm
  | succ k ih =>
    rw [State.sampleMajor, State.sampleThrough_eq, (s.sampleMajor_audioFrame c k).live_eq c, ih (by omega),
      h.loopEach_succ hk hnd]

/-! ### The cabinet in between -/

theorem State.sampleLoop_withRdySamples (s : State) (c : Chan) (st : Stage) (n k : Nat) :
    State.sampleLoop { s with rdySamples := k } c st n = { s.sampleLoop c st n with rdySamples := k } := by
  have step (t : State) (i : Nat) :
      State.sampleStep { t with rdySamples := k } c st i = { t.sampleStep c st i with rdySamples := k } := by
    unfold State.sampleStep State.memRead
    dsimp only
    cases t.mem.word c i <;> cases st <;> rfl
  induction n with
  | zero => rfl
  | succ n ih => rw [State.sampleLoop, ih, step, State.sampleLoop]

theorem State.runStage_withRdySamples (s : State) (c : Chan) (n k : Nat) (g : GainStage) :
    State.runStage { s with rdySamples := k } c n (.gain g) = { s.runStage c n (.gain g) with rdySamples := k } := by
  rw [State.runStage_of_ne_cab _ c n Stage.noConfusion, State.runStage_of_ne_cab _ c n Stage.noConfusion,
    State.sampleLoop_withRdySamples]
  cases hbyp : s.bypOf c (.gain g)
  · rw [if_neg Bool.false_ne_true, if_neg]
    exact ne_true_of_eq_false hbyp
  · rw [if_pos rfl, if_pos]
    exact hbyp

/-- With the cabinet bypassed the chain is its other stages, and one sampling of `CABRDY`. -/
theorem State.runStages_chain_bypassed {s : State} {c : Chan} (n : Nat)
    (h : s.cabBypassed c (Config.cabrdy s.rdySamples) = true) :
    s.runStages c n chain =
      { s.runStages c n (stagesBeforeCab ++ [.gain .out]) with rdySamples := s.rdySamples + 1 } := by
  have hrdy := (s.runStages_port c n stagesBeforeCab stagesBeforeCab_ne_cab).2
  have hcab : (s.runStages c n stagesBeforeCab).cabBypassed c
      (Config.cabrdy (s.runStages c n stagesBeforeCab).rdySamples) = true := by
    rw [hrdy, s.runStages_audioFrame c n stagesBeforeCab]
    exact h
  rw [State.runStages_chain, State.cabStep_bypassed n hcab, State.runStage_withRdySamples, hrdy,
    State.runStages_append]
  rfl

/-- Settles O36: around the bypassed cabinet, the chain is the loops of the stages that run, and these may be taken
sample by sample (`State.Ready.loopEach_succ`). -/
theorem nestingIsUnobservable : Obligations.NestingIsUnobservable := by
  intro s c n xs hwf hpos hn hb hoff
  have hready : s.Ready c n := ⟨hwf, xs, hb⟩
  have hlive : (stagesBeforeCab ++ [Stage.gain .out]).filter (s.live c) = chain.filter (s.live c) := by
    rw [chain_eq_cab_between]
    simp [State.live]
  rw [exec_proc_of_le hn, State.runChain, if_neg hpos.ne', State.runStages_chain_bypassed n hoff,
    s.runStages_eq_loopEach c n _ (by decide), hlive, hready.sampleMajor_eq (Nat.le_refl n)]

end Sys2Proof.Machine

/-! ## Rounding: order and error (spec/40_numerics.md R132) -/

namespace Sys2Proof.Machine

/-! ### Order -/

/-- A greater value rounds to no smaller a magnitude: two magnitudes the wrong way round would be half way for both
values, hence both even and neighbours. -/
theorem roundMag_mono {n d n' d' : Nat} (hd : 0 < d) (hd' : 0 < d') (h : n * d' ≤ n' * d) :
    roundMag n d ≤ roundMag n' d' := by
  rw [roundMag_eq, roundMag_eq]
  refine min_le_min_right infMag ?_
  have hm := roundOpen_roundsTo n hd
  have hm' := roundOpen_roundsTo n' hd'
  generalize roundOpen n d = m at *
  generalize roundOpen n' d' = m' at *
  by_contra hlt
  have hlt : m' < m := Nat.not_le.mp hlt
  have hbelow : (magUnits m' + magUnits m) * d ≤ 2 * n := by
    obtain hb | ⟨hb, _⟩ := hm.below m' hlt <;> omega
  have habove : 2 * n' ≤ (magUnits m' + magUnits m) * d' := by
    obtain hb | ⟨hb, _⟩ := hm'.above m hlt <;> omega
  have htie : 2 * n ≤ (magUnits m' + magUnits m) * d := Nat.le_of_mul_le_mul_right (by
    have := Nat.mul_le_mul_right d habove
    linarith) hd'
  have htie' : (magUnits m' + magUnits m) * d' ≤ 2 * n' := Nat.le_of_mul_le_mul_right (by
    have := Nat.mul_le_mul_right d' hbelow
    linarith) hd
  have heven : m % 2 = 0 := by
    obtain hb | ⟨_, hb⟩ := hm.below m' hlt <;> omega
  have heven' : m' % 2 = 0 := by
    obtain hb | ⟨_, hb⟩ := hm'.above m hlt <;> omega
  have hbetween : (magUnits (m' + 1) + magUnits m) * d ≤ 2 * n := by
    obtain hb | ⟨hb, _⟩ := hm.below (m' + 1) (by omega) <;> omega
  have hstep : (magUnits m' + magUnits m) * d < (magUnits (m' + 1) + magUnits m) * d :=
    Nat.mul_lt_mul_of_pos_right (Nat.add_lt_add_right (magUnits_lt_succ m') _) hd
  omega

theorem roundMag_le_of_le {n d q : Nat} (hd : 0 < d) (hq : q ≤ infMag) (h : n ≤ magUnits q * d) : roundMag n d ≤ q :=
  calc roundMag n d ≤ roundMag (magUnits q * d) d := roundMag_mono hd hd (Nat.mul_le_mul_right d h)
    _ = q := roundMag_exact hd hq

/-- A value at or above a magnitude, but nearer to it than to the next, rounds to it. -/
theorem roundMag_of_excess {m n : Nat} (hm : m ≤ infMag) (hlo : magUnits m ≤ n)
    (hhi : 2 * n < magUnits m + magUnits (m + 1)) : roundMag n 1 = m := by
  have hge : m ≤ roundMag n 1 :=
    calc m = roundMag (magUnits m * 1) 1 := (roundMag_exact Nat.one_pos hm).symm
      _ ≤ roundMag n 1 := roundMag_mono Nat.one_pos Nat.one_pos (by omega)
  have hle : roundOpen n 1 ≤ m := by
    by_contra hlt
    have hnext : magUnits (m + 1) ≤ magUnits (roundOpen n 1) := magUnits_le_iff.mpr (by omega)
    have := (roundOpen_roundsTo n Nat.one_pos).below m (by omega)
    omega
  have hcut : roundMag n 1 ≤ roundOpen n 1 := Nat.min_le_left _ _
  omega

/-! ### Error -/

/-- Two magnitudes next to each other: their distance is a power of two, and at most 2^-23 of the magnitude where it is
not one unit; the magnitude is below 2^24 of it. -/
theorem magUnits_gap (m : Nat) :
    ∃ gap, 0 < gap ∧ magUnits (m + 1) = magUnits m + gap ∧ magUnits m < 2 ^ 24 * gap ∧
      (gap = 1 ∨ 2 ^ 23 * gap ≤ magUnits m) := by
  obtain ⟨sh, r, hm, hunits, hr, hr'⟩ := magUnits_shape m
  refine ⟨2 ^ sh, Nat.two_pow_pos sh, ?_, ?_, ?_⟩
  · rw [hunits, hm, Nat.add_assoc, magUnits_of_shape (by omega) (by omega)]
    ring
  · rw [hunits]
    exact Nat.mul_lt_mul_of_pos_right hr (Nat.two_pow_pos sh)
  · by_cases hs : sh = 0
    · exact .inl (by rw [hs, Nat.pow_zero])
    · exact .inr (hunits ▸ Nat.mul_le_mul_right _ (hr' hs))

theorem roundMag_eq_roundOpen {n d : Nat} (hd : 0 < d) (hn : n < overflowUnits * d) : roundMag n d = roundOpen n d := by
  rw [roundMag_eq]
  refine Nat.min_eq_left (Nat.le_of_lt (Nat.not_le.mp fun hm => ?_))
  exact absurd (((roundOpen_roundsTo n hd).overflow_iff hd).mpr hm) (by omega)

/-- Half a gap is half a unit, or at most 2^-24 of any value above the gap. -/
theorem error_of_gap {gap u n d far : Nat} (hfar : 2 * far ≤ gap * d) (hgap : gap = 1 ∨ 2 ^ 23 * gap ≤ u)
    (hn : u * d ≤ n) : 2 ^ 24 * far ≤ n ∨ 2 * far ≤ d := by
  obtain rfl | hgap := hgap
  · exact .inr (by omega)
  · have := Nat.mul_le_mul_right d hgap
    rw [Nat.mul_assoc] at this
    exact .inl (by omega)

/-- Rounding moves a value below overflow by at most 2^-24 of it, or by at most half a unit. -/
theorem roundMag_error {n d : Nat} (hd : 0 < d) (hn : n < overflowUnits * d) :
    2 ^ 24 * unitsFar n d (roundMag n d) ≤ n ∨ 2 * unitsFar n d (roundMag n d) ≤ d := by
  rw [roundMag_eq_roundOpen hd hn]
  have hm := roundOpen_roundsTo n hd
  generalize roundOpen n d = m at *
  by_cases hup : magUnits m * d ≤ n
  · obtain ⟨gap, _, hnext, _, hgap⟩ := magUnits_gap m
    have hclose : 2 * n ≤ (magUnits m + magUnits (m + 1)) * d := by
      obtain h | ⟨h, _⟩ := hm.above (m + 1) (by omega) <;> omega
    rw [hnext, show (magUnits m + (magUnits m + gap)) * d = 2 * (magUnits m * d) + gap * d by ring] at hclose
    exact error_of_gap (by rw [unitsFar]; omega) hgap hup
  · obtain ⟨k, rfl⟩ : ∃ k, m = k + 1 := Nat.exists_eq_succ_of_ne_zero (by rintro rfl; simp at hup)
    obtain ⟨gap, _, hnext, _, hgap⟩ := magUnits_gap k
    have hclose : (magUnits k + magUnits (k + 1)) * d ≤ 2 * n := by
      obtain h | ⟨h, _⟩ := hm.below k (by omega) <;> omega
    rw [hnext, show (magUnits k + (magUnits k + gap)) * d = 2 * (magUnits k * d) + gap * d by ring] at hclose
    rw [hnext, Nat.add_mul] at hup
    exact error_of_gap (by rw [unitsFar, hnext, Nat.add_mul]; omega) hgap (by omega)

/-! ### Values with a sign -/

/-- `t` / `d` units rounded, with the sign of `t`. -/
def roundedUnits (t : Int) (d : Nat) : Int :=
  if t < 0 then -(magUnits (roundMag t.natAbs d) : Int) else magUnits (roundMag t.natAbs d)

theorem roundedUnits_mono {t u : Int} (h : t ≤ u) {d : Nat} (hd : 0 < d) : roundedUnits t d ≤ roundedUnits u d := by
  have hmono {n n' : Nat} (hn : n ≤ n') : magUnits (roundMag n d) ≤ magUnits (roundMag n' d) :=
    magUnits_le_iff.mpr (roundMag_mono hd hd (Nat.mul_le_mul_right d hn))
  unfold roundedUnits
  split_ifs with ht hu hu
  · have := hmono (n := u.natAbs) (n' := t.natAbs) (by omega)
    omega
  · omega
  · omega
  · have := hmono (n := t.natAbs) (n' := u.natAbs) (by omega)
    omega

/-- The value of a pattern from a sign and magnitude bits. -/
theorem fnum_fpack (s : Bool) {m : Nat} (h : m < 2 ^ 31) :
    fnum (fpack s m) = if s then -(magUnits m : Int) else magUnits m := by
  rw [fnum, funits_eq, fsign_fpack s h, fmag_fpack s h]

theorem funits_fpack (s : Bool) {m : Nat} (h : m < 2 ^ 31) : funits (fpack s m) = magUnits m := by
  rw [funits_eq, fmag_fpack s h]

/-- The value of a finite sum is the exact sum, rounded. -/
theorem fnum_fadd {a b : Word} (ha : isFinite a = true) (hb : isFinite b = true) :
    fnum (fadd a b) = roundedUnits (fnum a + fnum b) 1 := by
  rw [fadd_finite ha hb, roundedUnits]
  by_cases ht : fnum a + fnum b = 0
  · have hzero : isZero (if a = 0x80000000 ∧ b = 0x80000000 then 0x80000000 else 0) = true := by
      split_ifs <;> decide
    rw [if_pos ht, fnum_eq_zero_iff.mpr hzero, ht]
    simp [roundMag_zero]
  · rw [if_neg ht, fnum_fpack _ (roundMag_lt _ _)]
    simp only [decide_eq_true_eq]

/-- The value of a finite product is the exact product, rounded. -/
theorem fnum_fmul {a b : Word} (ha : isFinite a = true) (hb : isFinite b = true) :
    fnum (fmul a b) = roundedUnits (fnum a * fnum b) (2 ^ 149) := by
  have hexact : fnum a * fnum b =
      if fsign a != fsign b then -((funits a * funits b : Nat) : Int) else (funits a * funits b : Nat) := by
    unfold fnum
    cases fsign a <;> cases fsign b <;> simp
  rw [fmul_finite ha hb, fnum_fpack _ (roundMag_lt _ _), hexact, roundedUnits]
  generalize funits a * funits b = n
  cases fsign a != fsign b
  · simp
  · obtain rfl | hn := Nat.eq_zero_or_pos n
    · simp [roundMag_zero]
    · simp [hn]

end Sys2Proof.Machine

/-! ## The waveshaper (spec/42_stages.md R190 to R192)

The output is `fadd p x` for a term `p`; what is known of the arctangent makes `p` finite, at most 1.0 in magnitude and
of the sign of the product, so `p` and `x` never cancel under a drive of sign bit 0. -/

namespace Sys2Proof.Machine

section Operations
variable {a b : Word}

/-! ### Products that are no NaN -/

/-- The operands of a product that is no NaN are finite, or an infinity and no zero. -/
theorem fmul_operands (h : isNaN (fmul a b) = false) :
    (isFinite a = true ∧ isFinite b = true) ∨
      ((isInf a = true ∨ isInf b = true) ∧
        isNaN a = false ∧ isNaN b = false ∧ isZero a = false ∧ isZero b = false) := by
  have hq (hn : isNaN a = true ∨ isNaN b = true ∨ isZero a = true ∧ isInf b = true ∨ isInf a = true ∧ isZero b = true) :
      False := by
    rw [isNaN_of_isQuietNaN (isQuietNaN_fmul hn)] at h
    cases h
  have hna : isNaN a = false := Bool.eq_false_iff.mpr fun h => hq (.inl h)
  have hnb : isNaN b = false := Bool.eq_false_iff.mpr fun h => hq (.inr (.inl h))
  obtain hfa | hia := isFinite_or_isInf hna
  · obtain hfb | hib := isFinite_or_isInf hnb
    · exact .inl ⟨hfa, hfb⟩
    · exact .inr ⟨.inr hib, hna, hnb, Bool.eq_false_iff.mpr fun h => hq (.inr (.inr (.inl ⟨h, hib⟩))),
        (isInf_classes hib).2.1⟩
  · exact .inr ⟨.inl hia, hna, hnb, (isInf_classes hia).2.1,
      Bool.eq_false_iff.mpr fun h => hq (.inr (.inr (.inr ⟨hia, h⟩)))⟩

/-- A product that is no NaN is a magnitude under the exclusive or of the signs. -/
theorem fmul_eq_fpack (h : isNaN (fmul a b) = false) :
    ∃ m, m < 2 ^ 31 ∧ fmul a b = fpack (fsign a != fsign b) m ∧ fmul a (fneg b) = fpack (fsign a != !fsign b) m := by
  obtain ⟨ha, hb⟩ | ⟨hi, hna, hnb, hza, hzb⟩ := fmul_operands h
  · refine ⟨_, roundMag_lt _ _, fmul_finite ha hb, ?_⟩
    rw [fmul_finite ha (by rw [isFinite_fneg, hb]), fsign_fneg, funits_fneg]
  · refine ⟨infMag, by decide, fmul_inf hi hna hnb hza hzb, ?_⟩
    rw [fmul_inf (by rwa [isInf_fneg]) hna (by rw [isNaN_fneg, hnb]) hza (by rw [isZero_fneg, hzb]), fsign_fneg]

theorem fsign_fmul (h : isNaN (fmul a b) = false) : fsign (fmul a b) = (fsign a != fsign b) := by
  obtain ⟨m, hm, hab, _⟩ := fmul_eq_fpack h
  rw [hab, fsign_fpack _ hm]

theorem fmul_fneg (h : isNaN (fmul a b) = false) : fmul a (fneg b) = fneg (fmul a b) := by
  obtain ⟨m, hm, hab, hneg⟩ := fmul_eq_fpack h
  rw [hneg, hab, fneg_eq, fsign_fpack _ hm, fmag_fpack _ hm]
  cases fsign a <;> cases fsign b <;> rfl

theorem fmul_finite_not_nan (ha : isFinite a = true) (hb : isFinite b = true) : isNaN (fmul a b) = false := by
  rw [fmul_finite ha hb]
  exact isNaN_fpack _ (roundMag_le _ _)

theorem isZero_fmul (ha : isFinite a = true) (hb : isFinite b = true) (hz : isZero a = true ∨ isZero b = true) :
    isZero (fmul a b) = true := by
  have hexact : fnum a * fnum b = 0 := by
    rw [mul_eq_zero, fnum_eq_zero_iff, fnum_eq_zero_iff]
    exact hz
  rw [← fnum_eq_zero_iff, fnum_fmul ha hb, hexact]
  simp [roundedUnits, roundMag_zero]

/-! ### Sums of one sign -/

/-- A sum of finite operands of one sign has that sign and the rounded sum of the magnitudes. -/
theorem fadd_same_sign (ha : isFinite a = true) (hb : isFinite b = true) (hs : fsign a = fsign b) :
    fadd a b = fpack (fsign b) (roundMag (funits a + funits b) 1) := by
  have hsum : fnum a + fnum b =
      if fsign b then -((funits a + funits b : Nat) : Int) else (funits a + funits b : Nat) := by
    unfold fnum
    rw [hs]
    cases fsign b
    · rfl
    · simp only [if_true]
      omega
  rw [fadd_finite ha hb]
  obtain hz | hpos := Nat.eq_zero_or_pos (funits a + funits b)
  · obtain ⟨hza, hzb⟩ := Nat.add_eq_zero_iff.mp hz
    rw [hsum, hz, roundMag_zero Nat.one_pos]
    obtain rfl | rfl := eq_zero_of_isZero (funits_eq_zero_iff.mp hza) <;>
      obtain rfl | rfl := eq_zero_of_isZero (funits_eq_zero_iff.mp hzb) <;> revert hs <;> decide
  · rw [hsum]
    generalize funits a + funits b = n at *
    cases fsign b
    · simp [hpos.ne', (Int.natCast_nonneg n).not_gt]
    · simp [hpos.ne', hpos]

theorem fadd_fneg (ha : isFinite a = true) (hb : isNaN b = false) (hs : fsign a = fsign b) :
    fadd (fneg a) (fneg b) = fneg (fadd a b) := by
  have ha' : isFinite (fneg a) = true := by rw [isFinite_fneg, ha]
  obtain hf | hi := isFinite_or_isInf hb
  · rw [fadd_same_sign ha' (by rw [isFinite_fneg, hf]) (by rw [fsign_fneg, fsign_fneg, hs]), fadd_same_sign ha hf hs,
      funits_fneg, funits_fneg, fneg_eq (fpack _ _), fsign_fpack _ (roundMag_lt _ _), fmag_fpack _ (roundMag_lt _ _),
      fsign_fneg]
  · rw [fadd_inf_right ha' (by rw [isInf_fneg, hi]), fadd_inf_right ha hi]

end Operations

/-! ### The term the waveshaper adds -/

/-- The term `p` of R190. -/
def shaperTerm (f : Word → Word) (d x : Word) : Word := fmul twoOverPi (f (fmul d x))

theorem shapeWith_eq (f : Word → Word) (d x : Word) : shapeWith f d x = fadd (shaperTerm f d x) x := rfl

theorem shapeOut_eq (d x : Word) : shapeOut d x = fadd (shaperTerm atan32 d x) x := rfl

section Term
variable {f : Word → Word} {d x : Word}

/-- The term is finite and at most 1.0 in magnitude: 2/π was rounded down by more than π/2 was rounded up. -/
theorem AtanShape.term_bounded (hf : AtanShape f) (hu : isNaN (fmul d x) = false) :
    isFinite (shaperTerm f d x) = true ∧ funits (shaperTerm f d x) ≤ funits 0x3F800000 := by
  obtain ⟨hfin, hle⟩ := hf.atan_bound _ hu
  have hmag : roundMag (funits twoOverPi * funits (f (fmul d x))) (2 ^ 149) ≤ 0x3F800000 :=
    roundMag_le_of_le (by decide) (by decide)
      (calc funits twoOverPi * funits (f (fmul d x)) ≤ funits twoOverPi * funits 0x3FC90FDB :=
            Nat.mul_le_mul_left _ hle
        _ ≤ magUnits 0x3F800000 * 2 ^ 149 := by decide)
  rw [shaperTerm, fmul_finite (by decide) hfin, funits_fpack _ (roundMag_lt _ _), funits_eq]
  exact ⟨isFinite_fpack _ (lt_of_le_of_lt hmag (by decide)), magUnits_le_iff.mpr hmag⟩

/-- The term has the sign of the product. -/
theorem AtanShape.fsign_term (hf : AtanShape f) (hu : isNaN (fmul d x) = false) :
    fsign (shaperTerm f d x) = (fsign d != fsign x) := by
  rw [shaperTerm, fsign_fmul (fmul_finite_not_nan (by decide) (hf.atan_bound _ hu).1), hf.atan_sign _ hu, fsign_fmul hu,
    show fsign twoOverPi = false by decide, Bool.false_bne]

theorem AtanShape.term_fneg (hf : AtanShape f) (hu : isNaN (fmul d x) = false) :
    shaperTerm f d (fneg x) = fneg (shaperTerm f d x) := by
  rw [shaperTerm, fmul_fneg hu, hf.atan_odd _ hu, fmul_fneg, shaperTerm]
  exact fmul_finite_not_nan (by decide) (hf.atan_bound _ hu).1

theorem AtanShape.apply_zero (hf : AtanShape f) {u : Word} (hu : isZero u = true) : f u = u := by
  obtain rfl | rfl := eq_zero_of_isZero hu
  · exact hf.atan_zero.1
  · exact hf.atan_zero.2

theorem AtanShape.apply_inf (hf : AtanShape f) {u : Word} (hu : isInf u = true) :
    f u = if fsign u then 0xBFC90FDB else 0x3FC90FDB := by
  rw [isInf_iff] at hu
  cases hs : fsign u
  · rw [show u = 0x7F800000 from word_ext hs hu]
    exact hf.atan_inf.1
  · rw [show u = 0xFF800000 from word_ext hs hu]
    exact hf.atan_inf.2

/-- The term of an infinite product is ±1.0. -/
theorem AtanShape.term_of_inf (hf : AtanShape f) (hu : isInf (fmul d x) = true) :
    shaperTerm f d x = if fsign d = fsign x then 0x3F800000 else 0xBF800000 := by
  rw [shaperTerm, hf.apply_inf hu, fsign_fmul (isInf_classes hu).1]
  cases fsign d <;> cases fsign x <;> decide

/-- A NaN as the product makes the output a NaN. -/
theorem AtanShape.shape_of_nan (hf : AtanShape f) (hu : isNaN (fmul d x) = true) : isNaN (shapeWith f d x) = true := by
  have hatan := isNaN_of_isQuietNaN (hf.atan_nan _ hu)
  have hterm : isNaN (shaperTerm f d x) = true := isNaN_of_isQuietNaN (isQuietNaN_fmul (.inr (.inl hatan)))
  rw [shapeWith_eq, fadd_nan (.inl hterm)]
  exact isNaN_nangen _ _ _

/-- Under a drive of sign bit 0 a finite sample's magnitude grows by the term's. -/
theorem AtanShape.shape_eq_fpack (hf : AtanShape f) (hd : isFinite d = true) (hs : fsign d = false)
    (hx : isFinite x = true) :
    shapeWith f d x = fpack (fsign x) (roundMag (funits (shaperTerm f d x) + funits x) 1) := by
  have hu := fmul_finite_not_nan hd hx
  rw [shapeWith_eq, fadd_same_sign (hf.term_bounded hu).1 hx]
  rw [hf.fsign_term hu, hs, Bool.false_bne]

/-- A zero as the product leaves the sample as it is. -/
theorem AtanShape.shape_of_zero (hf : AtanShape f) (hd : isFinite d = true) (hs : fsign d = false)
    (hx : isFinite x = true) (hz : isZero d = true ∨ isZero x = true) : shapeWith f d x = x := by
  have hu : isZero (fmul d x) = true := isZero_fmul hd hx hz
  have hterm : isZero (shaperTerm f d x) = true := by
    rw [shaperTerm, hf.apply_zero hu]
    exact isZero_fmul (by decide) (isFinite_of_isZero hu) (.inr hu)
  have hround := roundMag_funits hx Nat.one_pos
  rw [Nat.mul_one] at hround
  rw [hf.shape_eq_fpack hd hs hx, funits_eq_zero_iff.mpr hterm, Nat.zero_add, hround, fpack_eta]

/-- Odd symmetry, for a drive of sign bit 0 and a product that is no NaN. -/
theorem AtanShape.shape_fneg (hf : AtanShape f) (hs : fsign d = false) (hx : isNaN x = false)
    (hu : isNaN (fmul d x) = false) : shapeWith f d (fneg x) = fneg (shapeWith f d x) := by
  rw [shapeWith_eq, shapeWith_eq, hf.term_fneg hu,
    fadd_fneg (hf.term_bounded hu).1 hx (by rw [hf.fsign_term hu, hs, Bool.false_bne])]

/-- The output grows with the product of drive and sample. -/
theorem AtanShape.shape_mono (hf : AtanShape f) (hm : AtanMono f) {e : Word} (hd : isFinite d = true)
    (he : isFinite e = true) (hx : isFinite x = true) (h : fnum d * fnum x ≤ fnum e * fnum x) :
    fnum (shapeWith f d x) ≤ fnum (shapeWith f e x) := by
  have hud := fmul_finite_not_nan hd hx
  have hue := fmul_finite_not_nan he hx
  have hproduct : fnum (fmul d x) ≤ fnum (fmul e x) := by
    rw [fnum_fmul hd hx, fnum_fmul he hx]
    exact roundedUnits_mono h (by decide)
  have hatan : fnum (f (fmul d x)) ≤ fnum (f (fmul e x)) := hm _ _ hud hue hproduct
  have hterm : fnum (shaperTerm f d x) ≤ fnum (shaperTerm f e x) := by
    rw [shaperTerm, shaperTerm, fnum_fmul (by decide) (hf.atan_bound _ hud).1,
      fnum_fmul (by decide) (hf.atan_bound _ hue).1]
    exact roundedUnits_mono (Int.mul_le_mul_of_nonneg_left hatan (by decide)) (by decide)
  rw [shapeWith_eq, shapeWith_eq, fnum_fadd (hf.term_bounded hud).1 hx, fnum_fadd (hf.term_bounded hue).1 hx]
  exact roundedUnits_mono (Int.add_le_add_right hterm _) Nat.one_pos

end Term

/-! ### The statements of R191 (a) to (e) and R192 -/

theorem atan32_shape : AtanShape atan32 := atan32_admissible.1

/-- Settles O47: either way the product is a zero of the sample's sign. -/
theorem shaperIdentityAndSilence : Obligations.ShaperIdentityAndSilence := by
  refine ⟨fun x => ⟨fun hx => ?_, fun hx => ?_⟩, fun d hd hs => ⟨?_, ?_⟩⟩
  · exact atan32_shape.shape_of_zero (by decide) (by decide) hx (.inl (by decide))
  · exact atan32_shape.shape_of_nan (isNaN_of_isQuietNaN (isQuietNaN_fmul (.inr (.inr (.inl ⟨by decide, hx⟩)))))
  · exact atan32_shape.shape_of_zero hd hs (by decide) (.inr (by decide))
  · exact atan32_shape.shape_of_zero hd hs (by decide) (.inr (by decide))

/-- Settles O48: the bound of the arctangent bounds the term. -/
theorem shaperAddsAtMostOne : Obligations.ShaperAddsAtMostOne :=
  fun _ _ _ _ hu => ⟨rfl, atan32_shape.term_bounded hu⟩

/-- Settles O49: the term has the sample's sign, so the sum has no cancellation. -/
theorem shaperIsOdd : Obligations.ShaperIsOdd := by
  intro d x _ hs hx hy
  refine atan32_shape.shape_fneg hs hx (Bool.eq_false_iff.mpr fun hu => ?_)
  rw [shapeOut, atan32_shape.shape_of_nan hu] at hy
  cases hy

/-- Settles O50: product, arctangent, term and sum are each monotone, and a negative sample turns the drives' order. -/
theorem shaperIsMonotoneInDrive : Obligations.ShaperIsMonotoneInDrive := by
  refine ⟨fun x d e hx hd he _ hde => ⟨fun hpos => ?_, fun hneg => ?_⟩, fun f x d e hf hm hx hpos hd he _ hde => ?_⟩
  · exact atan32_shape.shape_mono atan32_admissible.2.1 hd he hx (Int.mul_le_mul_of_nonneg_right hde hpos.le)
  · exact atan32_shape.shape_mono atan32_admissible.2.1 he hd hx (Int.mul_le_mul_of_nonpos_right hde hneg.le)
  · exact hf.shape_mono hm hd he hx (Int.mul_le_mul_of_nonneg_right hde hpos.le)

/-- An infinite product makes the waveshaper a hard step plus its input. -/
theorem shapeOut_of_inf {d x : Word} (hu : isInf (fmul d x) = true) :
    shapeOut d x = fadd (if fsign d = fsign x then 0x3F800000 else 0xBF800000) x := by
  rw [shapeOut_eq, atan32_shape.term_of_inf hu]

/-- An infinite operand with one that is no zero gives an infinite product. -/
theorem isInf_fmul {a b : Word} (hi : isInf a = true ∨ isInf b = true) (hna : isNaN a = false) (hnb : isNaN b = false)
    (hza : isZero a = false) (hzb : isZero b = false) : isInf (fmul a b) = true := by
  rw [fmul_inf hi hna hnb hza hzb]
  cases fsign a != fsign b <;> decide

/-- Settles O51: the product is a NaN or an infinity in every corner. -/
theorem shaperCornerCases : Obligations.ShaperCornerCases := by
  intro d x
  have hnan
      (h : isNaN d = true ∨ isNaN x = true ∨ isZero d = true ∧ isInf x = true ∨ isInf d = true ∧ isZero x = true) :
      isNaN (shapeOut d x) = true := atan32_shape.shape_of_nan (isNaN_of_isQuietNaN (isQuietNaN_fmul h))
  refine ⟨fun h => ?_, fun hx hd hpos => ?_, fun hx hd => ?_, fun hd hx hzx => ?_, fun hd hx => ?_, fun _ _ hu => ?_⟩
  · exact hnan (or_assoc.mp (.inl h))
  · have hzd : isZero d = false := Bool.eq_false_iff.mpr fun hz => hpos.ne' (fnum_eq_zero_iff.mpr hz)
    have hu := isInf_fmul (.inr hx) hd (isInf_classes hx).1 hzd (isInf_classes hx).2.1
    rw [shapeOut_of_inf hu]
    exact fadd_inf_right (by split_ifs <;> decide) hx
  · exact hnan (.inr (.inr (.inl ⟨hd, hx⟩)))
  · exact shapeOut_of_inf (isInf_fmul (.inl hd) (isInf_classes hd).1 (isFinite_classes hx).1 (isInf_classes hd).2.1 hzx)
  · exact hnan (.inr (.inr (.inr ⟨hd, hx⟩)))
  · exact shapeOut_of_inf hu

end Sys2Proof.Machine

/-! ## The waveshaper at small products (spec/42_stages.md R191 (f))

Every step of the formula rounds once, and moves the value by 2^-24 of it or half a unit; the arctangent of a small
argument is the argument up to 2^-24 of it, and `ATAN32` is within one magnitude of it. -/

namespace Sys2Proof.Machine

/-! ### The arctangent near zero -/

theorem arctanReal_le {r : ℝ} (h : 0 ≤ r) : arctanReal r ≤ r := by
  have hle := (arctan_sub_le le_rfl (show (0 : ℝ) ≤ r / 2 ^ 149 by positivity)).2
  simp only [Real.arctan_zero, sub_zero, ne_eq, OfNat.ofNat_ne_zero, not_false_eq_true, zero_pow, add_zero,
    div_one] at hle
  exact (le_div_iff₀ (by positivity)).mp hle

/-- Up to 2^-12 the arctangent is the argument but for 2^-24 of it. -/
theorem le_arctanReal {r : ℝ} (h : 0 ≤ r) (hr : r ≤ 2 ^ 137) : r * (1 - 1 / 2 ^ 24) ≤ arctanReal r := by
  have hy : 0 ≤ r / 2 ^ 149 := by positivity
  have hy' : r / 2 ^ 149 ≤ 1 / 2 ^ 12 := by
    rw [div_le_div_iff₀ (by positivity) (by positivity)]
    linarith
  have hge := (arctan_sub_le le_rfl hy).1
  rw [Real.arctan_zero, sub_zero, sub_zero] at hge
  have hsq : (r / 2 ^ 149) ^ 2 ≤ 1 / 2 ^ 24 := by nlinarith
  have hquot : r / 2 ^ 149 * (1 - 1 / 2 ^ 24) ≤ r / 2 ^ 149 / (1 + (r / 2 ^ 149) ^ 2) := by
    rw [le_div_iff₀ (by positivity), mul_assoc]
    exact mul_le_of_le_one_right hy (by nlinarith)
  have := mul_le_mul_of_nonneg_right (hquot.trans hge) (show (0 : ℝ) ≤ 2 ^ 149 by positivity)
  rw [arctanReal]
  linarith

/-- `ATAN32` of a finite argument is no greater in magnitude, and the real arctangent is below the next magnitude. -/
theorem atan32_magnitude {u : Word} (hu : isFinite u = true) :
    fmag (atan32 u) ≤ fmag u ∧ arctanReal (funits u) < magUnits (fmag (atan32 u) + 1) := by
  have hm := (isFinite_iff u).mp hu
  have hmag : fmag (atan32 u) = magOf atan32 (fmag u) := by
    rw [atan32_shape.eq_fpack (isFinite_classes hu).1, fmag_fpack _ (magOf_lt _ _)]
  have hfaithful := atan32_shape.faithful_iff.mp atan32_admissible.2.2
  have hbound : magOf atan32 (fmag u) ≤ 0x3FC90FDB := atan32_shape.magOf_le hm.le
  rw [hmag, funits_eq]
  constructor
  · by_contra hlt
    have hbelow := (hfaithful _ _ hm hm).2 (Nat.not_le.mp hlt)
    exact absurd hbelow (not_lt.mpr (arctanReal_le (Nat.cast_nonneg _)))
  · exact (hfaithful _ _ hm (lt_of_le_of_lt (Nat.succ_le_succ hbound) (by decide))).1 (Nat.lt_succ_self _)

/-! ### Drives from 2^-26 down -/

/-- The term is no greater in magnitude than the product. -/
theorem shaperTerm_le_product {d x : Word} (hu : isFinite (fmul d x) = true) :
    funits (shaperTerm atan32 d x) ≤ funits (fmul d x) := by
  have hfin := (atan32_shape.atan_bound _ (isFinite_classes hu).1).1
  have hatan := (atan32_magnitude hu).1
  have hround : roundMag (funits twoOverPi * funits (atan32 (fmul d x))) (2 ^ 149) ≤ fmag (atan32 (fmul d x)) := by
    refine roundMag_le_of_le (by decide) ((isFinite_iff _).mp hfin).le ?_
    rw [← funits_eq, Nat.mul_comm]
    exact Nat.mul_le_mul_left _ (by decide)
  rw [shaperTerm, fmul_finite (by decide) hfin, funits_fpack _ (roundMag_lt _ _), funits_eq (fmul d x),
    magUnits_le_iff]
  exact hround.trans hatan

theorem funits_le_of_isFinite {x : Word} (hx : isFinite x = true) : funits x ≤ magUnits (infMag - 1) := by
  have hm := (isFinite_iff x).mp hx
  rw [funits_eq, magUnits_le_iff]
  omega

/-- A drive of at most 2^-26 makes a product of less than half the distance to the sample's next magnitude. -/
theorem product_lt_half_gap {d x : Word} (hd : fmag d ≤ 0x32800000) (hx : isFinite x = true) {gap : Nat}
    (hgap : funits x < 2 ^ 24 * gap) :
    isFinite (fmul d x) = true ∧ 2 * funits (fmul d x) < gap := by
  have hdu : funits d ≤ 2 ^ 123 := by
    rw [funits_eq]
    exact (magUnits_le_iff.mpr hd).trans (by decide)
  have hdfin : isFinite d = true := (isFinite_iff d).mpr (lt_of_le_of_lt hd (by decide))
  have hn : funits d * funits x ≤ 2 ^ 123 * funits x := Nat.mul_le_mul_right _ hdu
  have hsmall : funits d * funits x < overflowUnits * 2 ^ 149 :=
    calc funits d * funits x ≤ 2 ^ 123 * magUnits (infMag - 1) :=
          hn.trans (Nat.mul_le_mul_left _ (funits_le_of_isFinite hx))
      _ < overflowUnits * 2 ^ 149 := by decide
  rw [fmul_finite hdfin hx, funits_fpack _ (roundMag_lt _ _)]
  refine ⟨isFinite_fpack _ (roundMag_nearest (by decide) hsmall).1, ?_⟩
  have herror := roundMag_error (by decide) hsmall
  rw [unitsFar] at herror
  omega

theorem shapeOut_of_small_drive {d x : Word} (hs : fsign d = false) (hd : fmag d ≤ 0x32800000)
    (hx : isFinite x = true) : shapeOut d x = x := by
  have hdfin : isFinite d = true := (isFinite_iff d).mpr (lt_of_le_of_lt hd (by decide))
  obtain ⟨gap, _, hnext, hgap, _⟩ := magUnits_gap (fmag x)
  obtain ⟨hu, hhalf⟩ := product_lt_half_gap hd hx (by rw [funits_eq]; exact hgap)
  have hterm := shaperTerm_le_product hu
  have hround : roundMag (funits (shaperTerm atan32 d x) + funits x) 1 = fmag x := by
    rw [funits_eq x]
    exact roundMag_of_excess ((isFinite_iff x).mp hx).le (by omega) (by omega)
  rw [shapeOut, atan32_shape.shape_eq_fpack hdfin hs hx, hround, fpack_eta]

/-! ### The output against (1 + (2/π)·`DRV`)·`x` -/

/-- `v` units are at most 2^-24 of `r` and half a unit away from `r` units, as after one rounding. -/
def CloseTo (v r : ℝ) : Prop := |v - r| ≤ r / 2 ^ 24 + 1 / 2

theorem roundMag_closeTo {n d : Nat} (hd : 0 < d) (hn : n < overflowUnits * d) {r : ℝ} (hr : (n : ℝ) = r * d) :
    CloseTo (magUnits (roundMag n d)) r := by
  have hdr : (0 : ℝ) < d := by exact_mod_cast hd
  have hn0 : (0 : ℝ) ≤ n := Nat.cast_nonneg n
  have hfar : |(magUnits (roundMag n d) : ℝ) - r| * d = unitsFar n d (roundMag n d) := by
    rw [unitsFar, Nat.cast_natAbs, ← abs_of_pos hdr, ← abs_mul, sub_mul, ← hr]
    push_cast
    rfl
  refine le_of_mul_le_mul_right ?_ hdr
  rw [hfar, add_mul, div_mul_eq_mul_div, ← hr]
  obtain h | h := roundMag_error hd hn
  · have h : (2 ^ 24 * unitsFar n d (roundMag n d) : ℝ) ≤ n := by exact_mod_cast h
    linarith
  · have h : (2 * unitsFar n d (roundMag n d) : ℝ) ≤ d := by exact_mod_cast h
    linarith [div_nonneg hn0 (show (0 : ℝ) ≤ 2 ^ 24 by positivity)]

theorem product_closeTo {a b : Word} (ha : isFinite a = true) (hb : isFinite b = true)
    (h : isFinite (fmul a b) = true) : CloseTo (funits (fmul a b)) (funits a * funits b / 2 ^ 149) := by
  rw [fmul_finite ha hb] at h ⊢
  have hn : funits a * funits b < overflowUnits * 2 ^ 149 := by
    by_contra hover
    rw [roundMag_overflow (by decide) (Nat.not_lt.mp hover), isFinite_iff, fmag_fpack _ (by decide)] at h
    exact absurd h (lt_irrefl _)
  rw [funits_fpack _ (roundMag_lt _ _)]
  refine roundMag_closeTo (by decide) hn ?_
  push_cast
  ring

/-- The term against 2/π, as `TWO_OVER_PI` has it, times the arctangent. -/
theorem term_closeTo {d x : Word} (hu : isNaN (fmul d x) = false) :
    CloseTo (funits (shaperTerm atan32 d x)) (10680707 / 2 ^ 24 * funits (atan32 (fmul d x))) := by
  have h := product_closeTo (by decide) (atan32_shape.atan_bound _ hu).1 (atan32_shape.term_bounded hu).1
  have hscale (a : ℝ) : 10680707 / 2 ^ 24 * a = (10680707 * 2 ^ 125 : Nat) * a / 2 ^ 149 := by
    push_cast
    ring
  rw [hscale]
  exact h

theorem sum_closeTo {d x : Word} (hu : isNaN (fmul d x) = false) (hx : isFinite x = true) :
    CloseTo (magUnits (roundMag (funits (shaperTerm atan32 d x) + funits x) 1))
      (funits (shaperTerm atan32 d x) + funits x) := by
  have hn : funits (shaperTerm atan32 d x) + funits x < overflowUnits * 1 :=
    lt_of_le_of_lt (Nat.add_le_add (atan32_shape.term_bounded hu).2 (funits_le_of_isFinite hx)) (by decide)
  refine roundMag_closeTo Nat.one_pos hn ?_
  push_cast
  ring

/-- `TWO_OVER_PI` is 2/π rounded down. -/
theorem twoOverPi_near : 2 / Real.pi * (1 - 1 / 2 ^ 24) ≤ 10680707 / 2 ^ 24 ∧
    10680707 / 2 ^ 24 ≤ 2 / Real.pi ∧ 2 / Real.pi ≤ 0.64 := by
  have hlo := Real.pi_gt_d20
  have hhi := Real.pi_lt_d20
  have hpos := Real.pi_pos
  refine ⟨?_, ?_, ?_⟩
  · rw [div_mul_eq_mul_div, div_le_div_iff₀ hpos (by positivity)]
    linarith
  · rw [div_le_div_iff₀ (by positivity) hpos]
    linarith
  · rw [div_le_iff₀ hpos]
    linarith

/-- The errors of the formula's steps together: the exact product `z`, the sample `x`, then product, arctangent, term
and output as they are computed, with `t` the real arctangent and `c` for `k` = 2/π. -/
theorem error_of_steps {z x u t a p y k c : ℝ} (hz : 0 ≤ z) (hx : 0 ≤ x) (ha : 0 ≤ a) (hk : 0 ≤ k) (hk' : k ≤ 0.64)
    (hc : k * (1 - 1 / 2 ^ 24) ≤ c) (hc' : c ≤ k) (hu : CloseTo u z)
    (hat : a ≤ u) (hut : u * (1 - 1 / 2 ^ 24) ≤ t) (hta : t ≤ a + (a / 2 ^ 23 + 1))
    (hp : CloseTo p (c * a)) (hy : CloseTo y (p + x)) :
    |y - (x + k * z)| ≤ (x + k * z) / 2 ^ 21 + 2 := by
  rw [CloseTo, abs_le] at hu hp hy
  rw [abs_le]
  have hkz : 0 ≤ k * z := mul_nonneg hk hz
  have hku : k * u ≤ k * (z + (z / 2 ^ 24 + 1 / 2)) := mul_le_mul_of_nonneg_left (by linarith) hk
  have hku' : k * (z - (z / 2 ^ 24 + 1 / 2)) ≤ k * u := mul_le_mul_of_nonneg_left (by linarith) hk
  have hka : k * a ≤ k * u := mul_le_mul_of_nonneg_left hat hk
  have hka' : k * (u * (1 - 1 / 2 ^ 24)) ≤ k * (a + (a / 2 ^ 23 + 1)) := mul_le_mul_of_nonneg_left (by linarith) hk
  have hca : c * a ≤ k * a := mul_le_mul_of_nonneg_right hc' ha
  have hca' : k * (1 - 1 / 2 ^ 24) * a ≤ c * a := mul_le_mul_of_nonneg_right hc ha
  constructor <;> linarith

/-- The magnitude of the next pattern, one unit or 2^-23 away. -/
theorem magUnits_succ_le (m : Nat) : (magUnits (m + 1) : ℝ) ≤ magUnits m + (magUnits m / 2 ^ 23 + 1) := by
  obtain ⟨gap, _, hnext, _, hgap⟩ := magUnits_gap m
  have hm : (0 : ℝ) ≤ magUnits m := Nat.cast_nonneg _
  rw [hnext]
  push_cast
  obtain rfl | hgap := hgap
  · rw [Nat.cast_one]
    linarith [div_nonneg hm (show (0 : ℝ) ≤ 2 ^ 23 by positivity)]
  · have hgap : (2 ^ 23 * gap : ℝ) ≤ magUnits m := by exact_mod_cast hgap
    linarith

/-- At a product of at most 2^-12 the output's units are near the real formula's. -/
theorem shape_units_near {d x : Word} (hd : isFinite d = true) (hx : isFinite x = true)
    (hu : funits (fmul d x) ≤ 2 ^ 137) :
    let ideal : ℝ := funits x + 2 / Real.pi * (funits d * funits x / 2 ^ 149)
    |(magUnits (roundMag (funits (shaperTerm atan32 d x) + funits x) 1) : ℝ) - ideal| ≤ ideal / 2 ^ 21 + 2 := by
  have hnan := fmul_finite_not_nan hd hx
  have hufin : isFinite (fmul d x) = true := by
    rw [isFinite_iff, ← magUnits_lt_iff, ← funits_eq]
    exact lt_of_le_of_lt hu (by decide)
  obtain ⟨hatan, hbelow⟩ := atan32_magnitude hufin
  obtain ⟨hc, hc', hk⟩ := twoOverPi_near
  have hlower : (funits (fmul d x) : ℝ) * (1 - 1 / 2 ^ 24) ≤ arctanReal (funits (fmul d x)) :=
    le_arctanReal (Nat.cast_nonneg _) (by exact_mod_cast hu)
  have hfaithful : arctanReal (funits (fmul d x)) ≤
      funits (atan32 (fmul d x)) + (funits (atan32 (fmul d x)) / 2 ^ 23 + 1) := by
    rw [funits_eq (atan32 _)]
    exact hbelow.le.trans (magUnits_succ_le _)
  have hupper : (funits (atan32 (fmul d x)) : ℝ) ≤ funits (fmul d x) := by
    rw [Nat.cast_le, funits_eq, funits_eq, magUnits_le_iff]
    exact hatan
  exact error_of_steps (by positivity) (Nat.cast_nonneg _) (Nat.cast_nonneg _) (by positivity) hk hc hc'
    (product_closeTo hd hx hufin) hupper hlower hfaithful (term_closeTo hnan) (sum_closeTo hnan hx)

/-- Settles O60: the magnitudes are near, and output and sample have one sign. -/
theorem shaperSmallSignal : Obligations.ShaperSmallSignal := by
  refine fun d x hd hs hx => ⟨fun hu => ?_, fun hsmall => shapeOut_of_small_drive hs hsmall hx⟩
  have hnear := shape_units_near hd hx hu
  have hdrive : (fnum d : ℝ) = funits d := by rw [fnum, hs]; rfl
  have hideal : 0 ≤ (funits x : ℝ) + 2 / Real.pi * (funits d * funits x / 2 ^ 149) := by positivity
  dsimp only at hnear ⊢
  rw [shapeOut, atan32_shape.shape_eq_fpack hd hs hx, fnum_fpack _ (roundMag_lt _ _), hdrive]
  generalize magUnits (roundMag (funits (shaperTerm atan32 d x) + funits x) 1) = y at *
  have hform : (1 + 2 / Real.pi * (funits d / 2 ^ 149)) * funits x =
      (funits x : ℝ) + 2 / Real.pi * (funits d * funits x / 2 ^ 149) := by ring
  rw [fnum]
  cases fsign x
  · simp only [Bool.false_eq_true, if_false, Int.cast_natCast]
    rw [hform, abs_of_nonneg hideal]
    exact hnear
  · simp only [if_true, Int.cast_neg, Int.cast_natCast]
    rw [mul_neg, hform, abs_neg, abs_of_nonneg hideal, neg_sub_neg, abs_sub_comm]
    exact hnear

end Sys2Proof.Machine

/-! ## WRS and RDS (spec/43_process.md R211, R212) -/

namespace Sys2Proof.Machine

/-- Settles O27: what completes is one buffer write, which leaves the bytes outside the word's four alone. -/
theorem wrsStoresTheSample : Obligations.WrsStoresTheSample := fun s c i v hi =>
  ⟨s.memWrite c i v, exec_of_completes (.wrs c v hi), s.word_memWrite_same c i v,
    fun _ ha => Memory.byte_setWord_other s.mem c i v ha, s.memWrite_frame c i v⟩

/-- A word never written gives the next free value, and the counter of these advances (log entry 4). -/
theorem State.memRead_unwritten {s : State} {c : Chan} {i : Nat} (h : s.mem.word c i = none) :
    s.memRead c i = (Config.freeWord s.draws, { s with draws := s.draws + 1 }) := by
  simp [State.memRead, h]

/-- Settles O28: what completes is one buffer read, of a word written or not. -/
theorem rdsEmitsTheSample : Obligations.RdsEmitsTheSample := by
  refine fun s c i hi => ⟨fun v hv => ?_, fun hnone => ?_⟩
  · rw [exec_of_completes (.rds c hi), State.memRead_written hv]
    rfl
  · rw [exec_of_completes (.rds c hi), State.memRead_unwritten hnone]
    rfl

end Sys2Proof.Machine

/-! ## What `PROC` leaves unchanged (spec/43_process.md R213, R215) -/

namespace Sys2Proof.Machine

/-! ### The cabinet step: histories and counters -/

theorem State.readFrom_frame (s : State) (c : Chan) (i n : Nat) :
    (s.readFrom c i n).2 = { s with draws := (s.readFrom c i n).2.draws } := by
  induction n generalizing s i with
  | zero => rfl
  | succ n ih =>
    simp only [State.readFrom]
    rw [ih, s.memRead_frame c i]

theorem State.writeFrom_frame (s : State) (c : Chan) (i : Nat) (vs : List Word) :
    s.writeFrom c i vs = { s with mem := (s.writeFrom c i vs).mem } := by
  induction vs generalizing s i with
  | nil => rfl
  | cons v vs ih => exact ih (s.memWrite c i v) (i + 1)

/-- The cabinet has no filter history, and samples `CABRDY` once (spec/10_state.md R36). -/
theorem State.cabStep_frame (s : State) (c : Chan) (n : Nat) :
    (s.cabStep c n).hist = s.hist ∧ (s.cabStep c n).rdySamples = s.rdySamples + 1 := by
  unfold State.cabStep
  simp only
  split
  · exact ⟨rfl, rfl⟩
  · rw [State.writeFrom_frame, State.cabProcess, State.readFrom_frame]
    exact ⟨rfl, rfl⟩

/-! ### Histories -/

theorem State.AudioFrame.bypOf_eq {s t : State} (h : s.AudioFrame t) (c : Chan) (st : Stage) :
    t.bypOf c st = s.bypOf c st := by
  rw [h]
  rfl

theorem State.histOf_setHist_otherChan (s : State) {c d : Chan} (hd : d ≠ c) (g f : FiltStage) (h : Hist) :
    (s.setHist c g h).histOf d f = s.histOf d f := by
  rw [State.histOf, State.setHist_hist, PerChan.get_set_other _ _ hd]
  rfl

/-- A stage function touches no history but its own (spec/42_stages.md R180). -/
theorem State.stageSample_histOf (s : State) {c d : Chan} {st : Stage} {f : FiltStage} (x : Word)
    (h : ¬(d = c ∧ st = .filt f)) : (s.stageSample c st x).2.histOf d f = s.histOf d f := by
  cases st with
  | gain | shaper | cab => rfl
  | filt g =>
    by_cases hd : d = c
    · subst hd
      exact s.histOf_setHist_other d (fun hf => h ⟨rfl, congrArg Stage.filt hf.symm⟩) _
    · exact s.histOf_setHist_otherChan hd g f _

theorem State.sampleStep_histOf (s : State) {c d : Chan} {st : Stage} {f : FiltStage} (i : Nat)
    (h : ¬(d = c ∧ st = .filt f)) : (s.sampleStep c st i).histOf d f = s.histOf d f := by
  have hread : (s.memRead c i).2.histOf d f = s.histOf d f := by
    rw [s.memRead_frame c i]
    rfl
  exact (State.stageSample_histOf _ _ h).trans hread

theorem State.sampleLoop_histOf (s : State) {c d : Chan} {st : Stage} {f : FiltStage} (n : Nat)
    (h : ¬(d = c ∧ st = .filt f)) : (s.sampleLoop c st n).histOf d f = s.histOf d f := by
  induction n with
  | zero => rfl
  | succ n ih => exact (State.sampleStep_histOf _ n h).trans ih

/-- Only the running filter of the channel itself writes a history. -/
theorem State.runStage_histOf (s : State) {c d : Chan} {st : Stage} {f : FiltStage} (n : Nat)
    (h : d = c → st = .filt f → s.bypOf c st = true) : (s.runStage c n st).histOf d f = s.histOf d f := by
  by_cases hcab : st = .cab
  · subst hcab
    exact congrArg (fun p => (p.get d).get f) (s.cabStep_frame c n).1
  · rw [s.runStage_of_ne_cab c n hcab]
    split
    · rfl
    · rename_i hon
      exact s.sampleLoop_histOf n fun ⟨hd, hf⟩ => hon (h hd hf)

theorem State.runStages_histOf (s : State) {c d : Chan} {f : FiltStage} (n : Nat) (sts : List Stage)
    (h : d = c → .filt f ∈ sts → s.bypOf c (.filt f) = true) :
    (s.runStages c n sts).histOf d f = s.histOf d f := by
  induction sts generalizing s with
  | nil => rfl
  | cons st sts ih =>
    have hrest := ih (s.runStage c n st) fun hd hf => by
      rw [(s.runStage_audioFrame c n st).bypOf_eq]
      exact h hd (List.mem_cons_of_mem _ hf)
    exact hrest.trans (s.runStage_histOf n fun hd hst => hst ▸ h hd (hst ▸ List.mem_cons_self))

theorem State.runChain_histOf (s : State) {c d : Chan} {f : FiltStage} (n : Nat)
    (h : d = c → s.bypOf c (.filt f) = true) : (s.runChain c n).histOf d f = s.histOf d f := by
  unfold State.runChain
  split
  · rfl
  · exact s.runStages_histOf n chain fun hd _ => h hd

/-! ### The cabinet's port -/

theorem State.runChain_zero (s : State) (c : Chan) : s.runChain c 0 = s := rfl

theorem State.runChain_pos (s : State) (c : Chan) {n : Nat} (h : 0 < n) :
    s.runChain c n = ((s.runStages c n stagesBeforeCab).cabStep c n).runStage c n (.gain .out) := by
  rw [State.runChain, if_neg h.ne', State.runStages_chain]

/-- The output gain, the one stage after the cabinet, does not touch its port. -/
theorem State.outputGain_port (s : State) (c : Chan) (n : Nat) :
    (s.runStage c n (.gain .out)).cabst = s.cabst ∧ (s.runStage c n (.gain .out)).rdySamples = s.rdySamples :=
  s.runStages_port c n [.gain .out] (by decide)

theorem State.runChain_rdySamples (s : State) (c : Chan) {n : Nat} (h : 0 < n) :
    (s.runChain c n).rdySamples = s.rdySamples + 1 := by
  rw [s.runChain_pos c h, (State.outputGain_port _ c n).2, (State.cabStep_frame _ c n).2,
    (s.runStages_port c n _ stagesBeforeCab_ne_cab).2]

/-- The stages before the cabinet leave what its bypass depends on alone. -/
theorem State.beforeCab_cabBypassed (s : State) (c : Chan) (n : Nat) :
    (s.runStages c n stagesBeforeCab).cabBypassed c (Config.cabrdy (s.runStages c n stagesBeforeCab).rdySamples) =
      s.cabBypassed c (Config.cabrdy s.rdySamples) := by
  rw [(s.runStages_port c n _ stagesBeforeCab_ne_cab).2, State.cabBypassed,
    (s.runStages_audioFrame c n stagesBeforeCab).bypOf_eq]
  rfl

/-- A bypassed cabinet is not called (spec/42_stages.md R182). -/
theorem State.runChain_cabst_bypassed (s : State) (c : Chan) (n : Nat)
    (h : s.cabBypassed c (Config.cabrdy s.rdySamples) = true) : (s.runChain c n).cabst = s.cabst := by
  obtain rfl | hn := n.eq_zero_or_pos
  · rfl
  · rw [s.runChain_pos c hn, (State.outputGain_port _ c n).1,
      State.cabStep_bypassed n ((s.beforeCab_cabBypassed c n).trans h)]
    exact (s.runStages_port c n _ stagesBeforeCab_ne_cab).1

theorem State.cabBypassed_of_flag {s : State} {c : Chan} (h : s.bypOf c .cab = true) (rdy : Bool) :
    s.cabBypassed c rdy = true := by
  simp [State.cabBypassed, h]

/-- Settles O30: the frames of the bytes, of the histories, of the cabinet's port and of the other fields. -/
theorem procCompletesWithFrame : Obligations.ProcCompletesWithFrame := by
  intro s c d n hn hd
  refine ⟨s.runChain c n, exec_proc_of_le hn, ?_, fun _ ha => s.runChain_byte_other c n ha, fun f => ?_,
    fun f hbyp => s.runChain_histOf n fun _ => hbyp,
    fun hbyp => s.runChain_cabst_bypassed c n (State.cabBypassed_of_flag hbyp _), s.runChain_audioFrame c n⟩
  · rintro rfl
    exact s.runChain_zero c
  · exact s.runChain_histOf n fun hdc => absurd hdc hd

end Sys2Proof.Machine

/-! ## What `PROC` makes of a written block (spec/43_process.md R213, R214) -/

namespace Sys2Proof.Machine

/-! ### Buffers that hold a list of words -/

/-- The first words of the channel's buffer are written and hold `xs`: `State.Block` with the words listed. -/
def State.Holds (s : State) (c : Chan) (xs : List Word) : Prop := s.Block c xs.length fun i => xs.getD i 0

theorem State.Block.holds {s : State} {c : Chan} {n : Nat} {xs : Nat → Word} (h : s.Block c n xs) :
    s.Holds c ((List.range n).map xs) := by
  intro i hi
  have hin : i < n := by simpa using hi
  rw [h i hin]
  simp [hin]

theorem State.Holds.block {s : State} {c : Chan} {xs : List Word} {n : Nat} (h : s.Holds c xs) (hn : xs.length = n) :
    s.Block c n fun i => xs.getD i 0 := hn ▸ h

theorem State.Holds.word_next {s : State} {c : Chan} {as bs : List Word} {x : Word} (h : s.Holds c (as ++ x :: bs)) :
    s.mem.word c as.length = some x := by
  rw [h as.length (by simp)]
  simp

theorem State.Holds.memWrite_next {s : State} {c : Chan} {as bs : List Word} {x : Word}
    (h : s.Holds c (as ++ x :: bs)) (y : Word) : (s.memWrite c as.length y).Holds c (as ++ y :: bs) := by
  intro i hi
  rw [State.memWrite_mem]
  obtain rfl | hne := eq_or_ne i as.length
  · simp
  · rw [Memory.word_setWord_other_index _ _ _ hne, h i (by simpa using hi)]
    simp only [List.getD_eq_getElem?_getD, List.getElem?_append, List.getElem?_cons]
    split_ifs with hlt h0
    · rfl
    · omega
    · rfl

theorem State.Holds.writeFrom {s : State} {c : Chan} {as bs vs : List Word} (h : s.Holds c (as ++ bs))
    (hlen : bs.length = vs.length) : (s.writeFrom c as.length vs).Holds c (as ++ vs) := by
  induction vs generalizing s as bs with
  | nil =>
    obtain rfl := List.length_eq_zero_iff.mp hlen
    exact h
  | cons v vs ih =>
    obtain ⟨b, bs, rfl⟩ := List.exists_cons_of_length_eq_add_one hlen
    have hnext := h.memWrite_next v
    rw [List.append_cons] at hnext ⊢
    simpa [State.writeFrom] using ih hnext (by simpa using hlen)

/-! ### A stage's sample function over a list -/

/-- A stage's sample function over a list of samples in order: the outputs, and the state with the stage's history
advanced. For a filter stage this is `cellRun` (`State.stageRun_filt`). -/
def State.stageRun (s : State) (c : Chan) (st : Stage) : List Word → List Word × State
  | [] => ([], s)
  | x :: xs =>
    let (y, t) := s.stageSample c st x
    let (ys, u) := t.stageRun c st xs
    (y :: ys, u)

theorem State.stageRun_snoc (s : State) (c : Chan) (st : Stage) (xs : List Word) (x : Word) :
    s.stageRun c st (xs ++ [x]) =
      ((s.stageRun c st xs).1 ++ [((s.stageRun c st xs).2.stageSample c st x).1],
        ((s.stageRun c st xs).2.stageSample c st x).2) := by
  induction xs generalizing s with
  | nil => rfl
  | cons a xs ih => simp only [List.cons_append, State.stageRun, ih]

@[simp] theorem State.stageRun_length (s : State) (c : Chan) (st : Stage) (xs : List Word) :
    (s.stageRun c st xs).1.length = xs.length := by
  induction xs generalizing s with
  | nil => rfl
  | cons x xs ih => exact congrArg (· + 1) (ih _)

theorem State.stageRun_draws (s : State) (c : Chan) (st : Stage) (xs : List Word) :
    (s.stageRun c st xs).2.draws = s.draws := by
  induction xs generalizing s with
  | nil => rfl
  | cons x xs ih => exact (ih _).trans (by cases st <;> rfl)

theorem State.stageRun_gain (s : State) (c : Chan) (g : GainStage) (xs : List Word) :
    (s.stageRun c (.gain g) xs).1 = xs.map fun x => fmul (s.gainOf c g) x := by
  induction xs with
  | nil => rfl
  | cons x xs ih => exact congrArg (_ :: ·) ih

theorem State.stageRun_shaper (s : State) (c : Chan) (xs : List Word) :
    (s.stageRun c .shaper xs).1 = xs.map fun x => shapeOut (s.driveOf c) x := by
  induction xs with
  | nil => rfl
  | cons x xs ih => exact congrArg (_ :: ·) ih

theorem State.histOf_setHist_same (s : State) (c : Chan) (f : FiltStage) (h : Hist) :
    (s.setHist c f h).histOf c f = h := by
  rw [State.histOf, State.setHist_hist, PerChan.get_set_same, PerFilt.get_set_same]

theorem State.stageRun_filt (s : State) (c : Chan) (f : FiltStage) (xs : List Word) :
    (s.stageRun c (.filt f) xs).1 = (cellRun (s.coefOf c f) (s.histOf c f) xs).1 ∧
      (s.stageRun c (.filt f) xs).2.histOf c f = (cellRun (s.coefOf c f) (s.histOf c f) xs).2 := by
  induction xs generalizing s with
  | nil => exact ⟨rfl, rfl⟩
  | cons x xs ih =>
    have hcoef (h : Hist) : (s.setHist c f h).coefOf c f = s.coefOf c f := rfl
    obtain ⟨hout, hhist⟩ := ih (s.stageSample c (.filt f) x).2
    simp only [State.stageSample, hcoef, State.histOf_setHist_same] at hout hhist
    simp only [State.stageRun, State.stageSample, cellRun]
    exact ⟨congrArg (_ :: ·) hout, hhist⟩

/-- What a running stage other than the cabinet makes of a block is its sample function over the list. -/
theorem State.stageBlock_running {s : State} {c : Chan} {st : Stage} (hcab : st ≠ .cab) (hon : s.bypOf c st = false)
    (xs : List Word) : s.stageBlock c xs st = (s.stageRun c st xs).1 := by
  unfold State.stageBlock
  rw [if_neg (ne_true_of_eq_false hon)]
  cases st with
  | gain g => exact (s.stageRun_gain c g xs).symm
  | filt f => exact (s.stageRun_filt c f xs).1.symm
  | shaper => exact (s.stageRun_shaper c xs).symm
  | cab => exact absurd rfl hcab

theorem State.stageBlock_bypassed {s : State} {c : Chan} {st : Stage} (hoff : s.bypOf c st = true) (xs : List Word) :
    s.stageBlock c xs st = xs := if_pos hoff

theorem State.stageBlock_cab (s : State) (c : Chan) (xs : List Word) : s.stageBlock c xs .cab = xs :=
  ite_self _

@[simp] theorem State.stageBlock_length (s : State) (c : Chan) (xs : List Word) (st : Stage) :
    (s.stageBlock c xs st).length = xs.length := by
  obtain rfl | hcab := eq_or_ne st .cab
  · rw [s.stageBlock_cab]
  · cases hbyp : s.bypOf c st
    · rw [State.stageBlock_running hcab hbyp, State.stageRun_length]
    · rw [State.stageBlock_bypassed hbyp]

/-! ### One stage over a written block -/

/-- A stage function sees no buffer, whatever it holds. -/
theorem State.stageSample_withMem (s : State) (c : Chan) (st : Stage) (x : Word) (m : Memory) :
    State.stageSample { s with mem := m } c st x =
      ((s.stageSample c st x).1, { (s.stageSample c st x).2 with mem := m }) := by
  cases st <;> rfl

/-- Taking the samples one by one in place leaves the outputs in the buffer, and the state of the run over the list. -/
theorem State.Holds.sampleLoop {s : State} {c : Chan} {as bs : List Word} (h : s.Holds c (as ++ bs)) (st : Stage) :
    (s.sampleLoop c st as.length).Holds c ((s.stageRun c st as).1 ++ bs) ∧
      s.sampleLoop c st as.length =
        { (s.stageRun c st as).2 with mem := (s.sampleLoop c st as.length).mem } := by
  induction as using List.reverseRecOn generalizing bs with
  | nil => exact ⟨h, rfl⟩
  | append_singleton as x ih =>
    obtain ⟨hheld, hstate⟩ := ih (bs := x :: bs) (by simpa using h)
    have hread := hheld.word_next
    have hwrite := hheld.memWrite_next ((s.stageRun c st as).2.stageSample c st x).1
    rw [State.stageRun_length] at hread hwrite
    have hstep : s.sampleLoop c st (as ++ [x]).length =
        State.memWrite { ((s.stageRun c st as).2.stageSample c st x).2 with mem := (s.sampleLoop c st as.length).mem }
          c as.length ((s.stageRun c st as).2.stageSample c st x).1 := by
      rw [List.length_append, List.length_singleton, State.sampleLoop, State.sampleStep_written st hread, hstate,
        State.stageSample_withMem]
    rw [hstep, State.stageRun_snoc, List.append_assoc]
    exact ⟨hwrite, rfl⟩

theorem State.Holds.runStage {s : State} {c : Chan} {xs : List Word} (h : s.Holds c xs) {st : Stage}
    (hcab : st ≠ .cab) :
    (s.runStage c xs.length st).Holds c (s.stageBlock c xs st) ∧ (s.runStage c xs.length st).draws = s.draws := by
  rw [s.runStage_of_ne_cab c _ hcab]
  cases hbyp : s.bypOf c st with
  | true =>
    rw [if_pos rfl, State.stageBlock_bypassed hbyp]
    exact ⟨h, rfl⟩
  | false =>
    obtain ⟨hheld, hstate⟩ := State.Holds.sampleLoop (as := xs) (bs := []) (by simpa using h) st
    rw [if_neg Bool.false_ne_true, State.stageBlock_running hcab hbyp]
    refine ⟨by simpa using hheld, ?_⟩
    rw [hstate]
    exact s.stageRun_draws c st xs

/-- A running filter is left with the history of its run. -/
theorem State.Holds.runStage_filt {s : State} {c : Chan} {xs : List Word} (h : s.Holds c xs) {f : FiltStage}
    (hon : s.bypOf c (.filt f) = false) :
    (s.runStage c xs.length (.filt f)).histOf c f = (cellRun (s.coefOf c f) (s.histOf c f) xs).2 := by
  obtain ⟨_, hstate⟩ := State.Holds.sampleLoop (as := xs) (bs := []) (by simpa using h) (.filt f)
  rw [s.runStage_of_ne_cab c _ (by simp), hon, if_neg Bool.false_ne_true, hstate]
  exact (s.stageRun_filt c f xs).2

/-! ### What a stage makes of a block depends on its own registers -/

/-- Channel `c` of `s` and channel `d` of `t` hold the same registers and flags. -/
structure State.SameRegs (s : State) (c : Chan) (t : State) (d : Chan) : Prop where
  gain : s.gain.get c = t.gain.get d
  drive : s.drive.get c = t.drive.get d
  coef : s.coef.get c = t.coef.get d
  byp : s.byp.get c = t.byp.get d

theorem State.AudioFrame.sameRegs {s t : State} (h : s.AudioFrame t) (c : Chan) : t.SameRegs c s c := by
  rw [h]
  exact ⟨rfl, rfl, rfl, rfl⟩

theorem State.SameRegs.bypOf_eq {s t : State} {c d : Chan} (h : s.SameRegs c t d) (st : Stage) :
    s.bypOf c st = t.bypOf d st := congrArg (·.get st) h.byp

theorem State.SameRegs.stageBlock_eq {s t : State} {c d : Chan} (h : s.SameRegs c t d) {st : Stage}
    (hhist : ∀ f, st = .filt f → s.histOf c f = t.histOf d f) (xs : List Word) :
    s.stageBlock c xs st = t.stageBlock d xs st := by
  unfold State.stageBlock
  rw [h.bypOf_eq st]
  cases st with
  | gain g => simp only [State.gainOf, h.gain]
  | filt f => simp only [State.coefOf, h.coef, hhist f rfl]
  | shaper => simp only [State.driveOf, h.drive]
  | cab => rfl

/-! ### Stages in a row -/

/-- Stages other than the cabinet, each at most once, leave what they make of the block one after the other. -/
theorem State.Holds.runStages {s : State} {c : Chan} {xs : List Word} {n : Nat} (h : s.Holds c xs) (hn : xs.length = n)
    (sts : List Stage) (hcab : ∀ st ∈ sts, st ≠ .cab) (hnd : sts.Nodup) :
    (s.runStages c n sts).Holds c (sts.foldl (s.stageBlock c) xs) ∧ (s.runStages c n sts).draws = s.draws := by
  induction sts generalizing s xs with
  | nil => exact ⟨h, rfl⟩
  | cons st sts ih =>
    subst hn
    obtain ⟨hst, hrest⟩ := List.forall_mem_cons.mp hcab
    obtain ⟨hnot, hnd⟩ := List.nodup_cons.mp hnd
    obtain ⟨hheld, hdraws⟩ := h.runStage hst
    obtain ⟨hheld', hdraws'⟩ := ih hheld (s.stageBlock_length c xs st) hrest hnd
    have hlater : sts.foldl ((s.runStage c xs.length st).stageBlock c) (s.stageBlock c xs st) =
        sts.foldl (s.stageBlock c) (s.stageBlock c xs st) := by
      refine List.foldl_ext _ _ _ fun ys st' hst' => ?_
      refine ((s.runStage_audioFrame c xs.length st).sameRegs c).stageBlock_eq (fun f hf => ?_) ys
      refine s.runStage_histOf _ fun _ hst => absurd ?_ hnot
      rw [hst, ← hf]
      exact hst'
    rw [hlater] at hheld'
    exact ⟨hheld', hdraws'.trans hdraws⟩

theorem State.blockAfter_length (s : State) (c : Chan) (k : Nat) (xs : List Word) :
    (s.blockAfter c k xs).length = xs.length := by
  unfold State.blockAfter
  induction chain.take k generalizing xs with
  | nil => rfl
  | cons st sts ih => exact (ih _).trans (s.stageBlock_length c xs st)

/-- The chain around a filter stage (spec/10_state.md R21). -/
theorem chain_around (f : FiltStage) :
    chain = chain.take (stagesBefore f) ++ .filt f :: chain.drop (stagesBefore f + 1) := by cases f <;> rfl

theorem filt_not_mem_before (f : FiltStage) : .filt f ∉ chain.take (stagesBefore f) := by cases f <;> decide

theorem filt_not_mem_after (f : FiltStage) : .filt f ∉ chain.drop (stagesBefore f + 1) := by cases f <;> decide

theorem before_filt_ne_cab (f : FiltStage) : ∀ st ∈ chain.take (stagesBefore f), st ≠ .cab := by cases f <;> decide

theorem chain_take_nodup (k : Nat) : (chain.take k).Nodup := List.Nodup.sublist (List.take_sublist k chain) (by decide)

/-- The history `PROC` leaves a filter stage with: that of its run over what the stages before it make of the block,
unless it is bypassed. -/
def State.histAfter (s : State) (c : Chan) (f : FiltStage) (xs : List Word) : Hist :=
  if s.bypOf c (.filt f) then s.histOf c f
  else (cellRun (s.coefOf c f) (s.histOf c f) (s.blockAfter c (stagesBefore f) xs)).2

theorem State.Holds.runStages_histOf {s : State} {c : Chan} {xs : List Word} (h : s.Holds c xs) (f : FiltStage) :
    (s.runStages c xs.length chain).histOf c f = s.histAfter c f xs := by
  unfold State.histAfter
  cases hbyp : s.bypOf c (.filt f) with
  | true => exact s.runStages_histOf _ chain fun _ _ => hbyp
  | false =>
    have hframe := s.runStages_audioFrame c xs.length (chain.take (stagesBefore f))
    have hbefore := s.runStages_histOf (c := c) (d := c) xs.length (chain.take (stagesBefore f))
      fun _ hf => absurd hf (filt_not_mem_before f)
    obtain ⟨hheld, _⟩ := h.runStages rfl _ (before_filt_ne_cab f) (chain_take_nodup _)
    have hrun := hheld.runStage_filt ((hframe.bypOf_eq c (.filt f)).trans hbyp)
    rw [show (List.foldl _ _ _ : List Word).length = xs.length from s.blockAfter_length c (stagesBefore f) xs,
      hbefore, show State.coefOf _ c f = s.coefOf c f from congrArg (·.get f) (hframe.sameRegs c).coef] at hrun
    rw [chain_around f, State.runStages_append, State.runStages, if_neg Bool.false_ne_true]
    exact (State.runStages_histOf _ _ _ fun _ hf => absurd hf (filt_not_mem_after f)).trans hrun

/-! ### The cabinet over a written block (spec/42_stages.md R181, R199) -/

/-- What the cabinet step makes of a block. -/
def State.cabOut (s : State) (c : Chan) (xs : List Word) : List Word :=
  if s.cabBypassed c (Config.cabrdy s.rdySamples) then xs else cabBlock s.cabst c xs

/-- The calls the cabinet step makes to the unit. -/
def State.cabCalls (s : State) (c : Chan) (xs : List Word) : List CabCall :=
  if s.cabBypassed c (Config.cabrdy s.rdySamples) then [] else [.process c xs]

@[simp] theorem State.cabOut_length (s : State) (c : Chan) (xs : List Word) : (s.cabOut c xs).length = xs.length := by
  unfold State.cabOut
  split
  · rfl
  · exact cabBlock_length _ c xs

theorem State.Holds.cabStep {s : State} {c : Chan} {xs : List Word} (h : s.Holds c xs) :
    (s.cabStep c xs.length).Holds c (s.cabOut c xs) ∧
      (s.cabStep c xs.length).cabst = s.cabst ++ s.cabCalls c xs ∧ (s.cabStep c xs.length).draws = s.draws := by
  unfold State.cabOut State.cabCalls
  cases hoff : s.cabBypassed c (Config.cabrdy s.rdySamples) with
  | true =>
    rw [State.cabStep_bypassed _ hoff, if_pos rfl, if_pos rfl, List.append_nil]
    exact ⟨h, rfl, rfl⟩
  | false =>
    have hlist : (List.range xs.length).map (fun i => xs.getD i 0) = xs :=
      List.ext_getElem (by simp) fun i _ hi => by simp [hi]
    rw [State.cabStep_running hoff h, hlist, if_neg Bool.false_ne_true, if_neg Bool.false_ne_true]
    refine ⟨?_, ?_, ?_⟩
    · exact State.Holds.writeFrom (as := []) (bs := xs) h (cabBlock_length _ c xs).symm
    · rw [State.writeFrom_frame]
    · rw [State.writeFrom_frame]

/-! ### The whole chain -/

/-- What `PROC` leaves of a block in the buffer: the stages before the cabinet, the cabinet, the output gain. -/
def State.procBlock (s : State) (c : Chan) (xs : List Word) : List Word :=
  s.stageBlock c (s.cabOut c (s.blockAfter c 7 xs)) (.gain .out)

/-- The calls `PROC` makes to the cabinet unit: none for an empty block (spec/43_process.md R215). -/
def State.procCalls (s : State) (c : Chan) (xs : List Word) : List CabCall :=
  if xs = [] then [] else s.cabCalls c (s.blockAfter c 7 xs)

@[simp] theorem State.procBlock_length (s : State) (c : Chan) (xs : List Word) :
    (s.procBlock c xs).length = xs.length := by
  rw [State.procBlock, State.stageBlock_length, State.cabOut_length, State.blockAfter_length]

/-- What `PROC` over the written block `xs` leaves in the buffer, in the histories of its channel, at the cabinet's port
and in the counter of free words. -/
structure State.ProcLeaves (s : State) (c : Chan) (xs : List Word) (t : State) : Prop where
  block : t.Holds c (s.procBlock c xs)
  hist : ∀ f, t.histOf c f = s.histAfter c f xs
  calls : t.cabst = s.cabst ++ s.procCalls c xs
  draws : t.draws = s.draws

theorem State.procLeaves_nil (s : State) (c : Chan) : s.ProcLeaves c [] s where
  block := by
    rw [List.length_eq_zero_iff.mp (s.procBlock_length c [])]
    nofun
  hist f := by
    have hnone : s.blockAfter c (stagesBefore f) [] = [] := List.length_eq_zero_iff.mp (s.blockAfter_length c _ [])
    rw [State.histAfter, hnone]
    exact (ite_self _).symm
  calls := (List.append_nil _).symm
  draws := rfl

/-- `PROC` over a written block, from the stages before the cabinet, the cabinet step and the output gain. -/
theorem State.Holds.runChain {s : State} {c : Chan} {xs : List Word} (h : s.Holds c xs) :
    s.ProcLeaves c xs (s.runChain c xs.length) := by
  obtain rfl | hne := eq_or_ne xs []
  · exact s.procLeaves_nil c
  have hpos : 0 < xs.length := List.length_pos_iff.mpr hne
  have hlen : (s.blockAfter c 7 xs).length = xs.length := s.blockAfter_length c 7 xs
  have hport := s.runStages_port c xs.length _ stagesBeforeCab_ne_cab
  have hoff := s.beforeCab_cabBypassed c xs.length
  obtain ⟨before, drawsBefore⟩ := h.runStages rfl stagesBeforeCab stagesBeforeCab_ne_cab (by decide)
  obtain ⟨cab, calls, drawsCab⟩ := State.Holds.cabStep (xs := s.blockAfter c 7 xs) before
  obtain ⟨out, drawsOut⟩ := cab.runStage (st := .gain .out) (by decide)
  rw [hlen] at calls drawsCab
  rw [State.cabOut_length, hlen] at out drawsOut
  have hsame : State.SameRegs _ c s c :=
    ((s.runStages_audioFrame c xs.length stagesBeforeCab).trans (State.cabStep_audioFrame _ c xs.length)).sameRegs c
  refine ⟨?_, fun f => ?_, ?_, ?_⟩
  · rw [s.runChain_pos c hpos, State.procBlock]
    rw [hsame.stageBlock_eq (fun f hf => absurd hf (by simp)), State.cabOut, hoff, hport.1] at out
    exact out
  · rw [State.runChain, if_neg hpos.ne']
    exact h.runStages_histOf f
  · rw [s.runChain_pos c hpos, (State.outputGain_port _ c _).1, calls, hport.1, State.procCalls, if_neg hne,
      State.cabCalls, hoff, State.cabCalls]
  · rw [s.runChain_pos c hpos, drawsOut, drawsCab, drawsBefore]

/-- Settles O31: the block, the histories and the calls of `State.ProcLeaves`; the rest is how the model writes the chain
and the cell. -/
theorem procAppliesTheChain : Obligations.ProcAppliesTheChain := by
  refine ⟨fun s c xs hpos hn hb => ?_, rfl, fun _ _ _ => rfl, fun _ _ _ => rfl⟩
  have hleaves := State.Holds.runChain (s := s) (c := c) (xs := xs) hb
  have hlen : (s.blockAfter c 7 xs).length = xs.length := s.blockAfter_length c 7 xs
  have hne : xs ≠ [] := List.length_pos_iff.mp hpos
  refine ⟨_, exec_proc_of_le hn, ?_, fun f hon => ?_, ?_, s.runChain_rdySamples c hpos, hleaves.draws⟩
  · have hblock := hleaves.block.block (s.procBlock_length c xs)
    rw [State.procBlock, State.cabOut, cabBlock, hlen] at hblock
    exact hblock
  · rw [hleaves.hist f, State.histAfter, if_neg (ne_true_of_eq_false hon)]
  · rw [hleaves.calls, State.procCalls, if_neg hne, State.cabCalls]
    split
    · exact List.append_nil _
    · rfl

end Sys2Proof.Machine

/-! ## Splitting a block (spec/43_process.md R216) -/

namespace Sys2Proof.Machine

/-! ### Blocks as lists -/

/-- The samples `xs 0`, ..., `xs (n-1)` of a block as a list. -/
def samples (n : Nat) (xs : Nat → Word) : List Word := (List.range n).map xs

@[simp] theorem samples_length (n : Nat) (xs : Nat → Word) : (samples n xs).length = n := by simp [samples]

theorem samples_add (k m : Nat) (xs : Nat → Word) :
    samples (k + m) xs = samples k xs ++ samples m fun i => xs (k + i) := by
  simp [samples, List.range_add, Function.comp_def]

/-- `State.Holds.runChain` for a block that is given as `State.Block` gives it. -/
theorem State.Block.runChain {s : State} {c : Chan} {n : Nat} {xs : Nat → Word} (h : s.Block c n xs) :
    s.ProcLeaves c (samples n xs) (s.runChain c n) := by
  have hleaves := State.Holds.runChain (xs := samples n xs) h.holds
  rwa [samples_length] at hleaves

/-! ### The chain stage by stage -/

theorem State.blockAfter_succ (s : State) (c : Chan) {k : Nat} {st : Stage} (h : chain[k]? = some st) (xs : List Word) :
    s.blockAfter c (k + 1) xs = s.stageBlock c (s.blockAfter c k xs) st := by
  simp [State.blockAfter, List.take_add_one, h]

/-- The stage that comes after `k` others, if it is a filter (spec/10_state.md R21). -/
theorem stagesBefore_of_chain {k : Nat} {f : FiltStage} (h : chain[k]? = some (.filt f)) : stagesBefore f = k := by
  obtain ⟨hk, _⟩ := List.getElem?_eq_some_iff.mp h
  have hk9 : k < 9 := hk
  interval_cases k <;> cases h <;> rfl

/-- There are nine stages. -/
theorem chain_getElem {k : Nat} (hk : k < 9) : ∃ st, chain[k]? = some st :=
  ⟨_, List.getElem?_eq_getElem (l := chain) hk⟩

/-! ### One stage over two blocks in a row -/

theorem cellRun_append (k : Coeffs) (h : Hist) (xs ys : List Word) :
    cellRun k h (xs ++ ys) =
      ((cellRun k h xs).1 ++ (cellRun k (cellRun k h xs).2 ys).1, (cellRun k (cellRun k h xs).2 ys).2) := by
  induction xs generalizing h with
  | nil => rfl
  | cons x xs ih => simp only [List.cons_append, cellRun, ih]

theorem State.stageBlock_filt {s : State} {c : Chan} {f : FiltStage} (hon : s.bypOf c (.filt f) = false)
    (xs : List Word) : s.stageBlock c xs (.filt f) = (cellRun (s.coefOf c f) (s.histOf c f) xs).1 :=
  if_neg (ne_true_of_eq_false hon)

theorem State.SameRegs.coefOf_eq {s t : State} {c d : Chan} (h : s.SameRegs c t d) (f : FiltStage) :
    s.coefOf c f = t.coefOf d f := congrArg (·.get f) h.coef

/-- A stage over two blocks in a row, where `t` holds the history that the first block leaves. -/
theorem State.SameRegs.stageBlock_append {s t : State} {c : Chan} (h : t.SameRegs c s c) {st : Stage} {xs : List Word}
    (hhist : ∀ f, st = .filt f → s.bypOf c st = false →
      t.histOf c f = (cellRun (s.coefOf c f) (s.histOf c f) xs).2) (ys : List Word) :
    s.stageBlock c (xs ++ ys) st = s.stageBlock c xs st ++ t.stageBlock c ys st := by
  cases hbyp : s.bypOf c st with
  | true => simp only [State.stageBlock_bypassed hbyp, State.stageBlock_bypassed ((h.bypOf_eq st).trans hbyp)]
  | false =>
    cases st with
    | filt f =>
      rw [State.stageBlock_filt hbyp, State.stageBlock_filt hbyp, State.stageBlock_filt ((h.bypOf_eq _).trans hbyp),
        hhist f rfl hbyp, h.coefOf_eq, cellRun_append]
    | gain g =>
      rw [h.stageBlock_eq (st := .gain g) nofun]
      simp [State.stageBlock, hbyp]
    | shaper =>
      rw [h.stageBlock_eq (st := .shaper) nofun]
      simp [State.stageBlock, hbyp]
    | cab => simp only [State.stageBlock_cab]

/-! ### The stages in a row over two blocks in a row -/

section TwoBlocks

variable {s t : State} {c : Chan} {as : List Word}

theorem State.SameRegs.blockAfter_append (h : t.SameRegs c s c) (hhist : ∀ f, t.histOf c f = s.histAfter c f as)
    (bs : List Word) {k : Nat} (hk : k ≤ 9) :
    s.blockAfter c k (as ++ bs) = s.blockAfter c k as ++ t.blockAfter c k bs := by
  induction k with
  | zero => rfl
  | succ k ih =>
    obtain ⟨st, hst⟩ := chain_getElem (k := k) (by omega)
    rw [s.blockAfter_succ c hst, s.blockAfter_succ c hst, t.blockAfter_succ c hst, ih (by omega)]
    refine h.stageBlock_append (fun f hf hon => ?_) _
    subst hf
    rw [hhist f, State.histAfter, if_neg (ne_true_of_eq_false hon), stagesBefore_of_chain hst]

theorem State.SameRegs.histAfter_append (h : t.SameRegs c s c) (hhist : ∀ f, t.histOf c f = s.histAfter c f as)
    (bs : List Word) (f : FiltStage) : t.histAfter c f bs = s.histAfter c f (as ++ bs) := by
  have hk : stagesBefore f ≤ 9 := by cases f <;> decide
  have hf := hhist f
  unfold State.histAfter at hf ⊢
  rw [h.bypOf_eq, h.coefOf_eq, hf, h.blockAfter_append hhist bs hk, cellRun_append]
  cases s.bypOf c (.filt f) <;> rfl

/-- A unit that splits blocks gives the second piece after the call with the first. -/
theorem cabBlock_append (hs : CabSplits Config.cabWord) (calls : List CabCall) (c : Chan) (xs ys : List Word) :
    cabBlock calls c (xs ++ ys) = cabBlock calls c xs ++ cabBlock (calls ++ [.process c xs]) c ys := by
  unfold cabBlock
  rw [List.length_append, List.range_add, List.map_append, List.map_map]
  congr 1
  · refine List.map_congr_left fun i hi => ?_
    rw [hs, if_pos (List.mem_range.mp hi)]
  · refine List.map_congr_left fun i _ => ?_
    rw [Function.comp_apply, hs, if_neg (by omega), Nat.add_sub_cancel_left]

theorem State.cabOut_append (hoff : t.cabBypassed c (Config.cabrdy t.rdySamples) =
      s.cabBypassed c (Config.cabrdy s.rdySamples))
    (hcab : s.cabBypassed c (Config.cabrdy s.rdySamples) = true ∨
      CabSplits Config.cabWord ∧ t.cabst = s.cabst ++ if as = [] then [] else s.cabCalls c as)
    (bs : List Word) : s.cabOut c (as ++ bs) = s.cabOut c as ++ t.cabOut c bs := by
  unfold State.cabOut State.cabCalls at *
  rw [hoff]
  cases hrun : s.cabBypassed c (Config.cabrdy s.rdySamples) with
  | true => rfl
  | false =>
    obtain ⟨hs, hcalls⟩ := hcab.resolve_left (ne_true_of_eq_false hrun)
    rw [hrun] at hcalls
    rw [hcalls]
    obtain rfl | hne := eq_or_ne as []
    · simp [cabBlock]
    · simp only [Bool.false_eq_true, if_false, if_neg hne]
      exact cabBlock_append hs s.cabst c as bs

theorem State.SameRegs.procBlock_append (h : t.SameRegs c s c) (hhist : ∀ f, t.histOf c f = s.histAfter c f as)
    (hoff : t.cabBypassed c (Config.cabrdy t.rdySamples) = s.cabBypassed c (Config.cabrdy s.rdySamples))
    (hcab : s.cabBypassed c (Config.cabrdy s.rdySamples) = true ∨
      CabSplits Config.cabWord ∧ t.cabst = s.cabst ++ s.procCalls c as) (bs : List Word) :
    s.procBlock c (as ++ bs) = s.procBlock c as ++ t.procBlock c bs := by
  have hempty : s.blockAfter c 7 as = [] ↔ as = [] := by
    rw [← List.length_eq_zero_iff, s.blockAfter_length, List.length_eq_zero_iff]
  unfold State.procCalls at hcab
  simp only [← hempty] at hcab
  rw [State.procBlock, h.blockAfter_append hhist bs (by decide), State.cabOut_append hoff hcab]
  exact h.stageBlock_append (st := .gain .out) nofun _

end TwoBlocks

/-- `PROC` over two blocks in a row, against `PROC` over the second one from a state that has the registers of the first
state, and the histories and, for a running cabinet, the calls of the state `t` that the first block leaves. -/
theorem State.ProcLeaves.append {s s' t t' u : State} {c : Chan} {as bs : List Word}
    (whole : s.ProcLeaves c (as ++ bs) u) (first : s.ProcLeaves c as t) (second : s'.ProcLeaves c bs t')
    (hregs : s'.SameRegs c s c) (hhist : s'.hist = t.hist)
    (hoff : s'.cabBypassed c (Config.cabrdy s'.rdySamples) = s.cabBypassed c (Config.cabrdy s.rdySamples))
    (hcab : s.cabBypassed c (Config.cabrdy s.rdySamples) = true ∨ CabSplits Config.cabWord ∧ s'.cabst = t.cabst) :
    s.procBlock c (as ++ bs) = s.procBlock c as ++ s'.procBlock c bs ∧ ∀ f, t'.histOf c f = u.histOf c f := by
  have hstart (f : FiltStage) : s'.histOf c f = s.histAfter c f as := by
    rw [State.histOf, hhist]
    exact first.hist f
  rw [first.calls] at hcab
  exact ⟨hregs.procBlock_append hstart hoff hcab bs,
    fun f => (second.hist f).trans ((hregs.histAfter_append hstart bs f).trans (whole.hist f).symm)⟩

theorem State.Holds.block_append_left {s : State} {c : Chan} {as : List Word} {n : Nat} (h : s.Holds c as)
    (hn : as.length = n) (bs : List Word) : s.Block c n fun i => (as ++ bs).getD i 0 := fun i hi =>
  (h.block hn i hi).trans (congrArg some (List.getD_append as bs 0 i (hn ▸ hi)).symm)

theorem State.Holds.block_append_right {s : State} {c : Chan} {as bs : List Word} {k n : Nat} (h : s.Holds c bs)
    (hk : as.length = k) (hn : bs.length = n) : s.Block c n fun i => (as ++ bs).getD (k + i) 0 := by
  intro i hi
  have hright : (as ++ bs).getD (k + i) 0 = bs.getD i 0 := by
    rw [List.getD_append_right _ _ _ _ (by omega), hk, Nat.add_sub_cancel_left]
  exact (h.block hn i hi).trans (congrArg some hright.symm)

/-- Settles O37: the second piece starts from the histories and the calls that the first one leaves. -/
theorem splittingABlockChangesNothing : Obligations.SplittingABlockChangesNothing := by
  intro s s2 c k m xs hkm hm hb off hcab
  have whole := hb.runChain
  have first := State.Block.runChain (n := k) fun i hi => hb i (by omega)
  rw [samples_add] at whole
  refine ⟨_, _, exec_proc_of_le hkm, exec_proc_of_le (by omega),
    fun hb2 hgain hdrive hcoef hbyp hhist hoff hcalls => ?_⟩
  have second := hb2.runChain
  have hregs : s2.SameRegs c s c := ⟨by rw [hgain], by rw [hdrive], by rw [hcoef], by rw [hbyp]⟩
  have hrun : off = true ∨ CabSplits Config.cabWord ∧ s2.cabst = (s.runChain c k).cabst := by
    cases hrun : off with
    | true => exact .inl rfl
    | false => exact .inr ⟨hcab.resolve_left (by simp [hrun]), hcalls.resolve_left (by simp [hrun])⟩
  obtain ⟨hblock, hhistc⟩ := whole.append first second hregs hhist hoff hrun
  have hall := whole.block
  rw [hblock] at hall
  refine ⟨_, _, exec_proc_of_le hm, hall.block (by simp), first.block.block_append_left (by simp) _,
    second.block.block_append_right (by simp) (by simp), PerChan.ext_get fun d => PerFilt.ext_get fun f => ?_⟩
  obtain rfl | hd := eq_or_ne d c
  · exact hhistc f
  · have hother (u : State) (n : Nat) : ((u.runChain c n).hist.get d).get f = (u.hist.get d).get f :=
      u.runChain_histOf n fun hdc => absurd hdc hd
    rw [hother, hhist, hother, hother]

end Sys2Proof.Machine

/-! ## Silence (spec/43_process.md R219) -/

namespace Sys2Proof.Machine

/-! ### Zeros through the operations (spec/40_numerics.md R144) -/

theorem isZero_fadd {a b : Word} (ha : isZero a = true) (hb : isZero b = true) : isZero (fadd a b) = true := by
  rw [fadd_zero (isFinite_classes (isFinite_of_isZero ha)).1 hb]
  split
  · rfl
  · exact ha

theorem isZero_fsub {a b : Word} (ha : isZero a = true) (hb : isZero b = true) : isZero (fsub a b) = true := by
  rw [fsub_eq (isFinite_classes (isFinite_of_isZero hb)).1]
  exact isZero_fadd ha (by rw [isZero_fneg, hb])

theorem isZero_fmul_right {a b : Word} (ha : isFinite a = true) (hb : isZero b = true) : isZero (fmul a b) = true :=
  isZero_fmul ha (isFinite_of_isZero hb) (.inr hb)

theorem isZero_fdiv {a b : Word} (ha : isZero a = true) (hb : isFinite b = true) (hzb : isZero b = false) :
    isZero (fdiv a b) = true := by
  rw [fdiv_finite (isFinite_of_isZero ha) hb hzb, funits_eq_zero_iff.mpr ha, Nat.zero_mul, roundMag_zero (funits_pos hzb),
    isZero_iff, fmag_fpack _ (by decide)]

/-! ### Zeros through the stages -/

/-- All words of the list are zeros, of either sign. -/
def Silent (xs : List Word) : Prop := ∀ w ∈ xs, isZero w = true

theorem Silent.map {xs : List Word} (h : Silent xs) {f : Word → Word} (hf : ∀ x, isZero x = true → isZero (f x) = true) :
    Silent (xs.map f) := by
  intro w hw
  obtain ⟨x, hx, rfl⟩ := List.mem_map.mp hw
  exact hf x (h x hx)

theorem isZero_shapeOut {d x : Word} (hd : isFinite d = true) (hx : isZero x = true) : isZero (shapeOut d x) = true := by
  have hu := isZero_fmul_right hd hx
  rw [shapeOut_eq, shaperTerm, atan32_shape.apply_zero hu]
  exact isZero_fadd (isZero_fmul_right (by decide) hu) hx

theorem isZero_cellOut {k : Coeffs} {h : Hist} {x : Word} (hk : ProperCoeffs k) (hh : Silent h.words)
    (hx : isZero x = true) : isZero (cellOut k h x) = true := by
  obtain ⟨hfin, ha0⟩ := hk
  simp only [Silent, Hist.words, List.forall_mem_cons] at hh
  simp only [Coeffs.words, List.forall_mem_cons] at hfin
  obtain ⟨hx1, hx2, hx3, hy1, hy2, hy3, _⟩ := hh
  obtain ⟨b0, b1, b2, b3, a0, a1, a2, a3, _⟩ := hfin
  have forward := isZero_fadd (isZero_fadd (isZero_fadd (isZero_fmul_right b0 hx) (isZero_fmul_right b1 hx1))
    (isZero_fmul_right b2 hx2)) (isZero_fmul_right b3 hx3)
  have acc := isZero_fsub (isZero_fsub (isZero_fsub forward (isZero_fmul_right a1 hy1)) (isZero_fmul_right a2 hy2))
    (isZero_fmul_right a3 hy3)
  exact isZero_fdiv acc a0 ha0

theorem Silent.shift {h : Hist} (hh : Silent h.words) {x y : Word} (hx : isZero x = true) (hy : isZero y = true) :
    Silent (h.shift x y).words := by
  simp only [Silent, Hist.words, Hist.shift, List.forall_mem_cons] at hh ⊢
  obtain ⟨hx1, hx2, _, hy1, hy2, _, hnil⟩ := hh
  exact ⟨hx, hx1, hx2, hy, hy1, hy2, hnil⟩

theorem cellRun_silent {k : Coeffs} {h : Hist} {xs : List Word} (hk : ProperCoeffs k) (hh : Silent h.words)
    (hx : Silent xs) : Silent (cellRun k h xs).1 ∧ Silent (cellRun k h xs).2.words := by
  induction xs generalizing h with
  | nil => exact ⟨hx, hh⟩
  | cons x xs ih =>
    obtain ⟨hx, hxs⟩ := List.forall_mem_cons.mp hx
    have hy := isZero_cellOut hk hh hx
    obtain ⟨hout, hhist⟩ := ih (hh.shift hx hy) hxs
    exact ⟨List.forall_mem_cons.mpr ⟨hy, hout⟩, hhist⟩

/-- The channel's running stages have finite values, and the running filters proper coefficients and histories of
zeros. -/
structure State.Quiet (s : State) (c : Chan) : Prop where
  filt : ∀ f, s.bypOf c (.filt f) = false → ProperCoeffs (s.coefOf c f) ∧ Silent (s.histOf c f).words
  gain : ∀ g, s.bypOf c (.gain g) = false → isFinite (s.gainOf c g) = true
  drive : s.bypOf c .shaper = false → isFinite (s.driveOf c) = true

section Silence

variable {s : State} {c : Chan} {xs : List Word}

theorem State.Quiet.stageBlock (h : s.Quiet c) (hx : Silent xs) (st : Stage) : Silent (s.stageBlock c xs st) := by
  cases hbyp : s.bypOf c st with
  | true => exact (State.stageBlock_bypassed hbyp xs).symm ▸ hx
  | false =>
    cases st with
    | gain g =>
      rw [State.stageBlock_running (by simp) hbyp, State.stageRun_gain]
      exact hx.map fun _ => isZero_fmul_right (h.gain g hbyp)
    | filt f =>
      obtain ⟨hk, hh⟩ := h.filt f hbyp
      rw [State.stageBlock_filt hbyp]
      exact (cellRun_silent hk hh hx).1
    | shaper =>
      rw [State.stageBlock_running (by simp) hbyp, State.stageRun_shaper]
      exact hx.map fun _ => isZero_shapeOut (h.drive hbyp)
    | cab => exact (s.stageBlock_cab c xs).symm ▸ hx

theorem State.Quiet.blockAfter (h : s.Quiet c) (hx : Silent xs) (k : Nat) : Silent (s.blockAfter c k xs) := by
  unfold State.blockAfter
  induction chain.take k generalizing xs with
  | nil => exact hx
  | cons st sts ih => exact ih (h.stageBlock hx st)

/-- `cab_silent`: the unit has heard only zeros since its reset. -/
theorem State.cabOut_silent (hcab : s.cabBypassed c (Config.cabrdy s.rdySamples) = true ∨
      (CabSilent Config.cabWord ∧ ∀ b ∈ blocksSinceReset c s.cabst.reverse, Silent b)) (hx : Silent xs) :
    Silent (s.cabOut c xs) := by
  unfold State.cabOut
  split
  · exact hx
  · rename_i hon
    obtain ⟨hsilent, hpast⟩ := hcab.resolve_left hon
    intro w hw
    obtain ⟨i, hi, rfl⟩ := List.mem_map.mp hw
    exact hsilent s.cabst c xs i (List.forall_mem_cons.mpr ⟨hx, hpast⟩) (List.mem_range.mp hi)

theorem State.Quiet.histAfter (h : s.Quiet c) (hx : Silent xs) {f : FiltStage} (hon : s.bypOf c (.filt f) = false) :
    Silent (s.histAfter c f xs).words := by
  obtain ⟨hk, hh⟩ := h.filt f hon
  rw [State.histAfter, if_neg (ne_true_of_eq_false hon)]
  exact (cellRun_silent hk hh (h.blockAfter hx _)).2

end Silence

/-- Settles O38: every stage and the cabinet keep a block of zeros. -/
theorem silentBlockStaysSilent : Obligations.SilentBlockStaysSilent := by
  intro s c n xs hn hb hzero hcab hfilt hgain hdrive
  have hquiet : s.Quiet c := ⟨hfilt, hgain, hdrive⟩
  have hx : Silent (samples n xs) := by
    intro w hw
    obtain ⟨i, hi, rfl⟩ := List.mem_map.mp hw
    exact hzero i (List.mem_range.mp hi)
  have hout : Silent (s.procBlock c (samples n xs)) :=
    hquiet.stageBlock (State.cabOut_silent hcab (hquiet.blockAfter hx 7)) _
  have hleaves := hb.runChain
  refine ⟨_, _, exec_proc_of_le hn, hleaves.block.block (by simp), fun i hi => ?_, fun f hon => ?_⟩
  · have hlt : i < (s.procBlock c (samples n xs)).length := by simpa using hi
    rw [List.getD_eq_getElem _ _ hlt]
    exact hout _ (List.getElem_mem hlt)
  · rw [hleaves.hist f]
    exact hquiet.histAfter hx hon

end Sys2Proof.Machine

/-! ## The two channels (spec/43_process.md R217) -/

namespace Sys2Proof.Machine

/-! ### The same words are the same bytes -/

theorem byteOfWord_wordOfBytes (b0 b1 b2 b3 : Byte) :
    byteOfWord (wordOfBytes b0 b1 b2 b3) 0 = b0 ∧ byteOfWord (wordOfBytes b0 b1 b2 b3) 1 = b1 ∧
      byteOfWord (wordOfBytes b0 b1 b2 b3) 2 = b2 ∧ byteOfWord (wordOfBytes b0 b1 b2 b3) 3 = b3 := by
  unfold byteOfWord wordOfBytes
  grind

/-- The four bytes of a written word. -/
theorem Memory.byte_of_word {m : Memory} {c : Chan} {i : Nat} {v : Word} (h : m.word c i = some v) {k : Nat}
    (hk : k < 4) : m.byte (wordAddr c i + k) = some (byteOfWord v k) := by
  unfold Memory.word at h
  split at h
  · rename_i b0 b1 b2 b3 h0 h1 h2 h3
    obtain rfl := Option.some.inj h
    obtain ⟨e0, e1, e2, e3⟩ := byteOfWord_wordOfBytes b0 b1 b2 b3
    interval_cases k
    · rw [e0]; exact h0
    · rw [e1]; exact h1
    · rw [e2]; exact h2
    · rw [e3]; exact h3
  · cases h

theorem State.Holds.byte_eq {s t : State} {c : Chan} {xs : List Word} (hs : s.Holds c xs) (ht : t.Holds c xs) {a : Nat}
    (lo : wordAddr c 0 ≤ a) (hi : a < wordAddr c xs.length) : s.mem.byte a = t.mem.byte a := by
  obtain ⟨i, k, hk, hlt, rfl⟩ : ∃ i k, k < 4 ∧ i < xs.length ∧ a = wordAddr c i + k := by
    refine ⟨(a - wordAddr c 0) / 4, a % 4, ?_⟩
    simp only [wordAddr] at *
    omega
  rw [Memory.byte_of_word (hs i hlt) hk, Memory.byte_of_word (ht i hlt) hk]

/-! ### One channel's `PROC` as the other channel sees it -/

theorem chanNum_of_ne {c d : Chan} (h : d ≠ c) : chanNum d = 0 ∧ chanNum c = 1 ∨ chanNum d = 1 ∧ chanNum c = 0 := by
  cases c <;> cases d <;> simp_all [chanNum]

/-- The two buffers of at most 65536 words lie apart (spec/20_memory.md R60). -/
theorem State.Holds.runChain_other {s : State} {c d : Chan} {n : Nat} {ys : List Word} (h : s.Holds d ys) (hd : d ≠ c)
    (hn : n ≤ 65536) (hlen : ys.length ≤ 65536) : (s.runChain c n).Holds d ys := by
  intro i hi
  rw [← h i hi]
  refine Memory.word_congr fun k hk => s.runChain_byte_other c n ?_
  obtain ⟨hdn, hcn⟩ | ⟨hdn, hcn⟩ := chanNum_of_ne hd
  · simp only [wordAddr, hdn, hcn]
    omega
  · simp only [wordAddr, hdn, hcn]
    omega

theorem State.runChain_rdySamples_min (s : State) (c : Chan) (n : Nat) :
    (s.runChain c n).rdySamples = s.rdySamples + min n 1 := by
  obtain rfl | hn := n.eq_zero_or_pos
  · rfl
  · rw [s.runChain_rdySamples c hn, Nat.min_eq_right hn]

theorem State.procCalls_bypassed {s : State} {c : Chan} (h : s.cabBypassed c (Config.cabrdy s.rdySamples) = true)
    (xs : List Word) : s.procCalls c xs = [] := by
  rw [State.procCalls, State.cabCalls, if_pos h]
  exact ite_self _

/-- The calls of one channel's `PROC` concern that channel only. -/
theorem State.procCalls_concerns (s : State) (c e : Chan) (xs : List Word) :
    (s.procCalls c xs).filter (CabCall.concerns e) = if c = e then s.procCalls c xs else [] := by
  unfold State.procCalls State.cabCalls
  split_ifs <;> simp_all [CabCall.concerns]

/-! ### What `PROC` leaves depends on the channel -/

section Congruence

variable {s t : State} {c d : Chan}

theorem State.SameRegs.blockAfter_eq (h : t.SameRegs d s c) (hhist : ∀ f, t.histOf d f = s.histOf c f) (k : Nat)
    (xs : List Word) : t.blockAfter d k xs = s.blockAfter c k xs :=
  List.foldl_ext _ _ _ fun ys _ _ => h.stageBlock_eq (fun f _ => hhist f) ys

theorem State.SameRegs.histAfter_eq (h : t.SameRegs d s c) (hhist : ∀ f, t.histOf d f = s.histOf c f) (f : FiltStage)
    (xs : List Word) : t.histAfter d f xs = s.histAfter c f xs := by
  unfold State.histAfter
  rw [h.bypOf_eq, h.coefOf_eq, hhist f, h.blockAfter_eq hhist]

theorem State.SameRegs.procBlock_eq (h : t.SameRegs d s c) (hhist : ∀ f, t.histOf d f = s.histOf c f)
    (hcab : ∀ ys, t.cabOut d ys = s.cabOut c ys) (xs : List Word) : t.procBlock d xs = s.procBlock c xs := by
  unfold State.procBlock
  rw [h.blockAfter_eq hhist, hcab]
  exact h.stageBlock_eq (st := .gain .out) nofun _

end Congruence

/-! ### Both channels, one after the other -/

/-- What the two commands leave together: each channel what `PROC` makes of it from `s`, and the calls in the order of
the commands. -/
structure State.BothLeave (s : State) (c : Chan) (xs : List Word) (d : Chan) (ys : List Word) (u : State) : Prop where
  first : u.Holds c (s.procBlock c xs)
  second : u.Holds d (s.procBlock d ys)
  histFirst : ∀ f, u.histOf c f = s.histAfter c f xs
  histSecond : ∀ f, u.histOf d f = s.histAfter d f ys
  bytes : ∀ a, a < wordAddr c 0 ∨ wordAddr c xs.length ≤ a → a < wordAddr d 0 ∨ wordAddr d ys.length ≤ a →
    u.mem.byte a = s.mem.byte a
  calls : u.cabst = s.cabst ++ s.procCalls c xs ++ s.procCalls d ys
  draws : u.draws = s.draws
  rdySamples : u.rdySamples = s.rdySamples + min xs.length 1 + min ys.length 1
  frame : s.AudioFrame u

section BothChannels

variable {s : State} {c d : Chan} {xs ys : List Word}

/-- The cabinet step of channel `d` does the same after `PROC` of channel `c` as before it. -/
theorem State.ProcLeaves.cabOut_other {t : State} (h : s.ProcLeaves c xs t) (hframe : s.AudioFrame t) (hd : d ≠ c)
    (hoff : s.cabBypassed d (Config.cabrdy t.rdySamples) = s.cabBypassed d (Config.cabrdy s.rdySamples))
    (hcab : s.cabBypassed c (Config.cabrdy s.rdySamples) = true ∨
      s.cabBypassed d (Config.cabrdy s.rdySamples) = true ∨ CabChan Config.cabWord) (zs : List Word) :
    t.cabOut d zs = s.cabOut d zs ∧ t.cabCalls d zs = s.cabCalls d zs := by
  have hoff' : t.cabBypassed d (Config.cabrdy t.rdySamples) = s.cabBypassed d (Config.cabrdy s.rdySamples) := by
    rw [← hoff, State.cabBypassed, hframe.bypOf_eq]
    rfl
  unfold State.cabOut State.cabCalls
  rw [hoff']
  refine ⟨?_, rfl⟩
  split
  · rfl
  · rename_i hon
    obtain hc | hchan := hcab.imp_right (Or.resolve_left · hon)
    · rw [h.calls, State.procCalls_bypassed hc, List.append_nil]
    · refine cabBlock_eq_of_concerns hchan ?_ zs
      rw [h.calls, List.filter_append, s.procCalls_concerns, if_neg hd.symm, List.append_nil]

theorem State.Holds.runBoth (hx : s.Holds c xs) (hy : s.Holds d ys) (hd : d ≠ c) (hxlen : xs.length ≤ 65536)
    (hylen : ys.length ≤ 65536)
    (hoff : s.cabBypassed d (Config.cabrdy s.rdySamples) = s.cabBypassed d (Config.cabrdy (s.rdySamples + 1)))
    (hcab : s.cabBypassed c (Config.cabrdy s.rdySamples) = true ∨
      s.cabBypassed d (Config.cabrdy s.rdySamples) = true ∨ CabChan Config.cabWord) :
    s.BothLeave c xs d ys ((s.runChain c xs.length).runChain d ys.length) := by
  have hframe := s.runChain_audioFrame c xs.length
  have hfirst := hx.runChain
  have hsecond := (hy.runChain_other hd hxlen hylen).runChain
  have hregs := hframe.sameRegs d
  have hhist (f : FiltStage) : (s.runChain c xs.length).histOf d f = s.histOf d f :=
    s.runChain_histOf _ fun hdc => absurd hdc hd
  have hrdy := s.runChain_rdySamples_min c xs.length
  have hoff' : s.cabBypassed d (Config.cabrdy (s.runChain c xs.length).rdySamples) =
      s.cabBypassed d (Config.cabrdy s.rdySamples) := by
    rw [hrdy]
    obtain h | h : min xs.length 1 = 0 ∨ min xs.length 1 = 1 := by omega
    · rw [h, Nat.add_zero]
    · rw [h, hoff]
  have hport := hfirst.cabOut_other hframe hd hoff' hcab
  constructor
  case first => exact hfirst.block.runChain_other hd.symm hylen (by simpa using hxlen)
  case second =>
    rw [← hregs.procBlock_eq hhist (fun zs => (hport zs).1)]
    exact hsecond.block
  case histFirst => exact fun f => (State.runChain_histOf _ _ fun hcd => absurd hcd hd.symm).trans (hfirst.hist f)
  case histSecond => exact fun f => (hsecond.hist f).trans (hregs.histAfter_eq hhist f ys)
  case bytes =>
    exact fun a ha hb => (State.runChain_byte_other _ d _ hb).trans (s.runChain_byte_other c _ ha)
  case calls =>
    have hcalls : (s.runChain c xs.length).procCalls d ys = s.procCalls d ys := by
      unfold State.procCalls
      rw [hregs.blockAfter_eq hhist, (hport _).2]
    rw [hsecond.calls, hfirst.calls, hcalls]
  case draws => exact hsecond.draws.trans hfirst.draws
  case rdySamples => rw [State.runChain_rdySamples_min, hrdy]
  case frame => exact hframe.trans (State.runChain_audioFrame _ d _)

/-- Both orders leave the same state but for the order of the calls. -/
theorem State.BothLeave.comm {u v : State} (hu : s.BothLeave c xs d ys u) (hv : s.BothLeave d ys c xs v)
    (hwfu : u.mem.wf) (hwfv : v.mem.wf) (hall : ∀ e, e = c ∨ e = d) : v = { u with cabst := v.cabst } := by
  have hmem : v.mem = u.mem := by
    refine Memory.ext_byte hwfv hwfu fun a => ?_
    by_cases hc : a < wordAddr c 0 ∨ wordAddr c xs.length ≤ a
    · by_cases hd : a < wordAddr d 0 ∨ wordAddr d ys.length ≤ a
      · rw [hv.bytes a hd hc, hu.bytes a hc hd]
      · exact hv.first.byte_eq hu.second (by omega) (by rw [State.procBlock_length]; omega)
    · exact hv.second.byte_eq hu.first (by omega) (by rw [State.procBlock_length]; omega)
  have hhist : v.hist = u.hist := by
    refine PerChan.ext_get fun e => PerFilt.ext_get fun f => ?_
    obtain rfl | rfl := hall e
    · exact (hv.histSecond f).trans (hu.histFirst f).symm
    · exact (hv.histFirst f).trans (hu.histSecond f).symm
  have hdraws : v.draws = u.draws := hv.draws.trans hu.draws.symm
  have hrdy : v.rdySamples = u.rdySamples := by
    rw [hv.rdySamples, hu.rdySamples]
    omega
  calc v = { s with
        mem := v.mem, hist := v.hist, cabst := v.cabst, draws := v.draws, rdySamples := v.rdySamples } := hv.frame
    _ = { s with
        mem := u.mem, hist := u.hist, cabst := v.cabst, draws := u.draws, rdySamples := u.rdySamples } := by
      rw [hmem, hhist, hdraws, hrdy]
    _ = { u with cabst := v.cabst } := (congrArg (fun w : State => { w with cabst := v.cabst }) hu.frame).symm

/-- The calls that concern one channel come in the same order. -/
theorem State.BothLeave.calls_concerns {u v : State} (hu : s.BothLeave c xs d ys u) (hv : s.BothLeave d ys c xs v)
    (hd : d ≠ c) (e : Chan) : v.cabst.filter (CabCall.concerns e) = u.cabst.filter (CabCall.concerns e) := by
  simp only [hu.calls, hv.calls, List.filter_append, State.procCalls_concerns]
  by_cases hc : c = e
  · subst hc
    simp [hd]
  · simp [hc]

/-- Where one of the two cabinets is bypassed, there is at most one call. -/
theorem State.BothLeave.calls_eq {u v : State} (hu : s.BothLeave c xs d ys u) (hv : s.BothLeave d ys c xs v)
    (hoff : s.cabBypassed c (Config.cabrdy s.rdySamples) = true ∨
      s.cabBypassed d (Config.cabrdy s.rdySamples) = true) : v.cabst = u.cabst := by
  rw [hu.calls, hv.calls]
  obtain h | h := hoff
  · simp [State.procCalls_bypassed h]
  · simp [State.procCalls_bypassed h]

end BothChannels

theorem State.Inv.count_le {s : State} (h : s.Inv) {n : Nat} (hn : n ≤ s.blksz.toNat) : n ≤ 65536 := by
  have hsize : s.blksz.toNat ≤ Config.blkmax := h.blockSize
  obtain ⟨_, hmax⟩ := blkmax_bounds
  omega

/-- The first half of R217: both orders, by what the two commands leave together. -/
theorem procs_commute {s : State} {n m : Nat} {xs ys : Nat → Word} (hinv : s.Inv) (hn : n ≤ s.blksz.toNat)
    (hm : m ≤ s.blksz.toNat) (hx : s.Block .left n xs) (hy : s.Block .right m ys)
    (hoff : ∀ c, s.cabBypassed c (Config.cabrdy s.rdySamples) = s.cabBypassed c (Config.cabrdy (s.rdySamples + 1)))
    (hcab : s.cabBypassed .left (Config.cabrdy s.rdySamples) = true ∨
      s.cabBypassed .right (Config.cabrdy s.rdySamples) = true ∨ CabChan Config.cabWord) :
    s.BothLeave .left (samples n xs) .right (samples m ys) ((s.runChain .left n).runChain .right m) ∧
      s.BothLeave .right (samples m ys) .left (samples n xs) ((s.runChain .right m).runChain .left n) := by
  have hxs : s.Holds .left (samples n xs) := hx.holds
  have hys : s.Holds .right (samples m ys) := hy.holds
  have hxlen : (samples n xs).length ≤ 65536 := by simpa using hinv.count_le hn
  have hylen : (samples m ys).length ≤ 65536 := by simpa using hinv.count_le hm
  have hleft := hxs.runBoth hys (by decide) hxlen hylen (hoff .right) hcab
  have hright := hys.runBoth hxs (by decide) hylen hxlen (hoff .left) (or_left_comm.mp hcab)
  simp only [samples_length] at hleft hright
  exact ⟨hleft, hright⟩

/-- The second half of R217: the two channels hold the same installed values (spec/10_state.md R43), so they make the
same of the same block and histories. -/
theorem procs_alike {s : State} {n : Nat} {xs : Nat → Word} (hinv : s.Inv) (hn : n ≤ s.blksz.toNat) (hpos : 0 < n)
    (hx : s.Block .left n xs) (hy : s.Block .right n xs) (hhist : s.hist.left = s.hist.right)
    (hleft : s.cabBypassed .left (Config.cabrdy s.rdySamples) = true)
    (hright : s.cabBypassed .right (Config.cabrdy (s.rdySamples + 1)) = true) :
    let u := (s.runChain .left n).runChain .right n
    u.Holds .left (s.procBlock .left (samples n xs)) ∧ u.Holds .right (s.procBlock .left (samples n xs)) ∧
      u.hist.left = u.hist.right := by
  have hcount := hinv.count_le hn
  have hframe := s.runChain_audioFrame .left n
  have hregs := hframe.sameRegs .right
  obtain ⟨gain, drive, coef, byp⟩ := hinv.copies
  have hsame : (s.runChain .left n).SameRegs .right s .left :=
    ⟨hregs.gain.trans gain.symm, hregs.drive.trans drive.symm, hregs.coef.trans coef.symm, hregs.byp.trans byp.symm⟩
  have hstart (f : FiltStage) : (s.runChain .left n).histOf .right f = s.histOf .left f :=
    (s.runChain_histOf n fun h => absurd h (by decide)).trans (congrArg (·.get f) hhist.symm)
  have hoff : (s.runChain .left n).cabBypassed .right (Config.cabrdy (s.runChain .left n).rdySamples) = true := by
    rw [s.runChain_rdySamples .left hpos, State.cabBypassed, hframe.bypOf_eq]
    exact hright
  have hcab (zs : List Word) : (s.runChain .left n).cabOut .right zs = s.cabOut .left zs := by
    rw [State.cabOut, State.cabOut, if_pos hoff, if_pos hleft]
  have first := hx.runChain
  have hys : s.Holds .right (samples n xs) := hy.holds
  have second := (hys.runChain_other (c := .left) (by decide) hcount (by simpa using hcount)).runChain
  rw [samples_length] at second
  refine ⟨first.block.runChain_other (by decide) hcount (by simpa using hcount), ?_, PerFilt.ext_get fun f => ?_⟩
  · rw [← hsame.procBlock_eq hstart hcab]
    exact second.block
  · calc ((s.runChain .left n).runChain .right n).histOf .left f
        = (s.runChain .left n).histOf .left f := State.runChain_histOf _ n fun h => absurd h (by decide)
      _ = s.histAfter .left f (samples n xs) := first.hist f
      _ = (s.runChain .left n).histAfter .right f (samples n xs) := (hsame.histAfter_eq hstart f _).symm
      _ = ((s.runChain .left n).runChain .right n).histOf .right f := (second.hist f).symm

/-- Settles O35: one order against the other, and one channel against the other. -/
theorem channelsCommute : Obligations.ChannelsCommute := by
  have hblksz (s : State) (c : Chan) (n : Nat) : (s.runChain c n).blksz = s.blksz := by
    rw [s.runChain_audioFrame c n]
  constructor
  · intro s n m xs ys hinv hn hm hx hy off hoff hcab
    obtain ⟨hu, hv⟩ := procs_commute hinv hn hm hx hy hoff hcab
    have hwf (c d : Chan) (k l : Nat) : ((s.runChain c k).runChain d l).mem.wf :=
      State.runChain_wf _ d l (s.runChain_wf c k hinv.memCanonical)
    have hcomm := hu.comm hv (hwf _ _ _ _) (hwf _ _ _ _) (by intro e; cases e <;> simp)
    refine ⟨_, _, _, _, exec_proc_of_le hn, exec_proc_of_le (by rwa [hblksz]), exec_proc_of_le hm,
      exec_proc_of_le (by rwa [hblksz]), hcomm, hu.calls_concerns hv (by decide), fun h => ?_⟩
    rw [hcomm, hu.calls_eq hv h]
  · intro s n xs hinv hn hx hy hhist hleft hright
    refine ⟨s.runChain .left n, (s.runChain .left n).runChain .right n, ?_⟩
    obtain rfl | hpos := n.eq_zero_or_pos
    · exact ⟨xs, exec_proc_of_le hn, exec_proc_of_le (by rwa [hblksz]), nofun, nofun, hhist⟩
    · obtain ⟨hl, hr, hh⟩ := procs_alike hinv hn hpos hx hy hhist hleft hright
      exact ⟨_, exec_proc_of_le hn, exec_proc_of_le (by rwa [hblksz]), hl.block (by simp), hr.block (by simp), hh⟩

end Sys2Proof.Machine

/-! ## The system commands (spec/44_system.md R231 to R235, R245, R246)

As for the installer commands, what a command leaves is `State.Completes`; what is said here is which stage or register
an operand names, and what the histories then read. -/

namespace Sys2Proof.Machine

/-! ### NOP and CLRE (R231, R235) -/

/-- The zero word is `NOP`, whatever follows it (spec/30_encoding.md R97). -/
theorem decode_zero_word (rest : List Word) : decode (0 :: rest) = .ok .nop 1 :=
  decode_legal (op := .nop) (by decide) (Nat.le_add_left ..) (by decide)

/-- A legal command at a command boundary. -/
theorem step_ok_of_held_nil {s : State} {i : Instr} {len : Nat} (h : s.held = []) (hd : decode s.input = .ok i len) :
    step s = exec i { s with input := s.input.drop len, cp := s.cp + len } := by
  rw [← State.stream_of_held_nil h] at hd
  rw [step_of_ok hd, State.consume_of_held_nil h]

/-- Settles O14: what completes is `State.clearLatch`. -/
theorem clreClearsTheLatch : Obligations.ClreClearsTheLatch := fun _ => exec_of_completes .clre

/-- Settles O15: `NOP` leaves the state the fetch of its one word has left. -/
theorem nopOnlyAdvancesCp : Obligations.NopOnlyAdvancesCp := by
  refine ⟨fun s => exec_of_completes .nop, fun s rest hheld hin => ?_⟩
  have hd : decode s.input = .ok .nop 1 := by rw [hin, decode_zero_word]
  rw [step_ok_of_held_nil hheld hd, exec_of_completes .nop, hin, List.drop_one, List.tail_cons]

/-! ### The reset of histories (R232 to R234) -/

theorem eq_zero_of_mem_resetHist {w : Word} (h : w ∈ resetHist.words) : w = 0 := by
  simpa [Hist.words, resetHist] using h

/-- The histories read zero in every state whose histories are those of `State.clearHists`. -/
theorem State.histOf_eq_zero_of_cleared {t : State} (h : t.hist = PerChan.both resetHists) (c : Chan) (f : FiltStage) :
    ∀ w ∈ (t.histOf c f).words, w = 0 := by
  rw [State.histOf, h, PerChan.get_both, PerFilt.get_resetHists]
  exact fun _ => eq_zero_of_mem_resetHist

@[simp] theorem State.histOf_clearHistsOf_same (s : State) (c : Chan) (f : FiltStage) :
    (s.clearHistsOf f).histOf c f = resetHist := by
  simp [State.histOf]

theorem State.histOf_clearHistsOf_other (s : State) (c : Chan) {f g : FiltStage} (h : g ≠ f) :
    (s.clearHistsOf f).histOf c g = s.histOf c g := by
  simp [State.histOf, PerFilt.get_set_other _ resetHist h]

/-- Settles O16: a block size in range passes the one check of `PREP`. -/
theorem prepStartsASession : Obligations.PrepStartsASession := by
  intro sr bs s lo hi
  have hdone := State.Completes.prep (s := s) (sr := sr) lo hi
  exact ⟨_, exec_of_completes hdone, rfl, rfl, State.histOf_eq_zero_of_cleared rfl, rfl, hdone.frame⟩

/-- Settles O17: what completes is `State.clearHists`, then `State.cabResetBoth`. -/
theorem rstaClearsAllHistory : Obligations.RstaClearsAllHistory := by
  intro s
  have hdone := State.Completes.rsta (s := s)
  exact ⟨_, exec_of_completes hdone, State.histOf_eq_zero_of_cleared rfl, rfl, hdone.frame⟩

theorem exec_rsts (s : State) {n : Nat} {st : Stage} (h : stageOf? n = some st) :
    exec (.rsts n) s = .next (s.resetStage st) :=
  exec_of_completes (.rsts h)

theorem stageOf?_of_gainOperand? {n : Nat} {g : GainStage} (h : gainOperand? n = some g) :
    stageOf? n = some (.gain g) :=
  stageOf?_eq_some.mpr (gainOperand?_eq_some.mp h)

theorem stageOf?_of_filtOperand? {n : Nat} {f : FiltStage} (h : filtOperand? n = some f) :
    stageOf? n = some (.filt f) :=
  stageOf?_eq_some.mpr (filtOperand?_eq_some.mp h)

/-- Settles O18: the number names a filter stage, the cabinet, or a stage that `State.resetStage` leaves as it is. -/
theorem rstsResetsOneStage : Obligations.RstsResetsOneStage := by
  refine fun s => ⟨fun n f hmem => ?_, exec_rsts s (st := .cab) rfl, fun n hmem => ?_⟩
  · have hst : stageOf? n = some (.filt f) := stageOf?_of_filtOperand? (filtOperand?_of_mem hmem)
    refine ⟨s.clearHistsOf f, exec_rsts s hst, fun c => ?_, fun c g hg => s.histOf_clearHistsOf_other c hg, rfl⟩
    rw [State.histOf_clearHistsOf_same]
    exact fun _ => eq_zero_of_mem_resetHist
  · simp only [List.mem_cons, List.not_mem_nil, or_false] at hmem
    obtain rfl | rfl | rfl | rfl := hmem
    exacts [exec_rsts s (st := .gain .input) rfl, exec_rsts s (st := .shaper) rfl,
      exec_rsts s (st := .gain .vol) rfl, exec_rsts s (st := .gain .out) rfl]

/-! ### RDR and RDP (R245, R246) -/

/-- Settles O19: each of the eight numbers names a register, and only the read of `STATUS` changes the state. -/
theorem rdrEmitsTheRegister : Obligations.RdrEmitsTheRegister := by
  intro s
  have emits {r : Nat} {v : Word} {u : State} (h : s.sysReg? r = some (v, u)) :
      exec (.rdr r) s = .next (u.emit v) := exec_of_completes (.rdr h)
  have hstatus : s.sysReg? 1 =
      some (s.statusWord (Config.cabrdy s.rdySamples), { s with rdySamples := s.rdySamples + 1 }) := rfl
  exact ⟨emits (r := 0) rfl, emits hstatus, emits (r := 2) rfl, emits (r := 3) rfl, emits (r := 4) rfl,
    emits (r := 5) rfl, emits (r := 6) rfl, emits (r := 7) rfl⟩

theorem exec_rdp {s : State} {c : Chan} {n : Nat} {st : Stage} {vs : List Word} (hst : stageOf? n = some st)
    (hvs : s.installed? c st = some vs) : exec (.rdp c n) s = .next (s.emitAll vs) :=
  exec_of_completes (.rdp (by rw [hst, Option.bind_some, hvs]))

/-- Settles O22: every stage but the cabinet has installed words. -/
theorem rdpEmitsInstalledWords : Obligations.RdpEmitsInstalledWords := fun _ _ =>
  ⟨fun _ _ hmem => exec_rdp (stageOf?_of_gainOperand? (gainOperand?_of_mem hmem)) rfl,
    exec_rdp (st := .shaper) rfl rfl,
    fun _ _ hmem => exec_rdp (stageOf?_of_filtOperand? (filtOperand?_of_mem hmem)) rfl⟩

end Sys2Proof.Machine

/-! ## The errors (spec/60_exceptions.md R290 to R294, R299) -/

namespace Sys2Proof.Machine

/-! ### Every step has a next state (R290, R299) -/

/-- Executing an instruction answers a next state, whether it errs or completes. -/
theorem exec_answers (i : Instr) (s : State) : ∃ t, exec i s = .next t := by
  obtain ⟨_, _, h⟩ | ⟨_, t, _, h⟩ := exec_cases i s
  exacts [⟨_, h⟩, ⟨t, h⟩]

/-- Settles O52: a wait and a decoding error answer a next state, and so does what the decoder has found legal. -/
theorem stepNeverStops : Obligations.StepNeverStops := by
  intro s
  obtain ⟨_, h⟩ | ⟨_, _, _, _, h⟩ | ⟨i, len, _, h⟩ := step_cases s
  · exact ⟨_, h⟩
  · exact ⟨_, h⟩
  · exact h ▸ exec_answers i (s.consume len)

/-! ### The rows of `E_STAGE` and `E_RANGE` (R291, R294) -/

/-- A command that has a cause raises it and does nothing else: the converse of `exec_next_cases`. -/
theorem exec_of_causeOf {s : State} {i : Instr} {e : Cause} (h : s.causeOf i = some e) :
    exec i s = .next (s.reject e i) := by
  obtain ⟨e', he, h'⟩ | ⟨hn, _⟩ := exec_cases i s
  · cases h.symm.trans he
    exact h'
  · cases h.symm.trans hn

/-- Settles O12: each stage number fails the check of `State.causeOf`. -/
theorem stageErrorsOnlyLatch : Obligations.StageErrorsOnlyLatch := by
  intro s st bad
  have errs {i : Instr} (h : s.causeOf i = some .stage) : bad i := exec_of_causeOf h
  exact ⟨fun _ h => errs (if_neg (by simpa using h)), fun _ h => errs (if_neg h),
    fun _ h => errs (if_neg (by simpa using h)), fun _ h => errs (if_pos h), fun h => errs (if_pos h),
    fun _ h => errs (if_pos h)⟩

/-- Settles O13: each operand fails the check of `State.causeOf`. -/
theorem rangeErrorsOnlyLatch : Obligations.RangeErrorsOnlyLatch := by
  intro s bad
  have errs {i : Instr} (h : s.causeOf i = some .range) : bad i := exec_of_causeOf h
  refine ⟨fun _ _ _ h => errs (if_pos h), fun _ _ h => errs (if_pos h), fun _ _ h => errs (if_pos h),
    fun _ bs h => errs (if_pos ?_), fun _ h => errs (if_pos h)⟩
  exact h.imp_left (congrArg BitVec.toNat)

/-! ### What a step does to the latch (R293) -/

/-- `t` has the error latch of `s`. -/
def State.SameLatch (s t : State) : Prop := t.err = s.err ∧ t.ecode = s.ecode ∧ t.eword = s.eword

theorem State.SameLatch.refl (s : State) : s.SameLatch s := ⟨rfl, rfl, rfl⟩

/-- No command that completes touches the latch, but for `CLRE`. -/
theorem State.Completes.sameLatch {s t : State} {i : Instr} (h : s.Completes i t) (hi : i ≠ .clre) : s.SameLatch t := by
  have hframe := h.frame
  cases h with
  | clre => exact absurd rfl hi
  | nop | prep | rsta | rsts | ldg | ldd | ldc | byp | wrs | rds | proc | rdr | rdp =>
    rw [hframe]
    exact State.SameLatch.refl s

/-- An error raised leaves a latch that is set, and puts its word in one that is clear. -/
theorem State.raise_latch_cases (s : State) (e : Cause) (w : Word) :
    s.SameLatch (s.raise e w) ∨ (s.err = false ∧ (s.raise e w).eword = w) := by
  obtain ⟨_, hr⟩ | ⟨herr, hr⟩ := s.raise_cases e w <;> rw [hr]
  · exact .inl (State.SameLatch.refl s)
  · exact .inr ⟨herr, rfl⟩

/-- An illegal command is reported with the first word of the stream. -/
theorem head?_of_illegal {ws : List Word} {e : Cause} {w : Word} {len : Nat} (h : decode ws = .illegal e w len) :
    ws.head? = some w := by
  cases ws with
  | nil => cases h
  | cons v rest =>
    obtain ⟨_, h'⟩ | ⟨_, ⟨_, h'⟩ | ⟨_, h'⟩⟩ := decode_cons_cases v rest <;> cases h.symm.trans h'
    rfl

/-- The head word a legal command's fields encode is the first word of the stream (log entry 11). -/
theorem head?_of_ok {ws : List Word} {i : Instr} {len : Nat} (h : decode ws = .ok i len) : ws.head? = some i.head := by
  obtain ⟨_, hlen, htake⟩ := decodedWordsAreTheEncoding ws i len h
  have hpos : len ≠ 0 := hlen ▸ Nat.succ_ne_zero _
  calc ws.head? = (ws.take len).head? := by rw [List.head?_take, if_neg hpos]
    _ = some i.head := by rw [htake, encode, List.head?_cons]

/-- Everything a step can do to the error latch: leave it, clear it by `CLRE`, or put the head word of the stream in it
where it was clear. -/
theorem step_latch_cases {s t : State} (h : step s = .next t) :
    s.SameLatch t ∨ (t.err = false ∧ ∃ len, decode s.stream = .ok .clre len) ∨
      (s.err = false ∧ s.stream.head? = some t.eword) := by
  have raised (len : Nat) (e : Cause) {w : Word} (hw : s.stream.head? = some w) :
      s.SameLatch ((s.consume len).raise e w) ∨
        (s.err = false ∧ s.stream.head? = some ((s.consume len).raise e w).eword) :=
    ((s.consume len).raise_latch_cases e w).imp_right fun ⟨herr, heword⟩ => ⟨herr, heword.symm ▸ hw⟩
  obtain ⟨_, h'⟩ | ⟨e, w, len, hd, h'⟩ | ⟨i, len, hd, h'⟩ := step_cases s <;> rw [h'] at h
  · cases h
    exact .inl (State.SameLatch.refl s)
  · cases h
    exact (raised len e (head?_of_illegal hd)).imp_right .inr
  · obtain ⟨e, _, rfl⟩ | ⟨_, hc⟩ := exec_next_cases h
    · exact (raised len e (head?_of_ok hd)).imp_right .inr
    · by_cases hi : i = .clre
      · subst hi
        cases hc
        exact .inr (.inl ⟨rfl, len, hd⟩)
      · exact .inl (hc.sameLatch hi)

/-- Settles O10: of the three things a step can do to the latch, a set latch and a command other than `CLRE` leave the
one that changes nothing. -/
theorem firstErrorWinsAndSticks : Obligations.FirstErrorWinsAndSticks := by
  refine ⟨fun s e w h => ?_, fun s e w h => s.raise_of_err h e w, fun s t herr h hclre => ?_⟩
  · rw [State.raise_of_clear h]
    cases e <;> rfl
  · obtain ⟨herr', hlatch⟩ | ⟨_, len, hd⟩ | ⟨hclear, _⟩ := step_latch_cases h
    · exact ⟨herr'.trans herr, hlatch⟩
    · exact absurd hd (hclre len)
    · exact absurd hclear (by simp [herr])

/-- Settles O11: of the three things a step can do to the latch, only an error raised sets one that was clear. -/
theorem latchRecordsTheHeadWord : Obligations.LatchRecordsTheHeadWord := by
  intro s t w rest hs hstream h ht
  obtain ⟨herr, _⟩ | ⟨hclear, _⟩ | ⟨_, hhead⟩ := step_latch_cases h
  · exact absurd (herr.trans hs) (by simp [ht])
  · exact absurd hclear (by simp [ht])
  · rw [hstream, List.head?_cons] at hhead
    exact (Option.some.inj hhead).symm

end Sys2Proof.Machine

/-! ## Streams of whole commands (spec/70_reset_and_hazards.md R343) -/

namespace Sys2Proof.Machine

/-- A step at a command boundary takes the whole command in front and nothing more, however the command ends. -/
theorem step_whole_command {s : State} {w : Word} {rest more : List Word} (hheld : s.held = [])
    (hin : s.input = (w :: rest) ++ more) (hlen : (w :: rest).length = headLength w) :
    ∃ t, step s = .next t ∧ t.held = [] ∧ t.input = more ∧ t.cp = s.cp + (w :: rest).length := by
  have hstream : s.stream = w :: (rest ++ more) := (State.stream_of_held_nil hheld).trans hin
  have hwhole : decode s.stream ≠ .incomplete := by
    rw [hstream]
    rw [List.length_cons] at hlen
    obtain ⟨hshort, _⟩ | ⟨_, ⟨_, hdec⟩ | ⟨_, hdec⟩⟩ := decode_cons_cases w (rest ++ more)
    · rw [List.length_append] at hshort
      omega
    · rw [hdec]
      exact Decoded.noConfusion
    · rw [hdec]
      exact Decoded.noConfusion
  obtain ⟨t, ht⟩ := stepNeverStops s
  obtain ⟨hcp, hnil, hrest⟩ := step_consumes hstream hwhole ht
  rw [State.consume_of_held_nil hheld, ← hlen] at hcp hnil hrest
  refine ⟨t, ht, hnil.trans hheld, hrest.trans ?_, hcp⟩
  rw [hin]
  exact List.drop_left

theorem core_run_succ {s t : State} (k : Nat) (h : step s = .next t) :
    Sys2Proof.core.run (k + 1) s = Sys2Proof.core.run k t := by
  have hcore : Sys2Proof.core.step s = .next t := h
  simp only [Host.Core.run, hcore]

/-- The run over a list of whole commands, by induction on the list. -/
theorem run_whole_commands (cmds : List (List Word)) {s : State}
    (hcmds : ∀ ws ∈ cmds, ∃ w rest, ws = w :: rest ∧ ws.length = headLength w) (hheld : s.held = [])
    (hin : s.input = cmds.flatten) :
    ∃ t, Sys2Proof.core.run cmds.length s = .next t ∧ t.Finished ∧ t.cp = s.cp + s.input.length := by
  induction cmds generalizing s with
  | nil => exact ⟨s, rfl, ⟨hin, hheld⟩, by rw [hin]; rfl⟩
  | cons ws cmds ih =>
    obtain ⟨⟨w, rest, rfl, hlen⟩, hlater⟩ := List.forall_mem_cons.mp hcmds
    obtain ⟨t, hstep, hheld', hin', hcp⟩ := step_whole_command hheld hin hlen
    obtain ⟨u, hrun, hdone, hcp'⟩ := ih hlater hheld' hin'
    have hcount : u.cp = s.cp + s.input.length := by
      rw [hcp', hcp, hin', hin, List.flatten_cons, List.length_append, Nat.add_assoc]
    exact ⟨u, (core_run_succ cmds.length hstep).trans hrun, hdone, hcount⟩

/-- Settles O57: every command is as long as its head word says (`headLength_eq`), so each step takes one. -/
theorem wholeCommandsRunToTheEnd : Obligations.WholeCommandsRunToTheEnd := by
  intro cmds s hcmds
  refine run_whole_commands cmds fun ws hws => ?_
  obtain ⟨w, rest, hcons, hlen⟩ := hcmds ws hws
  exact ⟨w, rest, hcons, hlen.trans (headLength_eq w).symm⟩

end Sys2Proof.Machine

/-! ## Values that are not finite stay in a filter cell (spec/70_reset_and_hazards.md R337) -/

namespace Sys2Proof.Machine

/-! ### What a result says of its operands (spec/40_numerics.md R133 to R136) -/

theorem isFinite_of_isNaN {w : Word} (h : isNaN w = true) : isFinite w = false := by
  rw [Bool.eq_false_iff]
  intro hf
  rw [(isFinite_classes hf).1] at h
  cases h

theorem isNaN_or_isInf {w : Word} (h : isFinite w = false) : isNaN w = true ∨ isInf w = true := by
  cases hn : isNaN w
  · exact .inr ((isFinite_or_isInf hn).resolve_left (by simp [h]))
  · exact .inl rfl

/-- A property of words that a result has only where the operands have it; of a quotient, where the dividend has it. -/
structure OperandsInherit (P : Word → Prop) : Prop where
  add : ∀ {a b : Word}, P (fadd a b) → P a ∧ P b
  sub : ∀ {a b : Word}, P (fsub a b) → P a ∧ P b
  mul : ∀ {a b : Word}, P (fmul a b) → P a ∧ P b
  dividend : ∀ {a b : Word}, P (fdiv a b) → P a

section Operations
variable {a b : Word}

/-- A NaN as an operand makes each of the four results a NaN. -/
theorem operations_nan (h : isNaN a = true ∨ isNaN b = true) :
    isNaN (fadd a b) = true ∧ isNaN (fsub a b) = true ∧ isNaN (fmul a b) = true ∧ isNaN (fdiv a b) = true := by
  obtain ⟨hnan, _⟩ := nanOperandsGiveQuietNaNs a b
  obtain ⟨hadd, hsub, hmul, hdiv⟩ := hnan h
  exact ⟨isNaN_of_isQuietNaN hadd, isNaN_of_isQuietNaN hsub, isNaN_of_isQuietNaN hmul, isNaN_of_isQuietNaN hdiv⟩

theorem isFinite_fpack_infMag (s : Bool) : isFinite (fpack s infMag) = false := by cases s <;> decide

/-- An infinity with a finite operand, in either place. -/
theorem operations_inf_finite_not_finite (ha : isInf a = true) (hb : isFinite b = true) :
    (isFinite (fadd a b) = false ∧ isFinite (fsub a b) = false ∧ isFinite (fmul a b) = false ∧
      isFinite (fdiv a b) = false) ∧
    isFinite (fadd b a) = false ∧ isFinite (fsub b a) = false ∧ isFinite (fmul b a) = false := by
  obtain ⟨_, _, hinf⟩ := isInf_classes ha
  obtain ⟨hab, hba, hsub, hsub', hmul, hdiv, _⟩ := operations_inf_finite ha hb
  have hproducts : isFinite (fmul a b) = false ∧ isFinite (fmul b a) = false := by
    split at hmul <;> obtain ⟨hright, hleft⟩ := hmul
    · exact ⟨isFinite_of_isNaN (isNaN_of_isQuietNaN hright), isFinite_of_isNaN (isNaN_of_isQuietNaN hleft)⟩
    · rw [hright, hleft]
      exact ⟨isFinite_fpack_infMag _, isFinite_fpack_infMag _⟩
  rw [hab, hba, hsub, hsub', hdiv, isFinite_fneg]
  exact ⟨⟨hinf, hinf, hproducts.1, isFinite_fpack_infMag _⟩, hinf, hinf, hproducts.2⟩

/-- Two infinities. -/
theorem operations_inf_inf_not_finite (ha : isInf a = true) (hb : isInf b = true) :
    isFinite (fadd a b) = false ∧ isFinite (fsub a b) = false ∧ isFinite (fmul a b) = false ∧
      isFinite (fdiv a b) = false := by
  obtain ⟨_, _, hinf⟩ := isInf_classes ha
  obtain ⟨hsum, hmul, hdiv⟩ := operations_inf_inf ha hb
  have hsums : isFinite (fadd a b) = false ∧ isFinite (fsub a b) = false := by
    split at hsum <;> obtain ⟨hadd, hsub⟩ := hsum
    · exact ⟨by rw [hadd, hinf], isFinite_of_isNaN (isNaN_of_isQuietNaN hsub)⟩
    · exact ⟨isFinite_of_isNaN (isNaN_of_isQuietNaN hadd), by rw [hsub, hinf]⟩
  exact ⟨hsums.1, hsums.2, hmul ▸ isFinite_fpack_infMag _, isFinite_of_isNaN (isNaN_of_isQuietNaN hdiv)⟩

/-- No operation makes a finite result of an operand that is not finite, but for a division by an infinity. -/
theorem operations_not_finite (h : isFinite a = false ∨ isFinite b = false) :
    isFinite (fadd a b) = false ∧ isFinite (fsub a b) = false ∧ isFinite (fmul a b) = false ∧
      (isFinite a = false → isFinite (fdiv a b) = false) := by
  by_cases hnan : isNaN a = true ∨ isNaN b = true
  · obtain ⟨hadd, hsub, hmul, hdiv⟩ := operations_nan hnan
    exact ⟨isFinite_of_isNaN hadd, isFinite_of_isNaN hsub, isFinite_of_isNaN hmul, fun _ => isFinite_of_isNaN hdiv⟩
  · simp only [not_or, Bool.not_eq_true] at hnan
    obtain ⟨hna, hnb⟩ := hnan
    obtain hfa | hia := isFinite_or_isInf hna <;> obtain hfb | hib := isFinite_or_isInf hnb
    · simp [hfa, hfb] at h
    · obtain ⟨_, hadd, hsub, hmul⟩ := operations_inf_finite_not_finite hib hfa
      exact ⟨hadd, hsub, hmul, fun ha => by simp [hfa] at ha⟩
    · obtain ⟨⟨hadd, hsub, hmul, hdiv⟩, _⟩ := operations_inf_finite_not_finite hia hfb
      exact ⟨hadd, hsub, hmul, fun _ => hdiv⟩
    · obtain ⟨hadd, hsub, hmul, hdiv⟩ := operations_inf_inf_not_finite hia hib
      exact ⟨hadd, hsub, hmul, fun _ => hdiv⟩

end Operations

theorem operandsInherit_notNaN : OperandsInherit fun w => isNaN w = false := by
  have both {a b r : Word} (hr : isNaN a = true ∨ isNaN b = true → isNaN r = true) (h : isNaN r = false) :
      isNaN a = false ∧ isNaN b = false := by
    rw [← Bool.not_eq_true, ← Bool.not_eq_true, ← not_or]
    exact fun hn => Bool.false_ne_true (h.symm.trans (hr hn))
  exact {
    add := both fun h => have ⟨hadd, _⟩ := operations_nan h; hadd
    sub := both fun h => have ⟨_, hsub, _⟩ := operations_nan h; hsub
    mul := both fun h => have ⟨_, _, hmul, _⟩ := operations_nan h; hmul
    dividend := fun h => (both (fun h => have ⟨_, _, _, hdiv⟩ := operations_nan h; hdiv) h).1 }

theorem operandsInherit_finite : OperandsInherit fun w => isFinite w = true := by
  have both {a b r : Word} (hr : isFinite a = false ∨ isFinite b = false → isFinite r = false)
      (h : isFinite r = true) : isFinite a = true ∧ isFinite b = true := by
    rw [← Bool.not_eq_false, ← Bool.not_eq_false, ← not_or]
    exact fun hn => Bool.false_ne_true ((hr hn).symm.trans h)
  exact {
    add := both fun h => have ⟨hadd, _⟩ := operations_not_finite h; hadd
    sub := both fun h => have ⟨_, hsub, _⟩ := operations_not_finite h; hsub
    mul := both fun h => have ⟨_, _, hmul, _⟩ := operations_not_finite h; hmul
    dividend := fun {a b} h => by
      rw [← Bool.not_eq_false]
      intro ha
      obtain ⟨_, _, _, hdiv⟩ := operations_not_finite (b := b) (.inl ha)
      exact Bool.false_ne_true ((hdiv ha).symm.trans h) }

/-! ### The cell (spec/42_stages.md R186) -/

section Cell
variable {P : Word → Prop} {k : Coeffs} {h : Hist} {x : Word}

/-- The output of a cell is made from the sample and every word of the history. -/
theorem OperandsInherit.of_cellOut (hP : OperandsInherit P) (hy : P (cellOut k h x)) : P x ∧ ∀ v ∈ h.words, P v := by
  obtain ⟨hacc6, hy3⟩ := hP.sub (hP.dividend hy)
  obtain ⟨hacc5, hy2⟩ := hP.sub hacc6
  obtain ⟨hacc4, hy1⟩ := hP.sub hacc5
  obtain ⟨hacc3, hx3⟩ := hP.add hacc4
  obtain ⟨hacc2, hx2⟩ := hP.add hacc3
  obtain ⟨hx, hx1⟩ := hP.add hacc2
  have sample {b v : Word} (hb : P (fmul b v)) : P v := (hP.mul hb).2
  refine ⟨sample hx, ?_⟩
  simp only [Hist.words, List.forall_mem_cons]
  exact ⟨sample hx1, sample hx2, sample hx3, sample hy1, sample hy2, sample hy3, nofun⟩

/-- What the last output lacks, every later output lacks. -/
theorem OperandsInherit.cellRun_of_last (hP : OperandsInherit P) (hlast : ¬ P h.y1) (xs : List Word) :
    (∀ w ∈ (cellRun k h xs).1, ¬ P w) ∧ ¬ P (cellRun k h xs).2.y1 := by
  induction xs generalizing h with
  | nil => exact ⟨nofun, hlast⟩
  | cons x xs ih =>
    have hy : ¬ P (cellOut k h x) := fun hy => hlast ((hP.of_cellOut hy).2 h.y1 (by simp [Hist.words]))
    obtain ⟨hout, hy1⟩ := ih (h := h.shift x (cellOut k h x)) hy
    exact ⟨List.forall_mem_cons.mpr ⟨hy, hout⟩, hy1⟩

/-- What the sample or a word of the history lacks, this output and every later one lacks. -/
theorem OperandsInherit.cellRun_of_input (hP : OperandsInherit P) (hin : ¬ P x ∨ ∃ v ∈ h.words, ¬ P v)
    (xs : List Word) :
    (∀ w ∈ (cellRun k h (x :: xs)).1, ¬ P w) ∧ ¬ P (cellRun k h (x :: xs)).2.y1 := by
  have hy : ¬ P (cellOut k h x) := by
    intro hy
    obtain ⟨hx, hwords⟩ := hP.of_cellOut hy
    obtain hnx | ⟨v, hv, hnv⟩ := hin
    · exact hnx hx
    · exact hnv (hwords v hv)
  obtain ⟨hout, hy1⟩ := hP.cellRun_of_last (k := k) (h := h.shift x (cellOut k h x)) hy xs
  exact ⟨List.forall_mem_cons.mpr ⟨hy, hout⟩, hy1⟩

end Cell

/-- Settles O40: an output that is no NaN, or is finite, is made from words that are. -/
theorem nanStaysInTheCell : Obligations.NaNStaysInTheCell := by
  refine ⟨fun k h xs hy => ?_, fun k h xs hy => ?_, fun k h x xs hin => ?_⟩
  · simpa using operandsInherit_notNaN.cellRun_of_last (k := k) (h := h) (by simpa using hy) xs
  · simpa using operandsInherit_finite.cellRun_of_last (k := k) (h := h) (by simpa using hy) xs
  · simpa using operandsInherit_finite.cellRun_of_input (k := k) (h := h) (x := x) (by simpa using hin) xs

end Sys2Proof.Machine

/-! ## The reset configuration (spec/70_reset_and_hazards.md R322)

A block is a row of samples, each of which meets the histories the samples before it have left. So what is said of a
sample is said of one sample through the stages that run: three gains of 1.0, the shaper with drive +0.0 and three cells
with the tuple of reset. -/

namespace Sys2Proof.Machine

/-! ### The same value, but for the sign of a zero -/

/-- `y` is `x`, or both are zeros. -/
def SameValue (x y : Word) : Prop := y = x ∨ isZero x = true ∧ isZero y = true

theorem SameValue.refl (x : Word) : SameValue x x := .inl rfl

theorem SameValue.isZero_eq {x y : Word} (h : SameValue x y) : isZero y = isZero x := by
  obtain rfl | ⟨hx, hy⟩ := h
  · rfl
  · rw [hx, hy]

theorem SameValue.isFinite {x y : Word} (h : SameValue x y) (hx : isFinite x = true) : isFinite y = true := by
  obtain rfl | ⟨_, hy⟩ := h
  · exact hx
  · exact isFinite_of_isZero hy

theorem SameValue.trans {x y z : Word} (hxy : SameValue x y) (hyz : SameValue y z) : SameValue x z := by
  obtain rfl | ⟨hy, hz⟩ := hyz
  · exact hxy
  · exact .inr ⟨hxy.isZero_eq ▸ hy, hz⟩

theorem SameValue.eq {x y : Word} (h : SameValue x y) (hx : isZero x = false) : y = x :=
  h.resolve_right fun hz => Bool.false_ne_true (hx.symm.trans hz.1)

section ZeroTerms
variable {x a z : Word}

theorem SameValue.fadd_zero (h : SameValue x a) (hx : Machine.isFinite x = true) (hz : isZero z = true) :
    SameValue x (fadd a z) := by
  refine h.trans ?_
  rw [Machine.fadd_zero (isFinite_classes (h.isFinite hx)).1 hz]
  split
  · rename_i hzeros
    obtain ⟨rfl, _⟩ := hzeros
    exact .inr ⟨by decide, by decide⟩
  · exact .refl a

theorem SameValue.fsub_zero (h : SameValue x a) (hx : Machine.isFinite x = true) (hz : isZero z = true) :
    SameValue x (fsub a z) := by
  rw [fsub_eq (isFinite_classes (isFinite_of_isZero hz)).1]
  exact h.fadd_zero hx (by rw [isZero_fneg, hz])

theorem fadd_posZero (hz : isZero z = true) : fadd z 0 = 0 := by
  obtain rfl | rfl := eq_zero_of_isZero hz <;> decide

theorem posZero_fsub (hz : isZero z = true) : fsub 0 z = 0 := by
  obtain rfl | rfl := eq_zero_of_isZero hz <;> decide

theorem isZero_zero_fmul (hx : isFinite x = true) : isZero (fmul 0 x) = true :=
  isZero_fmul (by decide) hx (.inl (by decide))

end ZeroTerms

/-! ### One sample through the stages that run -/

/-- All words of the list are finite. -/
def AllFinite (xs : List Word) : Prop := ∀ w ∈ xs, isFinite w = true

section OneSample
variable {h : Hist} {x : Word}

/-- With the tuple of reset the products but the first are zeros. -/
theorem cellOut_reset (hh : AllFinite h.words) (hx : isFinite x = true) :
    SameValue x (cellOut resetCoeffs h x) ∧ (isZero x = true → h.x3 = 0 → cellOut resetCoeffs h x = 0) := by
  simp only [AllFinite, Hist.words, List.forall_mem_cons] at hh
  obtain ⟨hx1, hx2, hx3, hy1, hy2, hy3, _⟩ := hh
  have zx1 := isZero_zero_fmul hx1
  have zx2 := isZero_zero_fmul hx2
  have zx3 := isZero_zero_fmul hx3
  have zy1 := isZero_zero_fmul hy1
  have zy2 := isZero_zero_fmul hy2
  have zy3 := isZero_zero_fmul hy3
  have hacc : cellAcc resetCoeffs h x =
      fsub (fsub (fsub (fadd (fadd (fadd x (fmul 0 h.x1)) (fmul 0 h.x2)) (fmul 0 h.x3))
        (fmul 0 h.y1)) (fmul 0 h.y2)) (fmul 0 h.y3) := by
    simp only [cellAcc, resetCoeffs, fmul_one (isFinite_classes hx).1]
  have two := ((SameValue.refl x).fadd_zero hx zx1).fadd_zero hx zx2
  have all := (((two.fadd_zero hx zx3).fsub_zero hx zy1).fsub_zero hx zy2).fsub_zero hx zy3
  have hdiv : cellOut resetCoeffs h x = fdiv (cellAcc resetCoeffs h x) 0x3F800000 := rfl
  rw [hdiv, hacc, fdiv_one (isFinite_classes (all.isFinite hx)).1]
  refine ⟨all, fun hz h3 => ?_⟩
  rw [h3, show fmul 0 0 = 0 by decide, fadd_posZero (two.isZero_eq.trans hz), posZero_fsub zy1, posZero_fsub zy2,
    posZero_fsub zy3]

theorem shapeOut_zero_of_finite (hx : isFinite x = true) : shapeOut 0 x = x := by
  obtain ⟨hzero, _⟩ := shaperIdentityAndSilence
  obtain ⟨hid, _⟩ := hzero x
  exact hid hx

theorem shapeOut_zero_of_not_finite (hx : isFinite x = false) : isNaN (shapeOut 0 x) = true := by
  refine atan32_shape.shape_of_nan (isNaN_of_isQuietNaN (isQuietNaN_fmul ?_))
  obtain hn | hi := isNaN_or_isInf hx
  · exact .inr (.inl hn)
  · exact .inr (.inr (.inl ⟨by decide, hi⟩))

/-- A sample through the running stages of the reset configuration, from the histories of stages 2, 4 and 6. -/
def resetChainOut (h2 h4 h6 : Hist) (x : Word) : Word :=
  fmul 0x3F800000 (fmul 0x3F800000
    (cellOut resetCoeffs h6 (cellOut resetCoeffs h4 (shapeOut 0 (cellOut resetCoeffs h2 (fmul 0x3F800000 x))))))

/-- A finite sample comes out as it was, but for the sign of a zero; the last cell decides that one. -/
theorem resetChainOut_finite {h2 h4 h6 : Hist} (hh2 : AllFinite h2.words) (hh4 : AllFinite h4.words)
    (hh6 : AllFinite h6.words) (hx : isFinite x = true) :
    SameValue x (resetChainOut h2 h4 h6 x) ∧ (isZero x = true → h6.x3 = 0 → resetChainOut h2 h4 h6 x = 0) := by
  have gain {v : Word} (hv : isFinite v = true) : fmul 0x3F800000 v = v := fmul_one (isFinite_classes hv).1
  obtain ⟨s2, _⟩ := cellOut_reset hh2 hx
  have f2 := s2.isFinite hx
  obtain ⟨s4, _⟩ := cellOut_reset hh4 f2
  have f4 := s4.isFinite f2
  obtain ⟨s6, zero⟩ := cellOut_reset hh6 f4
  have f6 := s6.isFinite f4
  rw [resetChainOut, gain hx, shapeOut_zero_of_finite f2, gain f6, gain f6]
  exact ⟨(s2.trans s4).trans s6, fun hz => zero ((s2.trans s4).isZero_eq.trans hz)⟩

/-- A sample that is not finite stays so up to the shaper, whose product with a drive of zero makes it a NaN. -/
theorem resetChainOut_not_finite (h2 h4 h6 : Hist) (hx : isFinite x = false) :
    isNaN (resetChainOut h2 h4 h6 x) = true := by
  have hshaped : isNaN (shapeOut 0 (cellOut resetCoeffs h2 (fmul 0x3F800000 x))) = true := by
    refine shapeOut_zero_of_not_finite (Bool.eq_false_iff.mpr fun hfin => ?_)
    obtain ⟨hproduct, _⟩ := operandsInherit_finite.of_cellOut hfin
    obtain ⟨_, hfin⟩ := operandsInherit_finite.mul hproduct
    exact Bool.false_ne_true (hx.symm.trans hfin)
  rw [← Bool.not_eq_false]
  intro hout
  obtain ⟨_, hvol⟩ := operandsInherit_notNaN.mul hout
  obtain ⟨_, htone⟩ := operandsInherit_notNaN.mul hvol
  obtain ⟨hhp2, _⟩ := operandsInherit_notNaN.of_cellOut htone
  obtain ⟨hshaper, _⟩ := operandsInherit_notNaN.of_cellOut hhp2
  exact Bool.false_ne_true (hshaper.symm.trans hshaped)

end OneSample

/-! ### The stages under the registers of reset -/

theorem State.SameRegs.trans {s t u : State} {c d e : Chan} (h : s.SameRegs c t d) (h' : t.SameRegs d u e) :
    s.SameRegs c u e :=
  ⟨h.gain.trans h'.gain, h.drive.trans h'.drive, h.coef.trans h'.coef, h.byp.trans h'.byp⟩

section ResetRegs
variable {s : State} {c : Chan}

theorem State.SameRegs.gainOf_reset (h : s.SameRegs c State.reset c) (g : GainStage) : s.gainOf c g = 0x3F800000 := by
  obtain ⟨hgain, _⟩ := resetValues
  rw [← hgain c g, State.gainOf, h.gain]
  rfl

theorem State.SameRegs.driveOf_reset (h : s.SameRegs c State.reset c) : s.driveOf c = 0 := by
  obtain ⟨_, hdrive, _⟩ := resetValues
  rw [← hdrive c, State.driveOf, h.drive]
  rfl

theorem State.SameRegs.coefOf_reset (h : s.SameRegs c State.reset c) (f : FiltStage) : s.coefOf c f = resetCoeffs := by
  obtain ⟨_, _, hcoef, _⟩ := resetValues
  rw [h.coefOf_eq, hcoef c f]
  rfl

theorem State.SameRegs.bypOf_reset (h : s.SameRegs c State.reset c) (st : Stage) :
    s.bypOf c st = decide (st = .filt .shelf ∨ st = .cab) := by
  rw [h.bypOf_eq, Bool.eq_iff_iff, State.reset_bypOf, decide_eq_true_iff]

theorem State.SameRegs.cabBypassed_reset (h : s.SameRegs c State.reset c) :
    s.cabBypassed c (Config.cabrdy s.rdySamples) = true :=
  State.cabBypassed_of_flag (by simp [h.bypOf_reset]) _

theorem State.SameRegs.stageBlock_gain_reset (h : s.SameRegs c State.reset c) (g : GainStage) (xs : List Word) :
    s.stageBlock c xs (.gain g) = xs.map (fmul 0x3F800000) := by
  rw [State.stageBlock_running (by simp) (by simp [h.bypOf_reset]), State.stageRun_gain, h.gainOf_reset]

theorem State.SameRegs.stageBlock_shaper_reset (h : s.SameRegs c State.reset c) (xs : List Word) :
    s.stageBlock c xs .shaper = xs.map (shapeOut 0) := by
  rw [State.stageBlock_running (by simp) (by simp [h.bypOf_reset]), State.stageRun_shaper, h.driveOf_reset]

theorem State.SameRegs.stageBlock_shelf_reset (h : s.SameRegs c State.reset c) (xs : List Word) :
    s.stageBlock c xs (.filt .shelf) = xs :=
  State.stageBlock_bypassed (by simp [h.bypOf_reset]) xs

theorem State.SameRegs.stageBlock_filt_reset (h : s.SameRegs c State.reset c) {f : FiltStage} (hf : f ≠ .shelf)
    (xs : List Word) : s.stageBlock c xs (.filt f) = (cellRun resetCoeffs (s.histOf c f) xs).1 := by
  rw [State.stageBlock_filt (by simpa [h.bypOf_reset] using hf), h.coefOf_reset]

theorem State.SameRegs.procBlock_single_reset (h : s.SameRegs c State.reset c) (x : Word) :
    s.procBlock c [x] = [resetChainOut (s.histOf c .hp1) (s.histOf c .hp2) (s.histOf c .tone) x] := by
  have cell {f : FiltStage} (hf : f ≠ .shelf) (v : Word) :
      s.stageBlock c [v] (.filt f) = [cellOut resetCoeffs (s.histOf c f) v] := h.stageBlock_filt_reset hf [v]
  rw [State.procBlock, State.cabOut, if_pos h.cabBypassed_reset, h.stageBlock_gain_reset]
  simp [State.blockAfter, chain, h.stageBlock_gain_reset, h.stageBlock_shaper_reset, h.stageBlock_shelf_reset, cell,
    resetChainOut]

/-! ### Finite samples leave finite histories -/

theorem AllFinite.shift {h : Hist} (hh : AllFinite h.words) {x y : Word} (hx : isFinite x = true)
    (hy : isFinite y = true) : AllFinite (h.shift x y).words := by
  simp only [AllFinite, Hist.words, Hist.shift, List.forall_mem_cons] at hh ⊢
  obtain ⟨hx1, hx2, _, hy1, hy2, _, hnil⟩ := hh
  exact ⟨hx, hx1, hx2, hy, hy1, hy2, hnil⟩

theorem cellRun_reset_allFinite {h : Hist} {xs : List Word} (hh : AllFinite h.words) (hx : AllFinite xs) :
    AllFinite (cellRun resetCoeffs h xs).1 ∧ AllFinite (cellRun resetCoeffs h xs).2.words := by
  induction xs generalizing h with
  | nil => exact ⟨hx, hh⟩
  | cons x xs ih =>
    obtain ⟨hx, hxs⟩ := List.forall_mem_cons.mp hx
    obtain ⟨hsame, _⟩ := cellOut_reset hh hx
    have hy := hsame.isFinite hx
    obtain ⟨hout, hhist⟩ := ih (hh.shift hx hy) hxs
    exact ⟨List.forall_mem_cons.mpr ⟨hy, hout⟩, hhist⟩

/-- A function that is the identity on finite words. -/
theorem AllFinite.map {xs : List Word} (hx : AllFinite xs) {f : Word → Word}
    (hf : ∀ x, isFinite x = true → f x = x) : AllFinite (xs.map f) := by
  intro w hw
  obtain ⟨x, hmem, rfl⟩ := List.mem_map.mp hw
  rw [hf x (hx x hmem)]
  exact hx x hmem

theorem State.SameRegs.stageBlock_reset_allFinite (h : s.SameRegs c State.reset c)
    (hh : ∀ f, AllFinite (s.histOf c f).words) {xs : List Word} (hx : AllFinite xs) (st : Stage) :
    AllFinite (s.stageBlock c xs st) := by
  cases st with
  | gain g =>
    rw [h.stageBlock_gain_reset]
    exact hx.map fun _ hfin => fmul_one (isFinite_classes hfin).1
  | filt f =>
    obtain rfl | hf := eq_or_ne f .shelf
    · rwa [h.stageBlock_shelf_reset]
    · rw [h.stageBlock_filt_reset hf]
      exact (cellRun_reset_allFinite (hh f) hx).1
  | shaper =>
    rw [h.stageBlock_shaper_reset]
    exact hx.map fun _ => shapeOut_zero_of_finite
  | cab => rwa [State.stageBlock_cab]

theorem State.SameRegs.blockAfter_reset_allFinite (h : s.SameRegs c State.reset c)
    (hh : ∀ f, AllFinite (s.histOf c f).words) {xs : List Word} (hx : AllFinite xs) (k : Nat) :
    AllFinite (s.blockAfter c k xs) := by
  unfold State.blockAfter
  induction chain.take k generalizing xs with
  | nil => exact hx
  | cons st sts ih => exact ih (h.stageBlock_reset_allFinite hh hx st)

theorem State.SameRegs.histAfter_reset_allFinite (h : s.SameRegs c State.reset c)
    (hh : ∀ f, AllFinite (s.histOf c f).words) {xs : List Word} (hx : AllFinite xs) (f : FiltStage) :
    AllFinite (s.histAfter c f xs).words := by
  unfold State.histAfter
  rw [h.coefOf_reset]
  split
  · exact hh f
  · exact (cellRun_reset_allFinite (hh f) (h.blockAfter_reset_allFinite hh hx _)).2

/-- The third sample back is one of the zeros of reset while a cell has taken two samples at most. -/
theorem cellRun_resetHist_x3 (k : Coeffs) {xs : List Word} (hlen : xs.length ≤ 2) :
    (cellRun k resetHist xs).2.x3 = 0 := by
  match xs with
  | [] => rfl
  | [_] => rfl
  | [_, _] => rfl
  | _ :: _ :: _ :: _ => simp at hlen

theorem State.SameRegs.histAfter_tone_reset_x3 (h : s.SameRegs c State.reset c) (hh : s.histOf c .tone = resetHist)
    {xs : List Word} (hlen : xs.length ≤ 2) : (s.histAfter c .tone xs).x3 = 0 := by
  rw [State.histAfter, if_neg (by simp [h.bypOf_reset]), hh]
  exact cellRun_resetHist_x3 _ ((s.blockAfter_length c _ xs).trans_le hlen)

end ResetRegs

/-! ### A block sample by sample -/

section Block
variable {s : State} {c : Chan} {n : Nat} {xs : Nat → Word}

/-- A block in two pieces under a bypassed cabinet: the second starts from the state the first leaves. -/
theorem State.Block.procBlock_split {k : Nat} (hb : s.Block c k xs)
    (hoff : s.bypOf c .cab = true) (m : Nat) :
    s.procBlock c (samples (k + m) xs) =
      s.procBlock c (samples k xs) ++ (s.runChain c k).procBlock c (samples m fun i => xs (k + i)) := by
  have hframe := s.runChain_audioFrame c k
  have hoff' : (s.runChain c k).bypOf c .cab = true := (hframe.bypOf_eq c .cab).trans hoff
  rw [samples_add]
  exact (hframe.sameRegs c).procBlock_append hb.runChain.hist
    ((State.cabBypassed_of_flag hoff' _).trans (State.cabBypassed_of_flag hoff _).symm)
    (.inl (State.cabBypassed_of_flag hoff _)) _

/-- Under the reset configuration sample `i` goes by itself through the chain, from the histories that the samples
before it leave. -/
theorem State.Block.procBlock_sample (hb : s.Block c n xs) (h : s.SameRegs c State.reset c) {i : Nat} (hi : i < n) :
    (s.procBlock c (samples n xs)).getD i 0 =
      resetChainOut (s.histAfter c .hp1 (samples i xs)) (s.histAfter c .hp2 (samples i xs))
        (s.histAfter c .tone (samples i xs)) (xs i) := by
  have hoff : s.bypOf c .cab = true := by simp [h.bypOf_reset]
  have before {k : Nat} (hk : k ≤ n) : s.Block c k xs := fun j hj => hb j (by omega)
  have hthrough := (before hi).procBlock_split hoff (n - (i + 1))
  have hsample := (before hi.le).procBlock_split hoff 1
  have hleaves := (before hi.le).runChain
  have hregs := ((s.runChain_audioFrame c i).sameRegs c).trans h
  have hsingle : samples 1 (fun j => xs (i + j)) = [xs i] := rfl
  rw [hsingle, hregs.procBlock_single_reset, hleaves.hist, hleaves.hist, hleaves.hist] at hsample
  rw [show i + 1 + (n - (i + 1)) = n by omega, hsample] at hthrough
  rw [hthrough, List.append_assoc, List.getD_append_right _ _ _ _ (by simp)]
  simp

end Block

/-- Settles O39: each sample by itself, from histories that are finite where every sample before it was. -/
theorem resetConfigurationPassesThrough : Obligations.ResetConfigurationPassesThrough := by
  intro s c n xs hn hb hgain hdrive hcoef hbyp hfin
  have h : s.SameRegs c State.reset c := ⟨by rw [hgain], by rw [hdrive], by rw [hcoef], by rw [hbyp]⟩
  refine ⟨_, _, exec_proc_of_le hn, hb.runChain.block.block (by simp), fun i hi => ?_⟩
  rw [hb.procBlock_sample h hi]
  refine ⟨fun hbefore => ?_, resetChainOut_not_finite _ _ _⟩
  have hpast : AllFinite (samples i xs) := by
    intro w hw
    obtain ⟨j, hj, rfl⟩ := List.mem_map.mp hw
    exact hbefore j (List.mem_range.mp hj).le
  have hhist := h.histAfter_reset_allFinite hfin hpast
  obtain ⟨hsame, hzero⟩ := resetChainOut_finite (hhist .hp1) (hhist .hp2) (hhist .tone) (hbefore i le_rfl)
  refine ⟨hsame.eq, fun hz => hsame.isZero_eq.trans hz, fun hreset hi2 hz => hzero hz ?_⟩
  exact h.histAfter_tone_reset_x3 (hreset .tone) (by simpa using hi2)

end Sys2Proof.Machine
